-- ==== Sys2Proof/Word.lean ====
section
/-! DEFINITION. Words and bytes, and the three readings of a 32-bit pattern the spec's rules use (00_scope.md R7). -/

namespace Sys2Proof

/-- A 32-bit pattern: register contents, the pc, addresses, instruction words (00_scope.md R5, R7). -/
abbrev Word := BitVec 32

/-- One memory byte (00_scope.md R5). -/
abbrev Byte := BitVec 8

/-- `wrap32(n)`: the 32-bit pattern of the integer `n` modulo 2^32 (00_scope.md R7). -/
def wrap32 (n : Int) : Word := BitVec.ofInt 32 n

/-- `s(v)`: the pattern read as a two's-complement integer (00_scope.md R7). -/
def signed (v : Word) : Int := v.toInt

/-- `u(v)`: the pattern read as an unsigned integer (00_scope.md R7). -/
def unsigned (v : Word) : Int := (v.toNat : Int)

end Sys2Proof
end

