-- ==== Sys2Proof/Syntax.lean ====
section
/-! DEFINITION. The 58 instructions (30_encoding.md R70), one constructor for each row of spec/opcode_table.json, with
the operands the decoder extracts (30_encoding.md R67, R69). -/

namespace Sys2Proof

/-- Index of an integer register (10_state.md R11). -/
abbrev XReg := BitVec 5

/-- Index of a float register (10_state.md R14). -/
abbrev FReg := BitVec 5

/-- An instruction. Immediates are as 30_encoding.md R69 reconstructs them: 12 bits for formats I and S, 13 bits with
bit 0 clear for B, 21 bits with bit 0 clear for J, 32 bits with the low twelve clear for U, 5 bits for I-shift. -/
inductive Instr where
  -- register-register integer operations, format R (40_integer_alu.md R111 to R120)
  | add (rd rs1 rs2 : XReg)
  | sub (rd rs1 rs2 : XReg)
  | and (rd rs1 rs2 : XReg)
  | or (rd rs1 rs2 : XReg)
  | xor (rd rs1 rs2 : XReg)
  | sll (rd rs1 rs2 : XReg)
  | srl (rd rs1 rs2 : XReg)
  | sra (rd rs1 rs2 : XReg)
  | slt (rd rs1 rs2 : XReg)
  | sltu (rd rs1 rs2 : XReg)
  -- register-immediate integer operations, formats I and I-shift (40_integer_alu.md R121 to R129)
  | addi (rd rs1 : XReg) (imm : BitVec 12)
  | andi (rd rs1 : XReg) (imm : BitVec 12)
  | ori (rd rs1 : XReg) (imm : BitVec 12)
  | xori (rd rs1 : XReg) (imm : BitVec 12)
  | slli (rd rs1 : XReg) (shamt : BitVec 5)
  | srli (rd rs1 : XReg) (shamt : BitVec 5)
  | srai (rd rs1 : XReg) (shamt : BitVec 5)
  | slti (rd rs1 : XReg) (imm : BitVec 12)
  | sltiu (rd rs1 : XReg) (imm : BitVec 12)
  -- multiply, divide, remainder, format R (41_muldiv.md R141 to R148)
  | mul (rd rs1 rs2 : XReg)
  | mulh (rd rs1 rs2 : XReg)
  | mulhsu (rd rs1 rs2 : XReg)
  | mulhu (rd rs1 rs2 : XReg)
  | div (rd rs1 rs2 : XReg)
  | divu (rd rs1 rs2 : XReg)
  | rem (rd rs1 rs2 : XReg)
  | remu (rd rs1 rs2 : XReg)
  -- loads, format I (42_load_store.md R161 to R165)
  | lb (rd rs1 : XReg) (imm : BitVec 12)
  | lh (rd rs1 : XReg) (imm : BitVec 12)
  | lw (rd rs1 : XReg) (imm : BitVec 12)
  | lbu (rd rs1 : XReg) (imm : BitVec 12)
  | lhu (rd rs1 : XReg) (imm : BitVec 12)
  -- stores, format S: `rs1` is the base, `rs2` the register stored (42_load_store.md R166 to R168)
  | sb (rs1 rs2 : XReg) (imm : BitVec 12)
  | sh (rs1 rs2 : XReg) (imm : BitVec 12)
  | sw (rs1 rs2 : XReg) (imm : BitVec 12)
  -- upper immediates and jumps (43_upper_and_jumps.md R181 to R184)
  | lui (rd : XReg) (imm : Word)
  | auipc (rd : XReg) (imm : Word)
  | jal (rd : XReg) (off : BitVec 21)
  | jalr (rd rs1 : XReg) (imm : BitVec 12)
  -- branches, format B (44_branches.md R191 to R196)
  | beq (rs1 rs2 : XReg) (off : BitVec 13)
  | bne (rs1 rs2 : XReg) (off : BitVec 13)
  | blt (rs1 rs2 : XReg) (off : BitVec 13)
  | bge (rs1 rs2 : XReg) (off : BitVec 13)
  | bltu (rs1 rs2 : XReg) (off : BitVec 13)
  | bgeu (rs1 rs2 : XReg) (off : BitVec 13)
  -- single-precision float (45_float.md R204 to R214); `rm` is the rounding-mode field
  | faddS (rd rs1 rs2 : FReg) (rm : BitVec 3)
  | fsubS (rd rs1 rs2 : FReg) (rm : BitVec 3)
  | fmulS (rd rs1 rs2 : FReg) (rm : BitVec 3)
  | fdivS (rd rs1 rs2 : FReg) (rm : BitVec 3)
  | fcvtWS (rd : XReg) (rs1 : FReg) (rm : BitVec 3)
  | fcvtSW (rd : FReg) (rs1 : XReg) (rm : BitVec 3)
  | feqS (rd : XReg) (rs1 rs2 : FReg)
  | fltS (rd : XReg) (rs1 rs2 : FReg)
  | fleS (rd : XReg) (rs1 rs2 : FReg)
  | fmvXW (rd : XReg) (rs1 : FReg)
  | fmvWX (rd : FReg) (rs1 : XReg)
  -- system (46_system.md R230, R237)
  | ecall
  | ebreak
deriving DecidableEq, Repr

end Sys2Proof
end

