-- ==== Sys2Proof/WellFormed.lean ====
section
/-! DEFINITION. Which instruction terms stand for an encoding: those whose immediate has the form the decoder
reconstructs (30_encoding.md R55, R56, R57, R69). Register indices, 12-bit immediates, shift amounts and rounding modes
fill their fields exactly, so their types are the whole check. -/

namespace Sys2Proof

/-- A format B offset is even: its bit 0 is not stored (30_encoding.md R55). -/
abbrev evenB (off : BitVec 13) : Prop := off.getLsbD 0 = false

/-- A format J offset is even: its bit 0 is not stored (30_encoding.md R57). -/
abbrev evenJ (off : BitVec 21) : Prop := off.getLsbD 0 = false

/-- A format U immediate has its low twelve bits zero (30_encoding.md R69). -/
abbrev upperU (imm : Word) : Prop := imm.extractLsb' 0 12 = 0#12

/-- The instruction is one an encoding can carry. -/
def Instr.wellFormed : Instr → Bool
  | .lui _ imm => decide (upperU imm)
  | .auipc _ imm => decide (upperU imm)
  | .jal _ off => decide (evenJ off)
  | .beq _ _ off => decide (evenB off)
  | .bne _ _ off => decide (evenB off)
  | .blt _ _ off => decide (evenB off)
  | .bge _ _ off => decide (evenB off)
  | .bltu _ _ off => decide (evenB off)
  | .bgeu _ _ off => decide (evenB off)
  | .add _ _ _ => true
  | .sub _ _ _ => true
  | .and _ _ _ => true
  | .or _ _ _ => true
  | .xor _ _ _ => true
  | .sll _ _ _ => true
  | .srl _ _ _ => true
  | .sra _ _ _ => true
  | .slt _ _ _ => true
  | .sltu _ _ _ => true
  | .addi _ _ _ => true
  | .andi _ _ _ => true
  | .ori _ _ _ => true
  | .xori _ _ _ => true
  | .slli _ _ _ => true
  | .srli _ _ _ => true
  | .srai _ _ _ => true
  | .slti _ _ _ => true
  | .sltiu _ _ _ => true
  | .mul _ _ _ => true
  | .mulh _ _ _ => true
  | .mulhsu _ _ _ => true
  | .mulhu _ _ _ => true
  | .div _ _ _ => true
  | .divu _ _ _ => true
  | .rem _ _ _ => true
  | .remu _ _ _ => true
  | .lb _ _ _ => true
  | .lh _ _ _ => true
  | .lw _ _ _ => true
  | .lbu _ _ _ => true
  | .lhu _ _ _ => true
  | .sb _ _ _ => true
  | .sh _ _ _ => true
  | .sw _ _ _ => true
  | .jalr _ _ _ => true
  | .faddS _ _ _ _ => true
  | .fsubS _ _ _ _ => true
  | .fmulS _ _ _ _ => true
  | .fdivS _ _ _ _ => true
  | .fcvtWS _ _ _ => true
  | .fcvtSW _ _ _ => true
  | .feqS _ _ _ => true
  | .fltS _ _ _ => true
  | .fleS _ _ _ => true
  | .fmvXW _ _ => true
  | .fmvWX _ _ => true
  | .ecall => true
  | .ebreak => true

end Sys2Proof
end

