-- ==== Sys2Proof/Decode.lean ====
section
/-! DEFINITION. The instruction decoder (30_encoding.md R66 to R69), total on all words and all byte strings and
rejecting by name; the opcode table (R68, R70 to R75); and the encoder of well-formed instructions (R51 to R57).
The layouts are the source document's; every selector number is the standard RISC-V one (decision D2, log entry 5). -/

namespace Sys2Proof

/-! ### Field extraction (R67): the six fields, for every word, before matching -/

def opcodeOf (w : Word) : BitVec 7 := w.extractLsb' 0 7
def rdOf (w : Word) : BitVec 5 := w.extractLsb' 7 5
def funct3Of (w : Word) : BitVec 3 := w.extractLsb' 12 3
def rs1Of (w : Word) : BitVec 5 := w.extractLsb' 15 5
def rs2Of (w : Word) : BitVec 5 := w.extractLsb' 20 5
def funct7Of (w : Word) : BitVec 7 := w.extractLsb' 25 7

/-! ### Immediate reconstruction (R69) -/

/-- `imm_I`: bits 31:20. -/
def immI (w : Word) : BitVec 12 := w.extractLsb' 20 12

/-- `imm_S`: bits 31:25, then bits 11:7. -/
def immS (w : Word) : BitVec 12 := w.extractLsb' 25 7 ++ w.extractLsb' 7 5

/-- `imm_B`: bit 31, bit 7, bits 30:25, bits 11:8, then a zero. -/
def immB (w : Word) : BitVec 13 :=
  w.extractLsb' 31 1 ++ w.extractLsb' 7 1 ++ w.extractLsb' 25 6 ++ w.extractLsb' 8 4 ++ 0b0#1

/-- `imm_U`: bits 31:12, then twelve zeros. -/
def immU (w : Word) : Word := w.extractLsb' 12 20 ++ 0#12

/-- `imm_J`: bit 31, bits 19:12, bit 20, bits 30:21, then a zero. -/
def immJ (w : Word) : BitVec 21 :=
  w.extractLsb' 31 1 ++ w.extractLsb' 12 8 ++ w.extractLsb' 20 1 ++ w.extractLsb' 21 10 ++ 0b0#1

/-! ### Major opcodes (R71) -/

def opLui : BitVec 7 := 0b0110111#7
def opAuipc : BitVec 7 := 0b0010111#7
def opJal : BitVec 7 := 0b1101111#7
def opJalr : BitVec 7 := 0b1100111#7
def opBranch : BitVec 7 := 0b1100011#7
def opLoad : BitVec 7 := 0b0000011#7
def opStore : BitVec 7 := 0b0100011#7
def opOpImm : BitVec 7 := 0b0010011#7
def opOp : BitVec 7 := 0b0110011#7
def opSystem : BitVec 7 := 0b1110011#7
def opFp : BitVec 7 := 0b1010011#7

/-! ### Matching (R68), one function for each major opcode -/

/-- OP (R72): funct7, then funct3. -/
def decodeOp (w : Word) : Option Instr :=
  let rd := rdOf w
  let rs1 := rs1Of w
  let rs2 := rs2Of w
  if funct7Of w = 0b0000000#7 then
    if funct3Of w = 0b000#3 then some (.add rd rs1 rs2)
    else if funct3Of w = 0b001#3 then some (.sll rd rs1 rs2)
    else if funct3Of w = 0b010#3 then some (.slt rd rs1 rs2)
    else if funct3Of w = 0b011#3 then some (.sltu rd rs1 rs2)
    else if funct3Of w = 0b100#3 then some (.xor rd rs1 rs2)
    else if funct3Of w = 0b101#3 then some (.srl rd rs1 rs2)
    else if funct3Of w = 0b110#3 then some (.or rd rs1 rs2)
    else if funct3Of w = 0b111#3 then some (.and rd rs1 rs2)
    else none
  else if funct7Of w = 0b0100000#7 then
    if funct3Of w = 0b000#3 then some (.sub rd rs1 rs2)
    else if funct3Of w = 0b101#3 then some (.sra rd rs1 rs2)
    else none
  else if funct7Of w = 0b0000001#7 then
    if funct3Of w = 0b000#3 then some (.mul rd rs1 rs2)
    else if funct3Of w = 0b001#3 then some (.mulh rd rs1 rs2)
    else if funct3Of w = 0b010#3 then some (.mulhsu rd rs1 rs2)
    else if funct3Of w = 0b011#3 then some (.mulhu rd rs1 rs2)
    else if funct3Of w = 0b100#3 then some (.div rd rs1 rs2)
    else if funct3Of w = 0b101#3 then some (.divu rd rs1 rs2)
    else if funct3Of w = 0b110#3 then some (.rem rd rs1 rs2)
    else if funct3Of w = 0b111#3 then some (.remu rd rs1 rs2)
    else none
  else none

/-- OP-IMM (R72): funct3, and funct7 for the shifts; the shift amount stands in the rs2 field (R53). -/
def decodeOpImm (w : Word) : Option Instr :=
  let rd := rdOf w
  let rs1 := rs1Of w
  if funct3Of w = 0b000#3 then some (.addi rd rs1 (immI w))
  else if funct3Of w = 0b001#3 then if funct7Of w = 0b0000000#7 then some (.slli rd rs1 (rs2Of w)) else none
  else if funct3Of w = 0b010#3 then some (.slti rd rs1 (immI w))
  else if funct3Of w = 0b011#3 then some (.sltiu rd rs1 (immI w))
  else if funct3Of w = 0b100#3 then some (.xori rd rs1 (immI w))
  else if funct3Of w = 0b101#3 then
    if funct7Of w = 0b0000000#7 then some (.srli rd rs1 (rs2Of w))
    else if funct7Of w = 0b0100000#7 then some (.srai rd rs1 (rs2Of w))
    else none
  else if funct3Of w = 0b110#3 then some (.ori rd rs1 (immI w))
  else if funct3Of w = 0b111#3 then some (.andi rd rs1 (immI w))
  else none

/-- LOAD (R73). -/
def decodeLoad (w : Word) : Option Instr :=
  let rd := rdOf w
  let rs1 := rs1Of w
  if funct3Of w = 0b000#3 then some (.lb rd rs1 (immI w))
  else if funct3Of w = 0b001#3 then some (.lh rd rs1 (immI w))
  else if funct3Of w = 0b010#3 then some (.lw rd rs1 (immI w))
  else if funct3Of w = 0b100#3 then some (.lbu rd rs1 (immI w))
  else if funct3Of w = 0b101#3 then some (.lhu rd rs1 (immI w))
  else none

/-- STORE (R73). -/
def decodeStore (w : Word) : Option Instr :=
  let rs1 := rs1Of w
  let rs2 := rs2Of w
  if funct3Of w = 0b000#3 then some (.sb rs1 rs2 (immS w))
  else if funct3Of w = 0b001#3 then some (.sh rs1 rs2 (immS w))
  else if funct3Of w = 0b010#3 then some (.sw rs1 rs2 (immS w))
  else none

/-- BRANCH (R73). -/
def decodeBranch (w : Word) : Option Instr :=
  let rs1 := rs1Of w
  let rs2 := rs2Of w
  if funct3Of w = 0b000#3 then some (.beq rs1 rs2 (immB w))
  else if funct3Of w = 0b001#3 then some (.bne rs1 rs2 (immB w))
  else if funct3Of w = 0b100#3 then some (.blt rs1 rs2 (immB w))
  else if funct3Of w = 0b101#3 then some (.bge rs1 rs2 (immB w))
  else if funct3Of w = 0b110#3 then some (.bltu rs1 rs2 (immB w))
  else if funct3Of w = 0b111#3 then some (.bgeu rs1 rs2 (immB w))
  else none

/-- OP-FP (R74): the variants R-FP, R-FP-CVT and R-FP-CMP. Every `rm` is accepted (decision D7); the rs2 field of the
conversions and moves, and the funct3 of the moves, are fixed (decision D6). -/
def decodeFp (w : Word) : Option Instr :=
  let rd := rdOf w
  let rs1 := rs1Of w
  let rs2 := rs2Of w
  let rm := funct3Of w
  if funct7Of w = 0b0000000#7 then some (.faddS rd rs1 rs2 rm)
  else if funct7Of w = 0b0000100#7 then some (.fsubS rd rs1 rs2 rm)
  else if funct7Of w = 0b0001000#7 then some (.fmulS rd rs1 rs2 rm)
  else if funct7Of w = 0b0001100#7 then some (.fdivS rd rs1 rs2 rm)
  else if funct7Of w = 0b1100000#7 then
    if rs2 = 0b00000#5 then some (.fcvtWS rd rs1 rm) else none
  else if funct7Of w = 0b1101000#7 then
    if rs2 = 0b00000#5 then some (.fcvtSW rd rs1 rm) else none
  else if funct7Of w = 0b1110000#7 then
    if rs2 = 0b00000#5 ∧ rm = 0b000#3 then some (.fmvXW rd rs1) else none
  else if funct7Of w = 0b1111000#7 then
    if rs2 = 0b00000#5 ∧ rm = 0b000#3 then some (.fmvWX rd rs1) else none
  else if funct7Of w = 0b1010000#7 then
    if rm = 0b000#3 then some (.fleS rd rs1 rs2)
    else if rm = 0b001#3 then some (.fltS rd rs1 rs2)
    else if rm = 0b010#3 then some (.feqS rd rs1 rs2)
    else none
  else none

/-- SYSTEM (R75): exactly two words (decision D6). -/
def decodeSystem (w : Word) : Option Instr :=
  if w = 0x00000073#32 then some .ecall
  else if w = 0x00100073#32 then some .ebreak
  else none

/-- The instruction a word stands for, none when no row of the table matches it (R68, R76). -/
def matchRow (w : Word) : Option Instr :=
  if opcodeOf w = opOp then decodeOp w
  else if opcodeOf w = opOpImm then decodeOpImm w
  else if opcodeOf w = opLoad then decodeLoad w
  else if opcodeOf w = opStore then decodeStore w
  else if opcodeOf w = opBranch then decodeBranch w
  else if opcodeOf w = opFp then decodeFp w
  else if opcodeOf w = opSystem then decodeSystem w
  else if opcodeOf w = opLui then some (.lui (rdOf w) (immU w))
  else if opcodeOf w = opAuipc then some (.auipc (rdOf w) (immU w))
  else if opcodeOf w = opJal then some (.jal (rdOf w) (immJ w))
  else if opcodeOf w = opJalr then
    if funct3Of w = 0b000#3 then some (.jalr (rdOf w) (rs1Of w) (immI w)) else none
  else none

/-- Why the decoder refuses. -/
inductive DecodeReject where
  /-- Fewer than the four bytes of an instruction (R50). -/
  | truncated
  /-- The word matches no row of the instruction-format table (R68, R76). -/
  | noRow (w : Word)
deriving DecidableEq, Repr

/-- The decoder on a word (R66). -/
def decodeWord (w : Word) : Except DecodeReject Instr :=
  match matchRow w with
  | some i => .ok i
  | none => .error (.noRow w)

/-- Four bytes, the first at the lowest address, as a word: little-endian (R50, 20_memory.md R33). -/
def wordOfBytes (b0 b1 b2 b3 : Byte) : Word := b3 ++ b2 ++ b1 ++ b0

/-- The decoder on a byte string: the instruction the first four bytes stand for, and the rest. -/
def decode : List Byte → Except DecodeReject (Instr × List Byte)
  | b0 :: b1 :: b2 :: b3 :: rest =>
    match decodeWord (wordOfBytes b0 b1 b2 b3) with
    | .ok i => .ok (i, rest)
    | .error e => .error e
  | _ => .error .truncated

/-! ### The opcode table (R68, R70 to R75) -/

/-- The ten layouts and sub-variants of 90_conflicts.md C3, and the two fixed words. -/
inductive Format where
  | r | i | iShift | s | b | u | j | fixed | rFp | rFpCvt | rFpCmp
deriving DecidableEq, Repr

/-- The 58 mnemonics (R70). -/
inductive Mnemonic where
  | add | sub | and | or | xor | sll | srl | sra | slt | sltu
  | addi | andi | ori | xori | slli | srli | srai | slti | sltiu | mul
  | mulh | mulhsu | mulhu | div | divu | rem | remu | lb | lh | lw
  | lbu | lhu | sb | sh | sw | lui | auipc | jal | jalr | beq
  | bne | blt | bge | bltu | bgeu | faddS | fsubS | fmulS | fdivS | fcvtWS
  | fcvtSW | feqS | fltS | fleS | fmvXW | fmvWX | ecall | ebreak
deriving DecidableEq, Repr

/-- A row of spec/opcode_table.json: a word `w` matches it when `w AND mask = value` (R68). -/
structure OpRow where
  name : String
  format : Format
  mask : Word
  value : Word
deriving DecidableEq, Repr

/-- The row of each mnemonic. -/
def Mnemonic.row : Mnemonic → OpRow
  | .add => ⟨"ADD", .r, 0xFE00707F#32, 0x00000033#32⟩
  | .sub => ⟨"SUB", .r, 0xFE00707F#32, 0x40000033#32⟩
  | .and => ⟨"AND", .r, 0xFE00707F#32, 0x00007033#32⟩
  | .or => ⟨"OR", .r, 0xFE00707F#32, 0x00006033#32⟩
  | .xor => ⟨"XOR", .r, 0xFE00707F#32, 0x00004033#32⟩
  | .sll => ⟨"SLL", .r, 0xFE00707F#32, 0x00001033#32⟩
  | .srl => ⟨"SRL", .r, 0xFE00707F#32, 0x00005033#32⟩
  | .sra => ⟨"SRA", .r, 0xFE00707F#32, 0x40005033#32⟩
  | .slt => ⟨"SLT", .r, 0xFE00707F#32, 0x00002033#32⟩
  | .sltu => ⟨"SLTU", .r, 0xFE00707F#32, 0x00003033#32⟩
  | .addi => ⟨"ADDI", .i, 0x0000707F#32, 0x00000013#32⟩
  | .andi => ⟨"ANDI", .i, 0x0000707F#32, 0x00007013#32⟩
  | .ori => ⟨"ORI", .i, 0x0000707F#32, 0x00006013#32⟩
  | .xori => ⟨"XORI", .i, 0x0000707F#32, 0x00004013#32⟩
  | .slli => ⟨"SLLI", .iShift, 0xFE00707F#32, 0x00001013#32⟩
  | .srli => ⟨"SRLI", .iShift, 0xFE00707F#32, 0x00005013#32⟩
  | .srai => ⟨"SRAI", .iShift, 0xFE00707F#32, 0x40005013#32⟩
  | .slti => ⟨"SLTI", .i, 0x0000707F#32, 0x00002013#32⟩
  | .sltiu => ⟨"SLTIU", .i, 0x0000707F#32, 0x00003013#32⟩
  | .mul => ⟨"MUL", .r, 0xFE00707F#32, 0x02000033#32⟩
  | .mulh => ⟨"MULH", .r, 0xFE00707F#32, 0x02001033#32⟩
  | .mulhsu => ⟨"MULHSU", .r, 0xFE00707F#32, 0x02002033#32⟩
  | .mulhu => ⟨"MULHU", .r, 0xFE00707F#32, 0x02003033#32⟩
  | .div => ⟨"DIV", .r, 0xFE00707F#32, 0x02004033#32⟩
  | .divu => ⟨"DIVU", .r, 0xFE00707F#32, 0x02005033#32⟩
  | .rem => ⟨"REM", .r, 0xFE00707F#32, 0x02006033#32⟩
  | .remu => ⟨"REMU", .r, 0xFE00707F#32, 0x02007033#32⟩
  | .lb => ⟨"LB", .i, 0x0000707F#32, 0x00000003#32⟩
  | .lh => ⟨"LH", .i, 0x0000707F#32, 0x00001003#32⟩
  | .lw => ⟨"LW", .i, 0x0000707F#32, 0x00002003#32⟩
  | .lbu => ⟨"LBU", .i, 0x0000707F#32, 0x00004003#32⟩
  | .lhu => ⟨"LHU", .i, 0x0000707F#32, 0x00005003#32⟩
  | .sb => ⟨"SB", .s, 0x0000707F#32, 0x00000023#32⟩
  | .sh => ⟨"SH", .s, 0x0000707F#32, 0x00001023#32⟩
  | .sw => ⟨"SW", .s, 0x0000707F#32, 0x00002023#32⟩
  | .lui => ⟨"LUI", .u, 0x0000007F#32, 0x00000037#32⟩
  | .auipc => ⟨"AUIPC", .u, 0x0000007F#32, 0x00000017#32⟩
  | .jal => ⟨"JAL", .j, 0x0000007F#32, 0x0000006F#32⟩
  | .jalr => ⟨"JALR", .i, 0x0000707F#32, 0x00000067#32⟩
  | .beq => ⟨"BEQ", .b, 0x0000707F#32, 0x00000063#32⟩
  | .bne => ⟨"BNE", .b, 0x0000707F#32, 0x00001063#32⟩
  | .blt => ⟨"BLT", .b, 0x0000707F#32, 0x00004063#32⟩
  | .bge => ⟨"BGE", .b, 0x0000707F#32, 0x00005063#32⟩
  | .bltu => ⟨"BLTU", .b, 0x0000707F#32, 0x00006063#32⟩
  | .bgeu => ⟨"BGEU", .b, 0x0000707F#32, 0x00007063#32⟩
  | .faddS => ⟨"FADD.S", .rFp, 0xFE00007F#32, 0x00000053#32⟩
  | .fsubS => ⟨"FSUB.S", .rFp, 0xFE00007F#32, 0x08000053#32⟩
  | .fmulS => ⟨"FMUL.S", .rFp, 0xFE00007F#32, 0x10000053#32⟩
  | .fdivS => ⟨"FDIV.S", .rFp, 0xFE00007F#32, 0x18000053#32⟩
  | .fcvtWS => ⟨"FCVT.W.S", .rFpCvt, 0xFFF0007F#32, 0xC0000053#32⟩
  | .fcvtSW => ⟨"FCVT.S.W", .rFpCvt, 0xFFF0007F#32, 0xD0000053#32⟩
  | .feqS => ⟨"FEQ.S", .rFpCmp, 0xFE00707F#32, 0xA0002053#32⟩
  | .fltS => ⟨"FLT.S", .rFpCmp, 0xFE00707F#32, 0xA0001053#32⟩
  | .fleS => ⟨"FLE.S", .rFpCmp, 0xFE00707F#32, 0xA0000053#32⟩
  | .fmvXW => ⟨"FMV.X.W", .rFpCvt, 0xFFF0707F#32, 0xE0000053#32⟩
  | .fmvWX => ⟨"FMV.W.X", .rFpCvt, 0xFFF0707F#32, 0xF0000053#32⟩
  | .ecall => ⟨"ECALL", .fixed, 0xFFFFFFFF#32, 0x00000073#32⟩
  | .ebreak => ⟨"EBREAK", .fixed, 0xFFFFFFFF#32, 0x00100073#32⟩

/-- The OP rows (R72). -/
def Mnemonic.aluRegister : List Mnemonic :=
  [.add, .sub, .and, .or, .xor, .sll, .srl, .sra, .slt, .sltu]

/-- The OP-IMM rows (R72). -/
def Mnemonic.aluImmediate : List Mnemonic :=
  [.addi, .andi, .ori, .xori, .slli, .srli, .srai, .slti, .sltiu]

/-- The RV32M rows (R72). -/
def Mnemonic.mulDiv : List Mnemonic :=
  [.mul, .mulh, .mulhsu, .mulhu, .div, .divu, .rem, .remu]

/-- The LOAD and STORE rows (R73). -/
def Mnemonic.memory : List Mnemonic :=
  [.lb, .lh, .lw, .lbu, .lhu, .sb, .sh, .sw]

/-- The LUI, AUIPC, JAL, JALR and BRANCH rows (R71, R73). -/
def Mnemonic.control : List Mnemonic :=
  [.lui, .auipc, .jal, .jalr, .beq, .bne, .blt, .bge, .bltu, .bgeu]

/-- The OP-FP rows (R74). -/
def Mnemonic.float : List Mnemonic :=
  [.faddS, .fsubS, .fmulS, .fdivS, .fcvtWS, .fcvtSW, .feqS, .fltS, .fleS, .fmvXW, .fmvWX]

/-- The SYSTEM rows (R75). -/
def Mnemonic.system : List Mnemonic :=
  [.ecall, .ebreak]

/-- All 58 mnemonics (R70). -/
def Mnemonic.all : List Mnemonic :=
  Mnemonic.aluRegister ++ Mnemonic.aluImmediate ++ Mnemonic.mulDiv ++ Mnemonic.memory ++ Mnemonic.control ++ Mnemonic.float ++ Mnemonic.system

/-- `w` matches the row of `m` (R68). -/
abbrev Mnemonic.matchesWord (m : Mnemonic) (w : Word) : Prop := w &&& m.row.mask = m.row.value

/-- The mnemonic of an instruction. -/
def Instr.mnemonic : Instr → Mnemonic
  | .add _ _ _ => .add
  | .sub _ _ _ => .sub
  | .and _ _ _ => .and
  | .or _ _ _ => .or
  | .xor _ _ _ => .xor
  | .sll _ _ _ => .sll
  | .srl _ _ _ => .srl
  | .sra _ _ _ => .sra
  | .slt _ _ _ => .slt
  | .sltu _ _ _ => .sltu
  | .addi _ _ _ => .addi
  | .andi _ _ _ => .andi
  | .ori _ _ _ => .ori
  | .xori _ _ _ => .xori
  | .slli _ _ _ => .slli
  | .srli _ _ _ => .srli
  | .srai _ _ _ => .srai
  | .slti _ _ _ => .slti
  | .sltiu _ _ _ => .sltiu
  | .mul _ _ _ => .mul
  | .mulh _ _ _ => .mulh
  | .mulhsu _ _ _ => .mulhsu
  | .mulhu _ _ _ => .mulhu
  | .div _ _ _ => .div
  | .divu _ _ _ => .divu
  | .rem _ _ _ => .rem
  | .remu _ _ _ => .remu
  | .lb _ _ _ => .lb
  | .lh _ _ _ => .lh
  | .lw _ _ _ => .lw
  | .lbu _ _ _ => .lbu
  | .lhu _ _ _ => .lhu
  | .sb _ _ _ => .sb
  | .sh _ _ _ => .sh
  | .sw _ _ _ => .sw
  | .lui _ _ => .lui
  | .auipc _ _ => .auipc
  | .jal _ _ => .jal
  | .jalr _ _ _ => .jalr
  | .beq _ _ _ => .beq
  | .bne _ _ _ => .bne
  | .blt _ _ _ => .blt
  | .bge _ _ _ => .bge
  | .bltu _ _ _ => .bltu
  | .bgeu _ _ _ => .bgeu
  | .faddS _ _ _ _ => .faddS
  | .fsubS _ _ _ _ => .fsubS
  | .fmulS _ _ _ _ => .fmulS
  | .fdivS _ _ _ _ => .fdivS
  | .fcvtWS _ _ _ => .fcvtWS
  | .fcvtSW _ _ _ => .fcvtSW
  | .feqS _ _ _ => .feqS
  | .fltS _ _ _ => .fltS
  | .fleS _ _ _ => .fleS
  | .fmvXW _ _ => .fmvXW
  | .fmvWX _ _ => .fmvWX
  | .ecall => .ecall
  | .ebreak => .ebreak

/-! ### The decoded record (R66) -/

/-- The immediate of a decoded instruction as a signed integer (R69); 0 for the R formats. For U it is the 32-bit
pattern, field shifted left by twelve, read as signed. ECALL and EBREAK are I-format words with immediate 0 and 1 (R75). -/
def Instr.immediate : Instr → Int
  | .add _ _ _ => 0
  | .sub _ _ _ => 0
  | .and _ _ _ => 0
  | .or _ _ _ => 0
  | .xor _ _ _ => 0
  | .sll _ _ _ => 0
  | .srl _ _ _ => 0
  | .sra _ _ _ => 0
  | .slt _ _ _ => 0
  | .sltu _ _ _ => 0
  | .addi _ _ imm => imm.toInt
  | .andi _ _ imm => imm.toInt
  | .ori _ _ imm => imm.toInt
  | .xori _ _ imm => imm.toInt
  | .slli _ _ shamt => (shamt.toNat : Int)
  | .srli _ _ shamt => (shamt.toNat : Int)
  | .srai _ _ shamt => (shamt.toNat : Int)
  | .slti _ _ imm => imm.toInt
  | .sltiu _ _ imm => imm.toInt
  | .mul _ _ _ => 0
  | .mulh _ _ _ => 0
  | .mulhsu _ _ _ => 0
  | .mulhu _ _ _ => 0
  | .div _ _ _ => 0
  | .divu _ _ _ => 0
  | .rem _ _ _ => 0
  | .remu _ _ _ => 0
  | .lb _ _ imm => imm.toInt
  | .lh _ _ imm => imm.toInt
  | .lw _ _ imm => imm.toInt
  | .lbu _ _ imm => imm.toInt
  | .lhu _ _ imm => imm.toInt
  | .sb _ _ imm => imm.toInt
  | .sh _ _ imm => imm.toInt
  | .sw _ _ imm => imm.toInt
  | .lui _ imm => signed imm
  | .auipc _ imm => signed imm
  | .jal _ off => off.toInt
  | .jalr _ _ imm => imm.toInt
  | .beq _ _ off => off.toInt
  | .bne _ _ off => off.toInt
  | .blt _ _ off => off.toInt
  | .bge _ _ off => off.toInt
  | .bltu _ _ off => off.toInt
  | .bgeu _ _ off => off.toInt
  | .faddS _ _ _ _ => 0
  | .fsubS _ _ _ _ => 0
  | .fmulS _ _ _ _ => 0
  | .fdivS _ _ _ _ => 0
  | .fcvtWS _ _ _ => 0
  | .fcvtSW _ _ _ => 0
  | .feqS _ _ _ => 0
  | .fltS _ _ _ => 0
  | .fleS _ _ _ => 0
  | .fmvXW _ _ => 0
  | .fmvWX _ _ => 0
  | .ecall => 0
  | .ebreak => 1

/-- `DecodedInstr` (R66): the mnemonic and format matched, the six fields of every word (R67), and the immediate. -/
structure DecodedInstr where
  mn : Mnemonic
  format : Format
  opcode : BitVec 7
  rd : BitVec 5
  funct3 : BitVec 3
  rs1 : BitVec 5
  rs2 : BitVec 5
  funct7 : BitVec 7
  imm : Int
deriving DecidableEq, Repr

/-- The record the decoder unit hands to the datapath, none for `DecodeError` (R66). -/
def decodedRecord (w : Word) : Option DecodedInstr :=
  match matchRow w with
  | none => none
  | some i =>
    some ⟨i.mnemonic, i.mnemonic.row.format, opcodeOf w, rdOf w, funct3Of w, rs1Of w, rs2Of w, funct7Of w, i.immediate⟩

/-! ### The encoder of instructions: the layouts R51 to R57 and the selectors R71 to R75 -/

/-- Formats R and I-shift (R51, R53): funct7, rs2 or shamt, rs1, funct3 or rm, rd, opcode. -/
def encR (funct7 : BitVec 7) (rs2 rs1 : BitVec 5) (funct3 : BitVec 3) (rd : BitVec 5) (opcode : BitVec 7) : Word :=
  funct7 ++ rs2 ++ rs1 ++ funct3 ++ rd ++ opcode

/-- Format I (R52). -/
def encI (imm : BitVec 12) (rs1 : BitVec 5) (funct3 : BitVec 3) (rd : BitVec 5) (opcode : BitVec 7) : Word :=
  imm ++ rs1 ++ funct3 ++ rd ++ opcode

/-- Format S (R54): imm[11:5], rs2, rs1, funct3, imm[4:0], opcode. -/
def encS (imm : BitVec 12) (rs2 rs1 : BitVec 5) (funct3 : BitVec 3) (opcode : BitVec 7) : Word :=
  imm.extractLsb' 5 7 ++ rs2 ++ rs1 ++ funct3 ++ imm.extractLsb' 0 5 ++ opcode

/-- Format B (R55): imm[12], imm[10:5], rs2, rs1, funct3, imm[4:1], imm[11], opcode. Bit 0 is not stored. -/
def encB (off : BitVec 13) (rs2 rs1 : BitVec 5) (funct3 : BitVec 3) (opcode : BitVec 7) : Word :=
  off.extractLsb' 12 1 ++ off.extractLsb' 5 6 ++ rs2 ++ rs1 ++ funct3 ++ off.extractLsb' 1 4 ++
    off.extractLsb' 11 1 ++ opcode

/-- Format U (R56): the 20-bit field, rd, opcode. -/
def encU (field : BitVec 20) (rd : BitVec 5) (opcode : BitVec 7) : Word :=
  field ++ rd ++ opcode

/-- Format J (R57): imm[20], imm[10:1], imm[11], imm[19:12], rd, opcode. Bit 0 is not stored. -/
def encJ (off : BitVec 21) (rd : BitVec 5) (opcode : BitVec 7) : Word :=
  off.extractLsb' 20 1 ++ off.extractLsb' 1 10 ++ off.extractLsb' 11 1 ++ off.extractLsb' 12 8 ++ rd ++ opcode

/-- The word of an instruction. -/
def encode : Instr → Word
  | .add rd rs1 rs2 => encR 0b0000000#7 rs2 rs1 0b000#3 rd opOp
  | .sub rd rs1 rs2 => encR 0b0100000#7 rs2 rs1 0b000#3 rd opOp
  | .and rd rs1 rs2 => encR 0b0000000#7 rs2 rs1 0b111#3 rd opOp
  | .or rd rs1 rs2 => encR 0b0000000#7 rs2 rs1 0b110#3 rd opOp
  | .xor rd rs1 rs2 => encR 0b0000000#7 rs2 rs1 0b100#3 rd opOp
  | .sll rd rs1 rs2 => encR 0b0000000#7 rs2 rs1 0b001#3 rd opOp
  | .srl rd rs1 rs2 => encR 0b0000000#7 rs2 rs1 0b101#3 rd opOp
  | .sra rd rs1 rs2 => encR 0b0100000#7 rs2 rs1 0b101#3 rd opOp
  | .slt rd rs1 rs2 => encR 0b0000000#7 rs2 rs1 0b010#3 rd opOp
  | .sltu rd rs1 rs2 => encR 0b0000000#7 rs2 rs1 0b011#3 rd opOp
  | .addi rd rs1 imm => encI imm rs1 0b000#3 rd opOpImm
  | .andi rd rs1 imm => encI imm rs1 0b111#3 rd opOpImm
  | .ori rd rs1 imm => encI imm rs1 0b110#3 rd opOpImm
  | .xori rd rs1 imm => encI imm rs1 0b100#3 rd opOpImm
  | .slli rd rs1 shamt => encR 0b0000000#7 shamt rs1 0b001#3 rd opOpImm
  | .srli rd rs1 shamt => encR 0b0000000#7 shamt rs1 0b101#3 rd opOpImm
  | .srai rd rs1 shamt => encR 0b0100000#7 shamt rs1 0b101#3 rd opOpImm
  | .slti rd rs1 imm => encI imm rs1 0b010#3 rd opOpImm
  | .sltiu rd rs1 imm => encI imm rs1 0b011#3 rd opOpImm
  | .mul rd rs1 rs2 => encR 0b0000001#7 rs2 rs1 0b000#3 rd opOp
  | .mulh rd rs1 rs2 => encR 0b0000001#7 rs2 rs1 0b001#3 rd opOp
  | .mulhsu rd rs1 rs2 => encR 0b0000001#7 rs2 rs1 0b010#3 rd opOp
  | .mulhu rd rs1 rs2 => encR 0b0000001#7 rs2 rs1 0b011#3 rd opOp
  | .div rd rs1 rs2 => encR 0b0000001#7 rs2 rs1 0b100#3 rd opOp
  | .divu rd rs1 rs2 => encR 0b0000001#7 rs2 rs1 0b101#3 rd opOp
  | .rem rd rs1 rs2 => encR 0b0000001#7 rs2 rs1 0b110#3 rd opOp
  | .remu rd rs1 rs2 => encR 0b0000001#7 rs2 rs1 0b111#3 rd opOp
  | .lb rd rs1 imm => encI imm rs1 0b000#3 rd opLoad
  | .lh rd rs1 imm => encI imm rs1 0b001#3 rd opLoad
  | .lw rd rs1 imm => encI imm rs1 0b010#3 rd opLoad
  | .lbu rd rs1 imm => encI imm rs1 0b100#3 rd opLoad
  | .lhu rd rs1 imm => encI imm rs1 0b101#3 rd opLoad
  | .sb rs1 rs2 imm => encS imm rs2 rs1 0b000#3 opStore
  | .sh rs1 rs2 imm => encS imm rs2 rs1 0b001#3 opStore
  | .sw rs1 rs2 imm => encS imm rs2 rs1 0b010#3 opStore
  | .lui rd imm => encU (imm.extractLsb' 12 20) rd opLui
  | .auipc rd imm => encU (imm.extractLsb' 12 20) rd opAuipc
  | .jal rd off => encJ off rd opJal
  | .jalr rd rs1 imm => encI imm rs1 0b000#3 rd opJalr
  | .beq rs1 rs2 off => encB off rs2 rs1 0b000#3 opBranch
  | .bne rs1 rs2 off => encB off rs2 rs1 0b001#3 opBranch
  | .blt rs1 rs2 off => encB off rs2 rs1 0b100#3 opBranch
  | .bge rs1 rs2 off => encB off rs2 rs1 0b101#3 opBranch
  | .bltu rs1 rs2 off => encB off rs2 rs1 0b110#3 opBranch
  | .bgeu rs1 rs2 off => encB off rs2 rs1 0b111#3 opBranch
  | .faddS rd rs1 rs2 rm => encR 0b0000000#7 rs2 rs1 rm rd opFp
  | .fsubS rd rs1 rs2 rm => encR 0b0000100#7 rs2 rs1 rm rd opFp
  | .fmulS rd rs1 rs2 rm => encR 0b0001000#7 rs2 rs1 rm rd opFp
  | .fdivS rd rs1 rs2 rm => encR 0b0001100#7 rs2 rs1 rm rd opFp
  | .fcvtWS rd rs1 rm => encR 0b1100000#7 0b00000#5 rs1 rm rd opFp
  | .fcvtSW rd rs1 rm => encR 0b1101000#7 0b00000#5 rs1 rm rd opFp
  | .feqS rd rs1 rs2 => encR 0b1010000#7 rs2 rs1 0b010#3 rd opFp
  | .fltS rd rs1 rs2 => encR 0b1010000#7 rs2 rs1 0b001#3 rd opFp
  | .fleS rd rs1 rs2 => encR 0b1010000#7 rs2 rs1 0b000#3 rd opFp
  | .fmvXW rd rs1 => encR 0b1110000#7 0b00000#5 rs1 0b000#3 rd opFp
  | .fmvWX rd rs1 => encR 0b1111000#7 0b00000#5 rs1 0b000#3 rd opFp
  | .ecall => 0x00000073#32
  | .ebreak => 0x00100073#32

/-- The instruction read from an instruction whose bits are `w`, numbered as spec/opcode_table.json numbers them; bits
at or above `nbits` are 0. The word is laid out little-endian, as memory holds it, and given to `decode`. -/
def decodeTableWord (nbits w : Nat) : Option Instr :=
  let v : Word := BitVec.ofNat 32 (w % 2 ^ nbits)
  match decode [v.extractLsb' 0 8, v.extractLsb' 8 8, v.extractLsb' 16 8, v.extractLsb' 24 8] with
  | .ok (i, _) => some i
  | .error _ => none

end Sys2Proof
end

