-- ==== Sys2Proof/Config.lean ====
section
/-! DEFINITION. What the spec fixes as a constant, what it leaves as a parameter with a default (00_scope.md R5, R6),
and the free values: the patterns of NaNs made by arithmetic, which nothing constrains (45_float.md R203). -/

namespace Sys2Proof.Config

/-- `MAX_STEPS`, the ceiling of a `run()` that is given none (00_scope.md R5, 60_exceptions.md R264). -/
def maxSteps : Nat := 1000000

/-- `TEXT_BASE`, the default text base and default entry of an assembled program (00_scope.md R5). The core attaches
no meaning to it (70_reset_and_hazards.md R284). -/
def textBase : Word := 0x00400000#32

/-- `DATA_VIEW_BASE`, consumed by the external viewer only (00_scope.md R5). -/
def dataViewBase : Word := 0x10010000#32

/-- `DATA_BASE`, where `.data` with no argument starts: a toolchain parameter, at its default (00_scope.md R6). -/
def dataBase : Word := 0x10010000#32

/-- `FCVT_TIE`: what FCVT.W.S makes of a value half-way between two integers (00_scope.md R6, decision D8). -/
inductive FcvtTie where
  /-- The even one of the two integers. -/
  | even
  /-- The one farther from zero. -/
  | away
  /-- The greater one. -/
  | up
deriving DecidableEq, Repr

/-- One entry of `EXTRA_FORMAT_ROWS` (30_encoding.md R77): a word `w` matches it when `w AND mask = value`. -/
structure FormatRow where
  mask : Word
  value : Word
deriving DecidableEq, Repr

/-- The open parameters the core reads (00_scope.md R6). They stand in `State.params`, which no operation writes, so a
statement about every state is a statement about every choice of them. DESIGN CHOICE, log entry 2. -/
structure Params where
  /-- `WRAP`: address arithmetic is modulo 2^32 (true) or faults when it leaves the address space (false), D3. -/
  wrap : Bool
  /-- `FCVT_TIE`, D8. -/
  fcvtTie : FcvtTie
  /-- `PRINT_STRING_CAP`: the most bytes print_string emits, D24. -/
  printStringCap : Nat
  /-- `EXTRA_FORMAT_ROWS`: words that decode and then raise UnimplementedInstruction, D40. -/
  extraFormatRows : List FormatRow
deriving DecidableEq, Repr

/-- The defaults of 00_scope.md R6. -/
def Params.default : Params :=
  { wrap := true, fcvtTie := .even, printStringCap := 1000, extraFormatRows := [] }

/-- FREE VALUE (NAN_BITS, 45_float.md R203, decision D10): the sign of the `k`-th NaN that arithmetic makes. No body:
nothing can be proved of it. Log entry 3. -/
opaque nanSign : Nat → Bool

/-- FREE VALUE (NAN_BITS, 45_float.md R203, decision D10): the fraction, less one, of the `k`-th NaN that arithmetic
makes. Its type leaves every non-zero 23-bit fraction possible and no other. Log entry 3. -/
opaque nanFraction : Nat → Fin 8388607

end Sys2Proof.Config
end

