-- ==== Sys2Proof/Machine/State.lean ====
section
/-! DEFINITION. The state of the core (10_state.md R10 to R27), the fatal faults it can record, and the state after
reset. Plain data throughout. -/

namespace Sys2Proof.Machine

/-- The fatal faults of this hardware, with the information each carries (60_exceptions.md R250). A fault is what
`Status.haltedError` records: the spec describes the state a fault leaves (R252), so the step that raises one answers
a NEXT state in which the core is halted, and no step answers `Outcome.fault`. Safe: nothing is hidden by stopping.
Log entry 1. -/
inductive Fault where
  /-- Raised by the fetch (step 1): byte `a` of the instruction at `pc` is unmapped (R253). Safe. -/
  | fetchError (pc a : Word)
  /-- Raised by the decoder (step 2): the word `w` fetched at `pc` matches no row of the table (R254). Safe. -/
  | decodeError (pc w : Word)
  /-- Raised by LB, LH, LW, LBU, LHU and by ECALL print_string: byte `a` is unmapped (R256). Safe. -/
  | unmappedMemory (a : Word)
  /-- Raised by EBREAK (R257). Safe. -/
  | breakpoint
  /-- Raised on a word that matches a row of EXTRA_FORMAT_ROWS and no other (R255). Safe. -/
  | unimplementedInstruction (w : Word)
  /-- Raised when WRAP is false and an address sum leaves the 32-bit range (R258). Safe. -/
  | addressOverflow
deriving DecidableEq, Repr

/-- Why a step has no meaning. -/
inductive Refusal where
  /-- Raised by an arm of `exec` whose instruction has no meaning yet; no arm of this model does. Safe. -/
  | notModelled (mnemonic : String)
deriving DecidableEq, Repr

/-- The states of the core's state machine (10_state.md R23). `Stepping` is never observed and has no constructor. -/
inductive Status where
  | idle
  | running
  /-- Halted(Error e): a fatal fault ended the last step (60_exceptions.md R252). -/
  | haltedError (e : Fault)
  /-- Halted(SyscallExit): syscall 93 (46_system.md R232). -/
  | haltedExit
deriving DecidableEq, Repr

/-- The events of the output stream (10_state.md R22, decision D25). -/
inductive OutEvent where
  /-- print_int: the signed value of a0. -/
  | printInt (v : Int)
  /-- print_string: the bytes before the terminator. -/
  | printString (bytes : List Byte)
  /-- write: the bytes read. -/
  | write (bytes : List Byte)
  /-- An ECALL with any other id. -/
  | unsupported (id : Word)
deriving DecidableEq, Repr

/-- The sparse memory: the mapped addresses and their bytes (10_state.md R19). An address that is not listed is
unmapped and reads as no value at all. -/
structure Memory where
  cells : List Host.Cell
deriving DecidableEq, Repr

/-- The canonical form: addresses strictly rising, all of them 32-bit. (An unlisted address reads as nothing, so no
listed byte can equal what an unlisted address reads as; log entry 9.) -/
abbrev Memory.wf (m : Memory) : Prop :=
  m.cells.Pairwise (fun c d => c.1 < d.1) ∧ ∀ c ∈ m.cells, c.1 < 4294967296

/-- The empty map: every address unmapped (70_reset_and_hazards.md R280). -/
def Memory.empty : Memory := { cells := [] }

/-- The state (10_state.md R10), the output stream (R22), and two fields of the model's own. -/
structure State where
  /-- `x[0..31]`, read by `readX` and written by `writeX` (R11). -/
  x : Vector Word 32
  /-- `f[0..31]`, binary32 patterns (R14). -/
  f : Vector Word 32
  /-- The address of the instruction being executed (R16). -/
  pc : Word
  /-- The byte memory (R19). -/
  mem : Memory
  /-- True exactly while a `run` is in progress (R20). -/
  running : Bool
  /-- How many steps have completed (R21). -/
  instructionCount : Nat
  /-- The state of the state machine (R23). -/
  status : Status
  /-- The output events, oldest first (R22). -/
  out : List OutEvent
  /-- The MODEL's field: the open parameters (00_scope.md R6), which no operation writes. Log entry 2. -/
  params : Config.Params
  /-- The MODEL's field: how many NaN patterns arithmetic has drawn (45_float.md R203). Log entry 3. -/
  nanDraws : Nat
deriving DecidableEq, Repr

/-- The state after `reset()` (10_state.md R27, 70_reset_and_hazards.md R280). The stream `out` is empty (DESIGN
CHOICE, log entry 4), the parameters are at their defaults (log entry 2), no NaN has been drawn (DESIGN CHOICE, log
entry 3). -/
def State.reset : State :=
  { x := Vector.replicate 32 0#32
    f := Vector.replicate 32 0#32
    pc := 0#32
    mem := Memory.empty
    running := false
    instructionCount := 0
    status := .idle
    out := []
    params := Config.Params.default
    nanDraws := 0 }

end Sys2Proof.Machine
end

