-- ==== Sys2Proof/Machine/Ops.lean ====
section
/-! DEFINITION. The named operations over registers, memory and control state that every meaning is built from, the end
of a completed step, and taking a fatal fault. -/

namespace Sys2Proof.Machine

/-- What a meaning answers. -/
abbrev Result := Host.Outcome State Fault Refusal

/-! ### Registers -/

/-- `x[r]`: register 0 reads 0 (10_state.md R11). -/
def readX (s : State) (r : XReg) : Word :=
  if r = 0#5 then 0#32 else s.x[r.toNat]'r.isLt

/-- `x[r] <- v`: ignored for register 0 (10_state.md R11). -/
def writeX (s : State) (r : XReg) (v : Word) : State :=
  if r = 0#5 then s else { s with x := s.x.set r.toNat v r.isLt }

/-- `f[r]`, as a 32-bit pattern; `f[0]` is an ordinary register (10_state.md R14). -/
def readF (s : State) (r : FReg) : Word := s.f[r.toNat]'r.isLt

/-- `f[r] <- v`: the pattern is kept bit for bit (10_state.md R14). -/
def writeF (s : State) (r : FReg) (v : Word) : State :=
  { s with f := s.f.set r.toNat v r.isLt }

/-! ### Bytes of memory -/

/-- The byte listed at address `a`, if any. -/
def lookupCell : List Host.Cell → Nat → Option Byte
  | [], _ => none
  | (k, b) :: rest, a => if k = a then some b else lookupCell rest a

/-- The list with the byte at address `a` set: replaced where `a` is listed, else put in its place in rising order. -/
def insertCell : List Host.Cell → Nat → Byte → List Host.Cell
  | [], a, b => [(a, b)]
  | (k, c) :: rest, a, b =>
    if a < k then (a, b) :: (k, c) :: rest
    else if a = k then (a, b) :: rest
    else (k, c) :: insertCell rest a b

/-- `readByte(a)`: none when `a` is unmapped (20_memory.md R31). -/
def readByte (m : Memory) (a : Word) : Option Byte := lookupCell m.cells a.toNat

/-- `writeByte(a, v)`: maps `a`; it has no failure (20_memory.md R32). -/
def writeByte (m : Memory) (a : Word) (b : Byte) : Memory :=
  { cells := insertCell m.cells a.toNat b }

/-! ### Address arithmetic (parameter WRAP, decision D3) -/

/-- The address of the integer `n`: modulo 2^32 when it is in range or WRAP is true; AddressOverflow when WRAP is false
and `n` is above `0xFFFFFFFF` or below 0 (60_exceptions.md R258, 20_memory.md R45). -/
def addressOf (p : Config.Params) (n : Int) : Except Fault Word :=
  if p.wrap || (decide (0 ≤ n) && decide (n < 4294967296)) then .ok (wrap32 n) else .error .addressOverflow

/-! ### Accesses of several bytes -/

/-- The bytes `i .. i+n-1` of an access at `addr`, ascending, as one unsigned little-endian value; the first unmapped
byte ends the read (20_memory.md R34, R45). -/
def memReadFrom (p : Config.Params) (m : Memory) (addr : Word) (i : Nat) : Nat → Except Fault Nat
  | 0 => .ok 0
  | n + 1 =>
    match addressOf p (unsigned addr + i) with
    | .error e => .error e
    | .ok a =>
      match readByte m a with
      | none => .error (.unmappedMemory a)
      | some b =>
        match memReadFrom p m addr (i + 1) n with
        | .error e => .error e
        | .ok v => .ok (b.toNat + 256 * v)

/-- `MemRead(addr, n)` (20_memory.md R34): unsigned, little-endian, no alignment check (R37). -/
def memRead (p : Config.Params) (m : Memory) (addr : Word) (n : Nat) : Except Fault Nat :=
  memReadFrom p m addr 0 n

/-- The bytes of a store written at offsets `i`, `i+1`, … of `addr`, ascending (20_memory.md R35, R45). -/
def memWriteFrom (p : Config.Params) (m : Memory) (addr : Word) (i : Nat) : List Byte → Except Fault Memory
  | [] => .ok m
  | b :: bs =>
    match addressOf p (unsigned addr + i) with
    | .error e => .error e
    | .ok a => memWriteFrom p (writeByte m a b) addr (i + 1) bs

/-- The low `n` bytes of a register value, lowest first: `(v >> 8*i) mod 256` (20_memory.md R35). -/
def lowBytes (v : Word) : Nat → List Byte
  | 0 => []
  | n + 1 => v.setWidth 8 :: lowBytes (v >>> 8) n

/-- `MemWrite(addr, n, v)` (20_memory.md R35): the low `n` bytes of `v`, little-endian, no alignment check. It can fail
only through R45, with WRAP false. -/
def memWrite (p : Config.Params) (m : Memory) (addr : Word) (n : Nat) (v : Word) : Except Fault Memory :=
  memWriteFrom p m addr 0 (lowBytes v n)

/-! ### Control state -/

/-- The state with another memory. -/
def setMem (s : State) (m : Memory) : State := { s with mem := m }

/-- `emit(e)`: append to the output stream (00_scope.md R8, 10_state.md R22). -/
def emit (s : State) (e : OutEvent) : State := { s with out := s.out ++ [e] }

/-- One NaN pattern has been drawn (log entry 3). -/
def countNan (s : State) : State := { s with nanDraws := s.nanDraws + 1 }

/-- Syscall exit: `running <- false; status <- Halted(SyscallExit)` (46_system.md R232). -/
def haltExit (s : State) : State := { s with running := false, status := .haltedExit }

/-- The state a fatal fault `e` leaves (60_exceptions.md R252): `running` false, `status` Halted(Error e), nothing
else changed. -/
def haltError (s : State) (e : Fault) : State := { s with running := false, status := .haltedError e }

/-- TAKING A FATAL FAULT, the one operation every fault goes through (60_exceptions.md R252). There is no handler, no
saved pc and no cause register: `pc` keeps the address of the faulting instruction, and control goes nowhere. There is
no return from a fault (R270): a halted core is left only by `hostReset` and `loadProgram` (R263, R266). -/
def raise (s : State) (e : Fault) : Result := .next (haltError s e)

/-- Steps 4 and 5 of `step()` (60_exceptions.md R261): `pc <- t`, `instructionCount + 1`. Writes to `x[0]` are ignored
where they are made, so `x[0] <- 0` is already true (90_conflicts.md C10). -/
def retire (s : State) (t : Word) : State :=
  { s with pc := t, instructionCount := s.instructionCount + 1 }

/-- `pc + 4` of the instruction being executed (60_exceptions.md R262, 10_state.md R18). -/
def pcPlus4 (s : State) : Except Fault Word := addressOf s.params (unsigned s.pc + 4)

/-- The end of a step that began in `s`, has produced `s'` and signals the target `t`; a faulting step keeps none of
its effects (60_exceptions.md R252). -/
def completeAt (s s' : State) : Except Fault Word → Result
  | .ok t => .next (retire s' t)
  | .error e => raise s e

/-- The end of a step that signals no target: the pc takes `pc + 4` (60_exceptions.md R262). -/
def complete (s s' : State) : Result := completeAt s s' (pcPlus4 s)

/-- An instruction whose whole effect is `x[rd] <- v`. -/
def completeX (s : State) (rd : XReg) (v : Word) : Result := complete s (writeX s rd v)

/-- An instruction whose whole effect is `f[rd] <- v`. -/
def completeF (s : State) (rd : FReg) (v : Word) : Result := complete s (writeF s rd v)

/-! ### Fetch and decode -/

/-- A fetch that fails on an unmapped byte `a` is `FetchError(pc, a)` (60_exceptions.md R253); an access that leaves the
address space with WRAP false stays AddressOverflow (R258, log entry 6). -/
def fetchFault (pc : Word) : Fault → Fault
  | .unmappedMemory a => .fetchError pc a
  | .fetchError p a => .fetchError p a
  | .decodeError p w => .decodeError p w
  | .breakpoint => .breakpoint
  | .unimplementedInstruction w => .unimplementedInstruction w
  | .addressOverflow => .addressOverflow

/-- Step 1: `w = MemRead(pc, 4)` (60_exceptions.md R261, 20_memory.md R38). -/
def fetchWord (s : State) : Except Fault Word :=
  match memRead s.params s.mem s.pc 4 with
  | .ok v => .ok (BitVec.ofNat 32 v)
  | .error e => .error (fetchFault s.pc e)

/-- The word matches a row of EXTRA_FORMAT_ROWS (30_encoding.md R77). -/
def matchesExtra (p : Config.Params) (w : Word) : Bool :=
  p.extraFormatRows.any (fun r => w &&& r.mask == r.value)

/-- Step 2: the instruction of the fetched word; a word of EXTRA_FORMAT_ROWS that is no row of the table raises
UnimplementedInstruction, any other raises DecodeError (60_exceptions.md R254, R255); a word of both is the table's
(log entry 7). -/
def decodeFetched (s : State) (w : Word) : Except Fault Instr :=
  match decodeWord w with
  | .ok i => .ok i
  | .error _ =>
    if matchesExtra s.params w then .error (.unimplementedInstruction w) else .error (.decodeError s.pc w)

/-- Steps 1 and 2 together: the instruction at the pc, or the fault the fetch or the decoder raises. -/
def fetchDecode (s : State) : Except Fault Instr :=
  match fetchWord s with
  | .error e => .error e
  | .ok w => decodeFetched s w

/-- The core is halted: `step` has no effect (60_exceptions.md R263). -/
def Status.isHalted : Status → Bool
  | .idle => false
  | .running => false
  | .haltedError _ => true
  | .haltedExit => true

/-- The four bytes of `w` stored at the pc, and a halted core made idle, so that the next step runs `w` (log entry 8). -/
def placeAtPc (s : State) (w : Word) : State :=
  let m0 := writeByte s.mem s.pc (w.extractLsb' 0 8)
  let m1 := writeByte m0 (s.pc + 1#32) (w.extractLsb' 8 8)
  let m2 := writeByte m1 (s.pc + 2#32) (w.extractLsb' 16 8)
  let m3 := writeByte m2 (s.pc + 3#32) (w.extractLsb' 24 8)
  { s with mem := m3, status := if s.status.isHalted then .idle else s.status }

end Sys2Proof.Machine
end

