-- ==== Sys2Proof/Machine/Operands.lean ====
section
/-! DEFINITION. Every operand form: immediates, shift amounts, effective addresses, jump and branch targets, and the
registers of the syscall convention. -/

namespace Sys2Proof.Machine

/-- A 12-bit immediate sign-extended to 32 bits, `wrap32(imm)` (40_integer_alu.md R122). -/
def immWord (imm : BitVec 12) : Word := imm.signExtend 32

/-- A register shift amount: the low five bits of the register (40_integer_alu.md R110, R116). -/
def shiftAmount (v : Word) : Nat := (v.extractLsb' 0 5).toNat

/-- `ea = wrap32(u(x[rs1]) + imm)`, the one addressing mode (42_load_store.md R160). -/
def effectiveAddress (s : State) (rs1 : XReg) (imm : BitVec 12) : Except Fault Word :=
  addressOf s.params (unsigned (readX s rs1) + imm.toInt)

/-- `wrap32(pc + imm_J)` (43_upper_and_jumps.md R183). -/
def jalTarget (s : State) (off : BitVec 21) : Except Fault Word :=
  addressOf s.params (unsigned s.pc + off.toInt)

/-- `wrap32(pc + imm_B)` (44_branches.md R190). -/
def branchTarget (s : State) (off : BitVec 13) : Except Fault Word :=
  addressOf s.params (unsigned s.pc + off.toInt)

/-- `wrap32(u(x[rs1]) + imm_I) AND 0xFFFFFFFE` (43_upper_and_jumps.md R184). -/
def jalrTarget (s : State) (rs1 : XReg) (imm : BitVec 12) : Except Fault Word :=
  match addressOf s.params (unsigned (readX s rs1) + imm.toInt) with
  | .ok t => .ok (t &&& 0xFFFFFFFE#32)
  | .error e => .error e

/-- `a0`, `a1`, `a2`, `a7` of the syscall convention (46_system.md R231, 10_state.md R12). -/
def regA0 : XReg := 10#5
def regA1 : XReg := 11#5
def regA2 : XReg := 12#5
def regA7 : XReg := 17#5

end Sys2Proof.Machine
end

