-- ==== Sys2Proof/Machine/Float.lean ====
section
/-! DEFINITION. Binary32 arithmetic (45_float.md R200 to R209), computed exactly on integers.

Every finite binary32 datum is a sign and a whole number of units of 2^-149, the least subnormal. Sums are then exact
integer sums, and products and quotients exact fractions; `roundUnits` rounds such a fraction to binary32 once, to
nearest, ties to even (R201, decision D9, log entry 10). -/

namespace Sys2Proof.Machine

/-- The datum of a binary32 pattern (45_float.md R200). -/
inductive Datum where
  | nan
  | inf (neg : Bool)
  /-- `units * 2^-149`, negated when `neg`; a zero keeps its sign. -/
  | finite (neg : Bool) (units : Nat)
deriving DecidableEq, Repr

/-- Bit 31. -/
def signBit (v : Word) : Bool := v.getLsbD 31

/-- Bits 30:23, the biased exponent. -/
def exponentField (v : Word) : Nat := (v.extractLsb' 23 8).toNat

/-- Bits 22:0, the fraction. -/
def fractionField (v : Word) : Nat := (v.extractLsb' 0 23).toNat

/-- `F32(v)` (45_float.md R200). A subnormal is its fraction in units; a normal number of biased exponent `e` is
`2^23 + fraction`, shifted left `e - 1`. -/
def datum (v : Word) : Datum :=
  if exponentField v = 255 then
    if fractionField v = 0 then .inf (signBit v) else .nan
  else if exponentField v = 0 then .finite (signBit v) (fractionField v)
  else .finite (signBit v) ((8388608 + fractionField v) * 2 ^ (exponentField v - 1))

/-- The pattern is a NaN: exponent 255 with non-zero fraction (45_float.md R200). -/
def isNaN (v : Word) : Bool := exponentField v == 255 && fractionField v != 0

/-- The whole number nearest to `n / d`, ties to even, for `d > 0`. -/
def roundHalfEven (n d : Nat) : Nat :=
  let q := n / d
  let r := n % d
  if 2 * r < d then q else if d < 2 * r then q + 1 else q + q % 2

/-- The magnitude pattern (bit 31 clear) of an infinity. -/
def infMagnitude : Nat := 0x7F800000

/-- How far a magnitude of `q` whole units stands above the 24 bits of a significand. -/
def scaleOf (q : Nat) : Nat := Nat.log2 q - 23

/-- The magnitude pattern nearest to `num / den` units of 2^-149, ties to even, `den > 0`: gradual underflow, and
overflow to infinity (45_float.md R201). The fraction is rounded to a whole multiple `q` of `2^k` units, where `k` makes
`q` fit in 24 bits; the pattern is then `k * 2^23 + q`, whose carry into the exponent field is the right one when `q`
has rounded up to `2^24` (from the greatest exponent, that carry is the infinity). At 2^128 and above it is the
infinity at once. -/
def roundUnits (num den : Nat) : Nat :=
  if 2 ^ 149 * 2 ^ 128 * den ≤ num then infMagnitude
  else
    let k := scaleOf (num / den)
    k * 8388608 + roundHalfEven num (den * 2 ^ k)

/-- A pattern from its sign and its magnitude pattern. -/
def pack (neg : Bool) (magnitude : Nat) : Word :=
  BitVec.ofNat 32 ((if neg then 2147483648 else 0) + magnitude)

/-- A finite datum as a signed number of units. -/
def signedUnits (neg : Bool) (units : Nat) : Int := if neg then -(units : Int) else (units : Int)

/-- `round_RNE(F32(a) + F32(b))`, none for a NaN result (45_float.md R204, R201). An exact zero sum is -0.0 when both
operands are negative and +0.0 otherwise. -/
def addData : Datum → Datum → Option Word
  | .nan, _ => none
  | .inf _, .nan => none
  | .finite _ _, .nan => none
  | .inf n, .inf m => if n = m then some (pack n infMagnitude) else none
  | .inf n, .finite _ _ => some (pack n infMagnitude)
  | .finite _ _, .inf m => some (pack m infMagnitude)
  | .finite n a, .finite m b =>
    let sum := signedUnits n a + signedUnits m b
    if sum = 0 then some (pack (n && m) 0) else some (pack (decide (sum < 0)) (roundUnits sum.natAbs 1))

/-- The datum with its sign changed; a NaN stays a NaN. -/
def negate : Datum → Datum
  | .nan => .nan
  | .inf n => .inf (!n)
  | .finite n a => .finite (!n) a

/-- `round_RNE(F32(a) - F32(b))`, none for a NaN result (45_float.md R205). -/
def subData (a b : Datum) : Option Word := addData a (negate b)

/-- `round_RNE(F32(a) * F32(b))`, none for a NaN result (45_float.md R206): infinity times zero is invalid, the sign is
the exclusive-or of the signs. -/
def mulData : Datum → Datum → Option Word
  | .nan, _ => none
  | .inf _, .nan => none
  | .finite _ _, .nan => none
  | .inf n, .inf m => some (pack (n != m) infMagnitude)
  | .inf n, .finite m b => if b = 0 then none else some (pack (n != m) infMagnitude)
  | .finite n a, .inf m => if a = 0 then none else some (pack (n != m) infMagnitude)
  | .finite n a, .finite m b => some (pack (n != m) (roundUnits (a * b) (2 ^ 149)))

/-- `round_RNE(F32(a) / F32(b))`, none for a NaN result (45_float.md R207): `0 / 0` and `inf / inf` are invalid, anything
else over a zero is an infinity, the sign is the exclusive-or of the signs. -/
def divData : Datum → Datum → Option Word
  | .nan, _ => none
  | .inf _, .nan => none
  | .finite _ _, .nan => none
  | .inf _, .inf _ => none
  | .inf n, .finite m _ => some (pack (n != m) infMagnitude)
  | .finite n _, .inf m => some (pack (n != m) 0)
  | .finite n a, .finite m b =>
    if b = 0 then (if a = 0 then none else some (pack (n != m) infMagnitude))
    else some (pack (n != m) (roundUnits (a * 2 ^ 149) b))

/-- FREE VALUE: the pattern of the `k`-th NaN that arithmetic makes, some NaN pattern, no one knows which
(45_float.md R203, decision D10, log entry 3). -/
def nanPattern (k : Nat) : Word :=
  (if Config.nanSign k then 0b1#1 else 0b0#1) ++ 0xFF#8 ++ BitVec.ofNat 23 ((Config.nanFraction k).val + 1)

/-- `f[rd]` after an arithmetic instruction: the rounded result, or the next NaN drawn (45_float.md R203). -/
def writeArith (s : State) (rd : FReg) : Option Word → State
  | some v => writeF s rd v
  | none => countNan (writeF s rd (nanPattern s.nanDraws))

/-- The end of an arithmetic instruction. -/
def completeArith (s : State) (rd : FReg) (r : Option Word) : Result := complete s (writeArith s rd r)

/-! ### Conversions (45_float.md R208, R209) -/

/-- The whole number nearest to `units / 2^149` in magnitude, with the tie rule; `neg` is the sign of the datum, which
only the rule `up` looks at (45_float.md R208, decision D8). -/
def nearestMagnitude (tie : Config.FcvtTie) (neg : Bool) (units : Nat) : Nat :=
  let q := units / 2 ^ 149
  let r := units % 2 ^ 149
  if 2 * r < 2 ^ 149 then q
  else if 2 ^ 149 < 2 * r then q + 1
  else match tie with
    | .even => q + q % 2
    | .away => q + 1
    | .up => if neg then q else q + 1

/-- `rm = 0b001` truncates toward zero, every other value rounds to nearest (45_float.md R202, R208). -/
def toInteger (p : Config.Params) (rm : BitVec 3) (neg : Bool) (units : Nat) : Int :=
  signedUnits neg (if rm = 0b001#3 then units / 2 ^ 149 else nearestMagnitude p.fcvtTie neg units)

/-- `min(max(n, INT32_MIN), INT32_MAX)` (45_float.md R208). -/
def clampInt32 (n : Int) : Int := min (max n (-2147483648)) 2147483647

/-- The result of FCVT.W.S (45_float.md R208): NaN and +inf give INT32_MAX, -inf gives INT32_MIN (90_conflicts.md C5). -/
def floatToInt (p : Config.Params) (rm : BitVec 3) : Datum → Int
  | .nan => 2147483647
  | .inf neg => if neg then -2147483648 else 2147483647
  | .finite neg units => clampInt32 (toInteger p rm neg units)

/-- The result of FCVT.S.W: `round_RNE(n)`; zero gives +0.0 (45_float.md R209). -/
def intToFloat (n : Int) : Word := pack (decide (n < 0)) (roundUnits (n.natAbs * 2 ^ 149) 1)

end Sys2Proof.Machine
end

