-- ==== Sys2Proof/Machine/Flags.lean ====
section
/-! DEFINITION. Comparison results. The core has no flags of any kind (10_state.md R24): a comparison writes 0 or 1 to an
integer register or decides a branch, and nothing else. -/

namespace Sys2Proof.Machine

/-- A comparison result as a register value (10_state.md R24). -/
def truth (b : Bool) : Word := if b then 1#32 else 0#32

/-- Signed less-than of patterns, `s(a) < s(b)` (40_integer_alu.md R119, 44_branches.md R193). -/
def lessSigned (a b : Word) : Bool := a.slt b

/-- Unsigned less-than of patterns, `u(a) < u(b)` (40_integer_alu.md R120, 44_branches.md R195). -/
def lessUnsigned (a b : Word) : Bool := a.ult b

/-- `F32(a) = F32(b)`: by value, so +0.0 equals -0.0; a NaN equals nothing (45_float.md R210, decision D39). -/
def floatEq : Datum → Datum → Bool
  | .nan, _ => false
  | .inf _, .nan => false
  | .finite _ _, .nan => false
  | .inf n, .inf m => n == m
  | .inf _, .finite _ _ => false
  | .finite _ _, .inf _ => false
  | .finite n a, .finite m b => decide (signedUnits n a = signedUnits m b)

/-- `F32(a) < F32(b)`: false when either is a NaN (45_float.md R211). -/
def floatLt : Datum → Datum → Bool
  | .nan, _ => false
  | .inf _, .nan => false
  | .finite _ _, .nan => false
  | .inf n, .inf m => n && !m
  | .inf n, .finite _ _ => n
  | .finite _ _, .inf m => !m
  | .finite n a, .finite m b => decide (signedUnits n a < signedUnits m b)

/-- `F32(a) <= F32(b)`: false when either is a NaN (45_float.md R212). -/
def floatLe (a b : Datum) : Bool := floatLt a b || floatEq a b

end Sys2Proof.Machine
end

