-- ==== Sys2Proof/Machine/Branches.lean ====
section
/-! DEFINITION. Conditional branches (44_branches.md R190 to R196). -/

namespace Sys2Proof.Machine

/-- A branch on the predicate `taken`: the target `pc + imm` when it holds, `pc + 4` otherwise (44_branches.md R190). -/
def branchIf (s : State) (taken : Bool) (off : BitVec 13) : Result :=
  if taken then completeAt s s (branchTarget s off) else complete s s

/-- BEQ (44_branches.md R191). -/
def execBeq (rs1 rs2 : XReg) (off : BitVec 13) (s : State) : Result :=
  branchIf s (readX s rs1 == readX s rs2) off

/-- BNE (44_branches.md R192). -/
def execBne (rs1 rs2 : XReg) (off : BitVec 13) (s : State) : Result :=
  branchIf s (readX s rs1 != readX s rs2) off

/-- BLT, signed (44_branches.md R193). -/
def execBlt (rs1 rs2 : XReg) (off : BitVec 13) (s : State) : Result :=
  branchIf s (lessSigned (readX s rs1) (readX s rs2)) off

/-- BGE, signed (44_branches.md R194). -/
def execBge (rs1 rs2 : XReg) (off : BitVec 13) (s : State) : Result :=
  branchIf s (!lessSigned (readX s rs1) (readX s rs2)) off

/-- BLTU, unsigned (44_branches.md R195). -/
def execBltu (rs1 rs2 : XReg) (off : BitVec 13) (s : State) : Result :=
  branchIf s (lessUnsigned (readX s rs1) (readX s rs2)) off

/-- BGEU, unsigned (44_branches.md R196). -/
def execBgeu (rs1 rs2 : XReg) (off : BitVec 13) (s : State) : Result :=
  branchIf s (!lessUnsigned (readX s rs1) (readX s rs2)) off

end Sys2Proof.Machine
end

