-- ==== Sys2Proof/Machine/FloatInstr.lean ====
section
/-! DEFINITION. The eleven float instructions (45_float.md R204 to R214). None raises anything and none writes a flag (R215);
`rm` matters to FCVT.W.S alone (R202). -/

namespace Sys2Proof.Machine

/-- FADD.S; `rm` is ignored (45_float.md R204, R202). -/
def execFaddS (rd rs1 rs2 : FReg) (_rm : BitVec 3) (s : State) : Result :=
  completeArith s rd (addData (datum (readF s rs1)) (datum (readF s rs2)))

/-- FSUB.S; `rm` is ignored (45_float.md R205, R202). -/
def execFsubS (rd rs1 rs2 : FReg) (_rm : BitVec 3) (s : State) : Result :=
  completeArith s rd (subData (datum (readF s rs1)) (datum (readF s rs2)))

/-- FMUL.S; `rm` is ignored (45_float.md R206, R202). -/
def execFmulS (rd rs1 rs2 : FReg) (_rm : BitVec 3) (s : State) : Result :=
  completeArith s rd (mulData (datum (readF s rs1)) (datum (readF s rs2)))

/-- FDIV.S; `rm` is ignored (45_float.md R207, R202). -/
def execFdivS (rd rs1 rs2 : FReg) (_rm : BitVec 3) (s : State) : Result :=
  completeArith s rd (divData (datum (readF s rs1)) (datum (readF s rs2)))

/-- FCVT.W.S, float to signed integer (45_float.md R208). -/
def execFcvtWS (rd : XReg) (rs1 : FReg) (rm : BitVec 3) (s : State) : Result :=
  completeX s rd (wrap32 (floatToInt s.params rm (datum (readF s rs1))))

/-- FCVT.S.W, signed integer to float; `rm` is ignored (45_float.md R209, R202). -/
def execFcvtSW (rd : FReg) (rs1 : XReg) (_rm : BitVec 3) (s : State) : Result :=
  completeF s rd (intToFloat (signed (readX s rs1)))

/-- FEQ.S (45_float.md R210). -/
def execFeqS (rd : XReg) (rs1 rs2 : FReg) (s : State) : Result :=
  completeX s rd (truth (floatEq (datum (readF s rs1)) (datum (readF s rs2))))

/-- FLT.S (45_float.md R211). -/
def execFltS (rd : XReg) (rs1 rs2 : FReg) (s : State) : Result :=
  completeX s rd (truth (floatLt (datum (readF s rs1)) (datum (readF s rs2))))

/-- FLE.S (45_float.md R212). -/
def execFleS (rd : XReg) (rs1 rs2 : FReg) (s : State) : Result :=
  completeX s rd (truth (floatLe (datum (readF s rs1)) (datum (readF s rs2))))

/-- FMV.X.W: the pattern, bit for bit (45_float.md R213). -/
def execFmvXW (rd : XReg) (rs1 : FReg) (s : State) : Result :=
  completeX s rd (readF s rs1)

/-- FMV.W.X: the pattern, bit for bit (45_float.md R214). -/
def execFmvWX (rd : FReg) (rs1 : XReg) (s : State) : Result :=
  completeF s rd (readX s rs1)

end Sys2Proof.Machine
end

