-- ==== Sys2Proof/Machine/IntAlu.lean ====
section
/-! DEFINITION. Integer arithmetic, logic, shifts and comparisons (40_integer_alu.md R110 to R129). Each writes `x[rd]`,
advances the pc and does nothing else; sums and differences wrap modulo 2^32. -/

namespace Sys2Proof.Machine

/-- ADD (40_integer_alu.md R111). -/
def execAdd (rd rs1 rs2 : XReg) (s : State) : Result :=
  completeX s rd (readX s rs1 + readX s rs2)

/-- SUB (40_integer_alu.md R112). -/
def execSub (rd rs1 rs2 : XReg) (s : State) : Result :=
  completeX s rd (readX s rs1 - readX s rs2)

/-- AND (40_integer_alu.md R113). -/
def execAnd (rd rs1 rs2 : XReg) (s : State) : Result :=
  completeX s rd (readX s rs1 &&& readX s rs2)

/-- OR (40_integer_alu.md R114). -/
def execOr (rd rs1 rs2 : XReg) (s : State) : Result :=
  completeX s rd (readX s rs1 ||| readX s rs2)

/-- XOR (40_integer_alu.md R115). -/
def execXor (rd rs1 rs2 : XReg) (s : State) : Result :=
  completeX s rd (readX s rs1 ^^^ readX s rs2)

/-- SLL, by the low five bits of rs2 (40_integer_alu.md R116). -/
def execSll (rd rs1 rs2 : XReg) (s : State) : Result :=
  completeX s rd (readX s rs1 <<< shiftAmount (readX s rs2))

/-- SRL, by the low five bits of rs2 (40_integer_alu.md R117). -/
def execSrl (rd rs1 rs2 : XReg) (s : State) : Result :=
  completeX s rd (readX s rs1 >>> shiftAmount (readX s rs2))

/-- SRA, by the low five bits of rs2 (40_integer_alu.md R118). -/
def execSra (rd rs1 rs2 : XReg) (s : State) : Result :=
  completeX s rd ((readX s rs1).sshiftRight (shiftAmount (readX s rs2)))

/-- SLT (40_integer_alu.md R119). -/
def execSlt (rd rs1 rs2 : XReg) (s : State) : Result :=
  completeX s rd (truth (lessSigned (readX s rs1) (readX s rs2)))

/-- SLTU (40_integer_alu.md R120). -/
def execSltu (rd rs1 rs2 : XReg) (s : State) : Result :=
  completeX s rd (truth (lessUnsigned (readX s rs1) (readX s rs2)))

/-- ADDI (40_integer_alu.md R121). -/
def execAddi (rd rs1 : XReg) (imm : BitVec 12) (s : State) : Result :=
  completeX s rd (readX s rs1 + immWord imm)

/-- ANDI (40_integer_alu.md R122). -/
def execAndi (rd rs1 : XReg) (imm : BitVec 12) (s : State) : Result :=
  completeX s rd (readX s rs1 &&& immWord imm)

/-- ORI (40_integer_alu.md R123). -/
def execOri (rd rs1 : XReg) (imm : BitVec 12) (s : State) : Result :=
  completeX s rd (readX s rs1 ||| immWord imm)

/-- XORI (40_integer_alu.md R124). -/
def execXori (rd rs1 : XReg) (imm : BitVec 12) (s : State) : Result :=
  completeX s rd (readX s rs1 ^^^ immWord imm)

/-- SLTI (40_integer_alu.md R128). -/
def execSlti (rd rs1 : XReg) (imm : BitVec 12) (s : State) : Result :=
  completeX s rd (truth (lessSigned (readX s rs1) (immWord imm)))

/-- SLTIU: the sign-extended immediate, compared unsigned (40_integer_alu.md R129). -/
def execSltiu (rd rs1 : XReg) (imm : BitVec 12) (s : State) : Result :=
  completeX s rd (truth (lessUnsigned (readX s rs1) (immWord imm)))

/-- SLLI (40_integer_alu.md R125). -/
def execSlli (rd rs1 : XReg) (shamt : BitVec 5) (s : State) : Result :=
  completeX s rd (readX s rs1 <<< shamt.toNat)

/-- SRLI (40_integer_alu.md R126). -/
def execSrli (rd rs1 : XReg) (shamt : BitVec 5) (s : State) : Result :=
  completeX s rd (readX s rs1 >>> shamt.toNat)

/-- SRAI (40_integer_alu.md R127). -/
def execSrai (rd rs1 : XReg) (shamt : BitVec 5) (s : State) : Result :=
  completeX s rd ((readX s rs1).sshiftRight shamt.toNat)

end Sys2Proof.Machine
end

