-- ==== Sys2Proof/Machine/Jumps.lean ====
section
/-! DEFINITION. Upper immediates and jumps (43_upper_and_jumps.md R180 to R184). A target is checked neither for alignment nor
for being mapped. -/

namespace Sys2Proof.Machine

/-- A jump: the link `pc + 4` goes to `x[rd]` and the pc to the target. Both are computed from the state before the
instruction (43_upper_and_jumps.md R183, R184, decision D31); either sum can overflow when WRAP is false (log entry 6). -/
def completeJump (s : State) (rd : XReg) (target : Except Fault Word) : Result :=
  match pcPlus4 s with
  | .error e => raise s e
  | .ok link => completeAt s (writeX s rd link) target

/-- LUI (43_upper_and_jumps.md R181). -/
def execLui (rd : XReg) (imm : Word) (s : State) : Result :=
  completeX s rd imm

/-- AUIPC: the address of the AUIPC itself plus the immediate, modulo 2^32 (43_upper_and_jumps.md R182). -/
def execAuipc (rd : XReg) (imm : Word) (s : State) : Result :=
  completeX s rd (s.pc + imm)

/-- JAL (43_upper_and_jumps.md R183). -/
def execJal (rd : XReg) (off : BitVec 21) (s : State) : Result :=
  completeJump s rd (jalTarget s off)

/-- JALR: bit 0 of the target is forced to 0 (43_upper_and_jumps.md R184). -/
def execJalr (rd rs1 : XReg) (imm : BitVec 12) (s : State) : Result :=
  completeJump s rd (jalrTarget s rs1 imm)

end Sys2Proof.Machine
end

