-- ==== Sys2Proof/Machine/LoadStore.lean ====
section
/-! DEFINITION. Loads and stores (42_load_store.md R160 to R169). No alignment is checked; a load of an unmapped byte is fatal
also when `rd` is 0; a store maps what it writes and cannot fail but through WRAP = false. -/

namespace Sys2Proof.Machine

/-- The unsigned value of an `n`-byte load, or the fault it raises (42_load_store.md R160, R169). -/
def loadValue (s : State) (rs1 : XReg) (imm : BitVec 12) (n : Nat) : Except Fault Nat :=
  match effectiveAddress s rs1 imm with
  | .error e => .error e
  | .ok ea => memRead s.params s.mem ea n

/-- The end of a load whose value is extended by `ext`. -/
def completeLoad (s : State) (rd : XReg) (ext : Nat → Word) : Except Fault Nat → Result
  | .ok v => completeX s rd (ext v)
  | .error e => raise s e

/-- Sign-extension of an 8-bit value to a register (42_load_store.md R161). -/
def sext8 (v : Nat) : Word := (BitVec.ofNat 8 v).signExtend 32

/-- Sign-extension of a 16-bit value to a register (42_load_store.md R162). -/
def sext16 (v : Nat) : Word := (BitVec.ofNat 16 v).signExtend 32

/-- An unsigned value of at most 32 bits as a register (42_load_store.md R163 to R165). -/
def zext (v : Nat) : Word := BitVec.ofNat 32 v

/-- The memory after a store of the low `n` bytes of `x[rs2]` (42_load_store.md R160, R166 to R168). -/
def storedMemory (s : State) (rs1 rs2 : XReg) (imm : BitVec 12) (n : Nat) : Except Fault Memory :=
  match effectiveAddress s rs1 imm with
  | .error e => .error e
  | .ok ea => memWrite s.params s.mem ea n (readX s rs2)

/-- The end of a store. -/
def completeStore (s : State) : Except Fault Memory → Result
  | .ok m => complete s (setMem s m)
  | .error e => raise s e

/-- LB (42_load_store.md R161). -/
def execLb (rd rs1 : XReg) (imm : BitVec 12) (s : State) : Result :=
  completeLoad s rd sext8 (loadValue s rs1 imm 1)

/-- LH (42_load_store.md R162). -/
def execLh (rd rs1 : XReg) (imm : BitVec 12) (s : State) : Result :=
  completeLoad s rd sext16 (loadValue s rs1 imm 2)

/-- LW (42_load_store.md R163). -/
def execLw (rd rs1 : XReg) (imm : BitVec 12) (s : State) : Result :=
  completeLoad s rd zext (loadValue s rs1 imm 4)

/-- LBU (42_load_store.md R164). -/
def execLbu (rd rs1 : XReg) (imm : BitVec 12) (s : State) : Result :=
  completeLoad s rd zext (loadValue s rs1 imm 1)

/-- LHU (42_load_store.md R165). -/
def execLhu (rd rs1 : XReg) (imm : BitVec 12) (s : State) : Result :=
  completeLoad s rd zext (loadValue s rs1 imm 2)

/-- SB (42_load_store.md R166). -/
def execSb (rs1 rs2 : XReg) (imm : BitVec 12) (s : State) : Result :=
  completeStore s (storedMemory s rs1 rs2 imm 1)

/-- SH (42_load_store.md R167). -/
def execSh (rs1 rs2 : XReg) (imm : BitVec 12) (s : State) : Result :=
  completeStore s (storedMemory s rs1 rs2 imm 2)

/-- SW (42_load_store.md R168). -/
def execSw (rs1 rs2 : XReg) (imm : BitVec 12) (s : State) : Result :=
  completeStore s (storedMemory s rs1 rs2 imm 4)

end Sys2Proof.Machine
end

