-- ==== Sys2Proof/Machine/MulDiv.lean ====
section
/-! DEFINITION. Multiply, divide and remainder (41_muldiv.md R140 to R149). None raises anything: division by zero and signed
overflow have defined results. -/

namespace Sys2Proof.Machine

/-- The low 32 bits of a product (41_muldiv.md R141). -/
def mulLow (a b : Word) : Word := a * b

/-- Bits 63:32 of the product of two numbers already extended to 64 bits (41_muldiv.md R142 to R144). -/
def mulHigh (a b : BitVec 64) : Word := (a * b).extractLsb' 32 32

/-- Signed quotient, toward zero; by zero all ones; INT32_MIN / -1 is INT32_MIN (41_muldiv.md R145). -/
def divSigned (a b : Word) : Word := if b = 0#32 then 0xFFFFFFFF#32 else a.sdiv b

/-- Unsigned quotient; by zero all ones (41_muldiv.md R146). -/
def divUnsigned (a b : Word) : Word := if b = 0#32 then 0xFFFFFFFF#32 else a / b

/-- Signed remainder, with the sign of the dividend; by zero the dividend; INT32_MIN rem -1 is 0 (41_muldiv.md R147). -/
def remSigned (a b : Word) : Word := if b = 0#32 then a else a.srem b

/-- Unsigned remainder; by zero the dividend (41_muldiv.md R148). -/
def remUnsigned (a b : Word) : Word := if b = 0#32 then a else a % b

/-- MUL (41_muldiv.md R141). -/
def execMul (rd rs1 rs2 : XReg) (s : State) : Result :=
  completeX s rd (mulLow (readX s rs1) (readX s rs2))

/-- MULH, signed by signed (41_muldiv.md R142). -/
def execMulh (rd rs1 rs2 : XReg) (s : State) : Result :=
  completeX s rd (mulHigh ((readX s rs1).signExtend 64) ((readX s rs2).signExtend 64))

/-- MULHSU, rs1 signed by rs2 unsigned (decision D30) (41_muldiv.md R143). -/
def execMulhsu (rd rs1 rs2 : XReg) (s : State) : Result :=
  completeX s rd (mulHigh ((readX s rs1).signExtend 64) ((readX s rs2).setWidth 64))

/-- MULHU, unsigned by unsigned (41_muldiv.md R144). -/
def execMulhu (rd rs1 rs2 : XReg) (s : State) : Result :=
  completeX s rd (mulHigh ((readX s rs1).setWidth 64) ((readX s rs2).setWidth 64))

/-- DIV (41_muldiv.md R145). -/
def execDiv (rd rs1 rs2 : XReg) (s : State) : Result :=
  completeX s rd (divSigned (readX s rs1) (readX s rs2))

/-- DIVU (41_muldiv.md R146). -/
def execDivu (rd rs1 rs2 : XReg) (s : State) : Result :=
  completeX s rd (divUnsigned (readX s rs1) (readX s rs2))

/-- REM (41_muldiv.md R147). -/
def execRem (rd rs1 rs2 : XReg) (s : State) : Result :=
  completeX s rd (remSigned (readX s rs1) (readX s rs2))

/-- REMU (41_muldiv.md R148). -/
def execRemu (rd rs1 rs2 : XReg) (s : State) : Result :=
  completeX s rd (remUnsigned (readX s rs1) (readX s rs2))

end Sys2Proof.Machine
end

