-- ==== Sys2Proof/Machine/System.lean ====
section
/-! DEFINITION. ECALL with its syscalls, and EBREAK (46_system.md R230 to R237). ECALL is serviced inside the step and the step
then completes like any other; EBREAK takes the fatal fault Breakpoint. -/

namespace Sys2Proof.Machine

/-- The bytes of print_string from address `a`, at most `cap` of them, up to a zero byte that is not part of them; an
unmapped byte before that is fatal. The pointer steps modulo 2^32 (46_system.md R234, log entry 6). -/
def stringBytes (m : Memory) : Nat → Word → Except Fault (List Byte)
  | 0, _ => .ok []
  | cap + 1, a =>
    match readByte m a with
    | none => .error (.unmappedMemory a)
    | some b =>
      if b = 0#8 then .ok []
      else match stringBytes m cap (a + 1#32) with
        | .ok bs => .ok (b :: bs)
        | .error e => .error e

/-- The bytes of write from address `a`: at most `n`, up to the first unmapped byte (46_system.md R235). -/
def readableBytes (m : Memory) : Nat → Word → List Byte
  | 0, _ => []
  | n + 1, a =>
    match readByte m a with
    | none => []
    | some b => b :: readableBytes m n (a + 1#32)

/-- Syscall 93, exit (46_system.md R232): the step completes (decision D35). -/
def sysExit (s : State) : Result := complete s (haltExit s)

/-- Syscall 1, print_int (46_system.md R233). -/
def sysPrintInt (s : State) : Result :=
  complete s (emit s (.printInt (signed (readX s regA0))))

/-- Syscall 4, print_string (46_system.md R234). -/
def sysPrintString (s : State) : Result :=
  match stringBytes s.mem s.params.printStringCap (readX s regA0) with
  | .ok bs => complete s (emit s (.printString bs))
  | .error e => raise s e

/-- Syscall 64, write (46_system.md R235): a length that is not positive reads nothing (decision D26). -/
def sysWrite (s : State) : Result :=
  if readX s regA0 = 1#32 then
    let bs := readableBytes s.mem (signed (readX s regA2)).toNat (readX s regA1)
    complete s (writeX (emit s (.write bs)) regA0 (wrap32 bs.length))
  else complete s (writeX s regA0 0xFFFFFFFF#32)

/-- Any other id (46_system.md R236): the step completes (decision D34). -/
def sysUnsupported (s : State) : Result :=
  complete s (emit s (.unsupported (readX s regA7)))

/-- ECALL: the id is all 32 bits of `a7` (46_system.md R230, R231). -/
def execEcall (s : State) : Result :=
  if readX s regA7 = 93#32 then sysExit s
  else if readX s regA7 = 1#32 then sysPrintInt s
  else if readX s regA7 = 4#32 then sysPrintString s
  else if readX s regA7 = 64#32 then sysWrite s
  else sysUnsupported s

/-- EBREAK: takes the fatal fault Breakpoint (46_system.md R237, 60_exceptions.md R257). -/
def execEbreak (s : State) : Result := raise s .breakpoint

end Sys2Proof.Machine
end

