-- ==== Sys2Proof/Machine/Step.lean ====
section
/-! DEFINITION. `step()` (60_exceptions.md R261 to R263), and placing an instruction where the next step fetches it. -/

namespace Sys2Proof.Machine

/-- One fetch-decode-execute cycle (60_exceptions.md R261). A halted core is left unchanged (R263, decision D21); a fault
of the fetch or the decoder is taken like any other (R252). `exec` carries steps 3 to 5. -/
def step (s : State) : Host.Outcome State Fault Refusal :=
  if s.status.isHalted then .next s
  else
    match fetchDecode s with
    | .error e => raise s e
    | .ok i => exec i s

/-- `s` with the instruction whose bits are `w` (those at or above `nbits` are 0) stored at the pc, and made idle if it
was halted, so that the next step fetches and runs it (log entry 8). -/
def State.withFetchWord (s : State) (nbits w : Nat) : State :=
  placeAtPc s (BitVec.ofNat 32 (w % 2 ^ nbits))

end Sys2Proof.Machine
end

