-- ==== Sys2Proof/Machine/Encoder.lean ====
section
/-! DEFINITION. The Instruction Encoder unit (00_scope.md R1, 30_encoding.md R58 to R65): range checks, folding and
placement, register names, and the errors it names. It is a function of its inputs; no step of the core uses it. -/

namespace Sys2Proof.Machine

/-- The encoder's errors (30_encoding.md R58, 60_exceptions.md R274). -/
inductive EncodeError where
  | unsupportedOpcode
  | invalidRegister
  | immediateOutOfRange
  | undefinedSymbol
  | syntaxError
deriving DecidableEq, Repr

/-- The signed range check of a `w`-bit immediate (30_encoding.md R59, 90_conflicts.md C1). -/
def fitsSigned (w : Nat) (v : Int) : Bool :=
  decide (-(2 ^ (w - 1) : Int) ≤ v) && decide (v ≤ 2 ^ (w - 1) - 1)

/-- The row fixes the funct3 field (30_encoding.md R63, "row.fixedFunct3 or rm"). -/
def fixesFunct3 (row : OpRow) : Bool := funct3Of row.mask == 0b111#3

/-- The combinational block of R58: the row of a mnemonic, register indices, a resolved immediate and `rm` in; one word
or an error out (30_encoding.md R59, R60, R63, R64). `BitVec.ofInt w v` is the folding `v mod 2^w` (R60). Inputs a format
has no field for are ignored. -/
def encodeBlock (m : Mnemonic) (rd rs1 rs2 : BitVec 5) (v : Int) (rm : BitVec 3) : Except EncodeError Word :=
  let row := m.row
  let opcode := opcodeOf row.value
  let funct3 := funct3Of row.value
  let funct7 := funct7Of row.value
  match row.format with
  | .r => .ok (encR funct7 rs2 rs1 funct3 rd opcode)
  | .rFpCmp => .ok (encR funct7 rs2 rs1 funct3 rd opcode)
  | .rFp => .ok (encR funct7 rs2 rs1 rm rd opcode)
  | .rFpCvt => .ok (encR funct7 (rs2Of row.value) rs1 (if fixesFunct3 row then funct3 else rm) rd opcode)
  | .i =>
    if fitsSigned 12 v then .ok (encI (BitVec.ofInt 12 v) rs1 funct3 rd opcode) else .error .immediateOutOfRange
  | .iShift =>
    if decide (0 ≤ v) && decide (v ≤ 31) then .ok (encR funct7 (BitVec.ofInt 5 v) rs1 funct3 rd opcode)
    else .error .immediateOutOfRange
  | .s =>
    if fitsSigned 12 v then .ok (encS (BitVec.ofInt 12 v) rs2 rs1 funct3 opcode) else .error .immediateOutOfRange
  | .b =>
    if fitsSigned 13 v then .ok (encB (BitVec.ofInt 13 v) rs2 rs1 funct3 opcode) else .error .immediateOutOfRange
  | .u =>
    if fitsSigned 20 v then .ok (encU (BitVec.ofInt 20 v) rd opcode) else .error .immediateOutOfRange
  | .j =>
    if fitsSigned 21 v then .ok (encJ (BitVec.ofInt 21 v) rd opcode) else .error .immediateOutOfRange
  | .fixed => .ok row.value

/-! ### Operands -/

/-- An operand after register normalisation (30_encoding.md R86) and the load/store rewriting (R88). -/
inductive Operand where
  | xreg (i : XReg)
  | freg (i : FReg)
  /-- An integer literal (R90). -/
  | literal (v : Int)
  /-- Any other token: a constant, a label, or a word that is no register name. -/
  | symbol (name : String)
deriving DecidableEq, Repr

/-- The decimal register numbers, in order. -/
def indexNames : List String :=
  ["0", "1", "2", "3", "4", "5", "6", "7", "8", "9", "10", "11", "12", "13", "14", "15"] ++
  ["16", "17", "18", "19", "20", "21", "22", "23", "24", "25", "26", "27", "28", "29", "30", "31"]

/-- The ABI names in index order (10_state.md R12). -/
def abiNames : List String :=
  ["zero", "ra", "sp", "gp", "tp", "t0", "t1", "t2", "s0", "s1", "a0", "a1", "a2", "a3", "a4", "a5"] ++
  ["a6", "a7", "s2", "s3", "s4", "s5", "s6", "s7", "s8", "s9", "s10", "s11", "t3", "t4", "t5", "t6"]

/-- Where a name stands in a list of names. -/
def indexIn (names : List String) (name : List Char) : Option (BitVec 5) :=
  (names.findIdx? (fun n => n.toList == name)).map (BitVec.ofNat 5)

/-- An integer register name in lower case, without `$`: `x<n>`, an ABI name, or `fp` for `s0` (10_state.md R12). -/
def integerName (name : List Char) : Option XReg :=
  match name with
  | 'x' :: digits => indexIn indexNames digits
  | _ => if name == ['f', 'p'] then some 8#5 else indexIn abiNames name

/-- The register a name stands for, in any case: integer names bare or after one `$`, float names `f0` to `f31` bare
only (10_state.md R12, R15, decision D15). -/
def registerNamed (name : String) : Option Operand :=
  match name.toList.map Char.toLower with
  | '$' :: rest => (integerName rest).map Operand.xreg
  | 'f' :: digits =>
    match indexIn indexNames digits with
    | some i => some (.freg i)
    | none => (integerName ('f' :: digits)).map Operand.xreg
  | cs => (integerName cs).map Operand.xreg

/-- The constant and symbol tables the encoder reads through `resolve`; a label may have no address yet
(30_encoding.md R58, R89). -/
structure Tables where
  constants : List (String × Int)
  labels : List (String × Option Word)
deriving DecidableEq, Repr

/-- `resolve` (30_encoding.md R89): a literal or constant as it is; a label's address, relative to the instruction's own
in formats B and J only. A register where a value is required is a malformed operand (log entry 11). -/
def resolve (t : Tables) (relative : Bool) (curAddr : Word) : Operand → Except EncodeError Int
  | .literal v => .ok v
  | .symbol name =>
    match t.constants.lookup name with
    | some v => .ok v
    | none =>
      match t.labels.lookup name with
      | some (some a) =>
        .ok (if relative then (a.toNat : Int) - (curAddr.toNat : Int) else (a.toNat : Int))
      | some none => .error .undefinedSymbol
      | none => .error .undefinedSymbol
  | .xreg _ => .error .syntaxError
  | .freg _ => .error .syntaxError

/-- The register file of an operand. -/
inductive RegFile where
  | x
  | f
deriving DecidableEq, Repr

/-- A register operand of the required file; anything else is InvalidRegister (30_encoding.md R61, decision D15). -/
def registerOperand (file : RegFile) : Operand → Except EncodeError (BitVec 5)
  | .xreg i => if file = .x then .ok i else .error .invalidRegister
  | .freg i => if file = .f then .ok i else .error .invalidRegister
  | .literal _ => .error .invalidRegister
  | .symbol _ => .error .invalidRegister

/-- The files of rd and of the sources (30_encoding.md R74); the integer file outside OP-FP. -/
def destFile : Mnemonic → RegFile
  | .faddS | .fsubS | .fmulS | .fdivS | .fcvtSW | .fmvWX => .f
  | _ => .x

def sourceFile : Mnemonic → RegFile
  | .faddS | .fsubS | .fmulS | .fdivS | .fcvtWS | .fmvXW | .feqS | .fltS | .fleS => .f
  | _ => .x

/-- The mnemonic of a name, in any case (30_encoding.md R62, decision D16). -/
def mnemonicNamed (name : String) : Option Mnemonic :=
  Mnemonic.all.find? (fun m => m.row.name.toList == name.toList.map Char.toUpper)

/-- Three register operands, left to right. -/
def encode3 (m : Mnemonic) (a b c : Operand) : Except EncodeError Word :=
  match registerOperand (destFile m) a with
  | .error e => .error e
  | .ok rd =>
    match registerOperand (sourceFile m) b with
    | .error e => .error e
    | .ok rs1 =>
      match registerOperand (sourceFile m) c with
      | .error e => .error e
      | .ok rs2 => encodeBlock m rd rs1 rs2 0 0b000#3

/-- Two register operands, left to right, and the rounding mode. -/
def encode2 (m : Mnemonic) (a b : Operand) (rm : BitVec 3) : Except EncodeError Word :=
  match registerOperand (destFile m) a with
  | .error e => .error e
  | .ok rd =>
    match registerOperand (sourceFile m) b with
    | .error e => .error e
    | .ok rs1 => encodeBlock m rd rs1 0#5 0 rm

/-- Two integer registers and an immediate, left to right; `place` says which fields the registers fill. -/
def encodeImm2 (m : Mnemonic) (t : Tables) (relative : Bool) (curAddr : Word) (a b c : Operand)
    (place : BitVec 5 → BitVec 5 → Int → Except EncodeError Word) : Except EncodeError Word :=
  match registerOperand (destFile m) a with
  | .error e => .error e
  | .ok r =>
    match registerOperand (sourceFile m) b with
    | .error e => .error e
    | .ok q =>
      match resolve t relative curAddr c with
      | .error e => .error e
      | .ok v => place r q v

/-- One integer register and an immediate, left to right. -/
def encodeImm1 (m : Mnemonic) (t : Tables) (relative : Bool) (curAddr : Word) (a b : Operand) :
    Except EncodeError Word :=
  match registerOperand (destFile m) a with
  | .error e => .error e
  | .ok rd =>
    match resolve t relative curAddr b with
    | .error e => .error e
    | .ok v => encodeBlock m rd 0#5 0#5 v 0b000#3

/-- The operand roles of each format (30_encoding.md R63, R87). The encoder emits `rm = 000`; a third operand `rtz` on
FCVT.W.S emits `001` (R65). A wrong operand count is SyntaxError. DEDUCED, the model's choice where R63, R65 and D41
leave it open: the third operand of FCVT.W.S is looked at together with the operand count, so one that is not `rtz` is
SyntaxError before the registers are looked at, also when one of them is invalid (log entry 11). -/
def encodeOperands (t : Tables) (curAddr : Word) (m : Mnemonic) (ops : List Operand) : Except EncodeError Word :=
  match m.row.format, ops with
  | .r, [a, b, c] => encode3 m a b c
  | .rFpCmp, [a, b, c] => encode3 m a b c
  | .rFp, [a, b, c] => encode3 m a b c
  | .rFpCvt, [a, b] => encode2 m a b 0b000#3
  | .rFpCvt, [a, b, c] =>
    if m = .fcvtWS ∧ c = .symbol "rtz" then encode2 m a b 0b001#3 else .error .syntaxError
  | .i, [a, b, c] => encodeImm2 m t false curAddr a b c (fun rd rs1 v => encodeBlock m rd rs1 0#5 v 0b000#3)
  | .iShift, [a, b, c] => encodeImm2 m t false curAddr a b c (fun rd rs1 v => encodeBlock m rd rs1 0#5 v 0b000#3)
  | .s, [a, b, c] => encodeImm2 m t false curAddr a b c (fun rs2 rs1 v => encodeBlock m 0#5 rs1 rs2 v 0b000#3)
  | .b, [a, b, c] => encodeImm2 m t true curAddr a b c (fun rs1 rs2 v => encodeBlock m 0#5 rs1 rs2 v 0b000#3)
  | .u, [a, b] => encodeImm1 m t false curAddr a b
  | .j, [a, b] => encodeImm1 m t true curAddr a b
  | .fixed, [] => encodeBlock m 0#5 0#5 0#5 0 0b000#3
  | _, _ => .error .syntaxError

/-- `encode(mn, ops, curAddr)` (30_encoding.md R58, R62, R63): the first error in the order mnemonic, operand count,
operands left to right (decision D41). -/
def encodeLine (t : Tables) (curAddr : Word) (name : String) (ops : List Operand) : Except EncodeError Word :=
  match mnemonicNamed name with
  | none => .error .unsupportedOpcode
  | some m => encodeOperands t curAddr m ops

end Sys2Proof.Machine
end

