-- ==== Sys2Proof/Machine/HostOps.lean ====
section
/-! DEFINITION. The host's operations beside `step()`: `reset`, `loadProgram`, `stop` and `run`
(60_exceptions.md R259 to R266, 70_reset_and_hazards.md R280 to R282). -/

namespace Sys2Proof.Machine

/-- One entry of `Program.instructions`: for presentation only, never read by the core (10_state.md R26). -/
structure ProgramLine where
  address : Word
  binaryWord : Word
  sourceText : String
deriving DecidableEq, Repr

/-- The `Program` artifact (10_state.md R26): bytes at addresses, later entries over earlier ones, and the entry. -/
structure Program where
  memory : List (Word × Byte)
  instructions : List ProgramLine
  entryAddress : Word
deriving DecidableEq, Repr

/-- `reset()` (70_reset_and_hazards.md R280): every register 0, memory empty, Idle; `out` belongs to the environment and
is not touched; the model's own fields are kept (log entry 12). -/
def hostReset (s : State) : State :=
  { State.reset with out := s.out, params := s.params, nanDraws := s.nanDraws }

/-- The memory image copied byte for byte (20_memory.md R47, 70_reset_and_hazards.md R281). -/
def copyImage (image : List (Word × Byte)) (m : Memory) : Memory :=
  image.foldl (fun m c => writeByte m c.1 c.2) m

/-- `loadProgram(p)` (70_reset_and_hazards.md R281): reset, copy the image, set the pc to the entry address. -/
def loadProgram (p : Program) (s : State) : State :=
  { hostReset s with mem := copyImage p.memory (hostReset s).mem, pc := p.entryAddress }

/-- `stop()` (60_exceptions.md R265): Running becomes Idle; no effect on a halted core (R263). -/
def hostStop (s : State) : State :=
  if s.status.isHalted then s
  else { s with running := false, status := .idle }

/-- The beginning of `run()` (60_exceptions.md R264): no effect on a halted core (R263). -/
def runStart (s : State) : State :=
  if s.status.isHalted then s else { s with running := true, status := .running }

/-- How an iteration of `run()`'s loop, or the whole loop, leaves the core. -/
inductive RunEnd where
  /-- The run has ended: exit, `stop()` or a fatal fault, which `status` records. -/
  | returned (s : State)
  /-- The ceiling was reached: the advisory warning MaxStepsExceeded (60_exceptions.md R259). -/
  | maxStepsExceeded (s : State)
  /-- A step was taken and the loop yields to the host. -/
  | yielded (s : State)
deriving DecidableEq, Repr

/-- The state each leaves. -/
def RunEnd.state : RunEnd → State
  | .returned s => s
  | .maxStepsExceeded s => s
  | .yielded s => s

/-- One iteration of `run(maxSteps)` (60_exceptions.md R264): look at `running`, then at the ceiling, compared with the
cumulative count (R259, decision D22), then step. -/
def runIteration (maxSteps : Nat := Config.maxSteps) (s : State) : Host.Outcome RunEnd Fault Refusal :=
  if s.running = false then .next (.returned s)
  else if maxSteps ≤ s.instructionCount then
    .next (.maxStepsExceeded { s with running := false, status := .idle })
  else
    match step s with
    | .next t => .next (.yielded t)
    | .fault r => .fault r
    | .refused r => .refused r

/-- `n` iterations, or fewer when the run ends. -/
def runLoop (maxSteps : Nat) : Nat → State → Host.Outcome RunEnd Fault Refusal
  | 0, s => .next (.yielded s)
  | n + 1, s =>
    match runIteration maxSteps s with
    | .next (.yielded t) => runLoop maxSteps n t
    | .next (.returned t) => .next (.returned t)
    | .next (.maxStepsExceeded t) => .next (.maxStepsExceeded t)
    | .fault r => .fault r
    | .refused r => .refused r

/-- `run(maxSteps = MAX_STEPS)` with no `stop()` in between (60_exceptions.md R264, log entry 13); `run (s := s)` is
`run()`, whose ceiling is MAX_STEPS (00_scope.md R5). Each iteration but the last completes a step, so
`maxSteps - instructionCount + 1` iterations are enough. -/
def run (maxSteps : Nat := Config.maxSteps) (s : State) : Host.Outcome RunEnd Fault Refusal :=
  if s.status.isHalted then .next (.returned s)
  else runLoop maxSteps (maxSteps - s.instructionCount + 1) (runStart s)

/-- The calls a host can make between steps (60_exceptions.md R260). `run` is a whole run with no call in between;
`runStart` and `runNext` are the start of a run and one iteration of it, between which the host may make any other call
(log entry 13). A run that is given no ceiling has MAX_STEPS (R264). -/
inductive HostCall where
  | reset
  | loadProgram (p : Program)
  | step
  | run (maxSteps : Nat := Config.maxSteps)
  | runStart
  | runNext (maxSteps : Nat := Config.maxSteps)
  | stop
deriving DecidableEq, Repr

/-- The effect of a host call on the core (60_exceptions.md R260). -/
def hostCall (c : HostCall) (s : State) : Host.Outcome State Fault Refusal :=
  match c with
  | .reset => .next (hostReset s)
  | .loadProgram p => .next (Machine.loadProgram p s)
  | .step => Machine.step s
  | .run maxSteps =>
    match Machine.run maxSteps s with
    | .next e => .next e.state
    | .fault r => .fault r
    | .refused r => .refused r
  | .runStart => .next (Machine.runStart s)
  | .runNext maxSteps =>
    match runIteration maxSteps s with
    | .next e => .next e.state
    | .fault r => .fault r
    | .refused r => .refused r
  | .stop => .next (hostStop s)

end Sys2Proof.Machine
end

