-- ==== Sys2Proof/Safety.lean ====
section
/-! DEFINITION. The words claims are made in: the invariant of the machine, what a faulting step leaves, what an
instruction changes and what it leaves alone, and the arithmetic of the spec's pseudocode. -/

namespace Sys2Proof.Safety

open Sys2Proof.Machine

/-! ### Runs -/

/-- What every reachable state satisfies: memory is in canonical form, register 0 holds 0 (10_state.md R11), and the
core is running exactly while its status says so (10_state.md R23). -/
structure CoreInv (s : State) : Prop where
  memory : s.mem.wf
  zero : s.x[0] = 0#32
  running : s.running = true ↔ s.status = .running

/-- `Halted(..)` (10_state.md R23). -/
abbrev Halted (s : State) : Prop := s.status = .haltedExit ∨ ∃ e, s.status = .haltedError e

/-- No fatal fault has ended the run. -/
abbrev NoFault (s : State) : Prop := ∀ e, s.status ≠ .haltedError e

/-- `t` is reached from `s` by steps that answer a next state. -/
inductive Reaches (s : State) : State → Prop where
  | refl : Reaches s s
  | step {t u : State} : Reaches s t → Machine.step t = .next u → Reaches s u

/-- A safe run: no state it reaches has taken a fatal fault. -/
def SafeFrom (s : State) : Prop := ∀ t, Reaches s t → NoFault t

/-- What a fatal fault `e` leaves of the state `s` (60_exceptions.md R252). -/
structure Faulted (s t : State) (e : Fault) : Prop where
  running : t.running = false
  status : t.status = .haltedError e
  x : t.x = s.x
  f : t.f = s.f
  pc : t.pc = s.pc
  mem : t.mem = s.mem
  count : t.instructionCount = s.instructionCount
  out : t.out = s.out
  params : t.params = s.params
  nanDraws : t.nanDraws = s.nanDraws

/-! ### Address sums -/

/-- The address sum `n` does not raise AddressOverflow: WRAP is true or `n` is in range (60_exceptions.md R258). -/
abbrev SumFits (p : Config.Params) (n : Int) : Prop := p.wrap = true ∨ (0 ≤ n ∧ n < 4294967296)

/-- `pc + 4` does not raise AddressOverflow. -/
abbrev PcFits (s : State) : Prop := SumFits s.params (unsigned s.pc + 4)

/-- The last byte of an `n`-byte access at `ea` does not raise AddressOverflow. -/
abbrev AccessFits (p : Config.Params) (ea : Word) (n : Nat) : Prop := SumFits p (unsigned ea + (n : Int) - 1)

/-- `wrap32(pc + 4)`. -/
def nextPc (s : State) : Word := wrap32 (unsigned s.pc + 4)

/-- `wrap32(u(x[rs1]) + imm)` (42_load_store.md R160). -/
def ea (s : State) (rs1 : XReg) (imm : BitVec 12) : Word := wrap32 (unsigned (readX s rs1) + imm.toInt)

/-! ### What an instruction changes, and its frame -/

/-- One completed step that writes no control state and no output and draws `draws` NaN patterns. -/
structure Quiet (s t : State) (draws : Nat) : Prop where
  count : t.instructionCount = s.instructionCount + 1
  running : t.running = s.running
  status : t.status = s.status
  out : t.out = s.out
  params : t.params = s.params
  nanDraws : t.nanDraws = s.nanDraws + draws

/-- The step writes `v` to `x[rd]` (nothing, when `rd` is 0), sets the pc, and changes nothing else. -/
structure OnlyX (s t : State) (rd : XReg) (v pc : Word) : Prop where
  x : ∀ r, readX t r = if r = rd ∧ rd ≠ 0#5 then v else readX s r
  f : ∀ r, readF t r = readF s r
  mem : ∀ a, readByte t.mem a = readByte s.mem a
  pc : t.pc = pc
  quiet : Quiet s t 0

/-- The step sets the pc and changes nothing else. -/
structure OnlyPc (s t : State) (pc : Word) : Prop where
  x : ∀ r, readX t r = readX s r
  f : ∀ r, readF t r = readF s r
  mem : ∀ a, readByte t.mem a = readByte s.mem a
  pc : t.pc = pc
  quiet : Quiet s t 0

/-- The step writes `v` to `f[rd]`, takes `pc + 4`, draws `draws` NaN patterns, and changes nothing else. -/
structure OnlyF (s t : State) (rd : FReg) (v : Word) (draws : Nat) : Prop where
  x : ∀ r, readX t r = readX s r
  f : ∀ r, readF t r = if r = rd then v else readF s r
  mem : ∀ a, readByte t.mem a = readByte s.mem a
  pc : t.pc = nextPc s
  quiet : Quiet s t draws

/-- Byte `k` of a register value: `(v >> 8*k) mod 256` (20_memory.md R35). -/
def byteOf (v : Word) (k : Nat) : Byte := BitVec.ofNat 8 (v.toNat / 2 ^ (8 * k))

/-- The step stores the low `n` bytes of `v` at `addr`, `addr + 1`, … modulo 2^32, takes `pc + 4`, and changes nothing
else: every byte outside those `n` reads as before. -/
structure OnlyMem (s t : State) (addr : Word) (n : Nat) (v : Word) : Prop where
  x : ∀ r, readX t r = readX s r
  f : ∀ r, readF t r = readF s r
  mem : ∀ a, readByte t.mem a =
    if (a - addr).toNat < n then some (byteOf v (a - addr).toNat) else readByte s.mem a
  pc : t.pc = nextPc s
  quiet : Quiet s t 0

/-! ### The decoder on the words of a row -/

/-- A row with three registers (formats R and R-FP-CMP; for I-shift the third is the shift amount). -/
def Decodes3 (mask value : Word) (c : BitVec 5 → BitVec 5 → BitVec 5 → Instr) : Prop :=
  ∀ w, w &&& mask = value → decodeWord w = .ok (c (rdOf w) (rs1Of w) (rs2Of w))

/-- A row of format I. -/
def DecodesI (mask value : Word) (c : BitVec 5 → BitVec 5 → BitVec 12 → Instr) : Prop :=
  ∀ w, w &&& mask = value → decodeWord w = .ok (c (rdOf w) (rs1Of w) (immI w))

/-- A row of format S. -/
def DecodesS (mask value : Word) (c : BitVec 5 → BitVec 5 → BitVec 12 → Instr) : Prop :=
  ∀ w, w &&& mask = value → decodeWord w = .ok (c (rs1Of w) (rs2Of w) (immS w))

/-- A row of format B. -/
def DecodesB (mask value : Word) (c : BitVec 5 → BitVec 5 → BitVec 13 → Instr) : Prop :=
  ∀ w, w &&& mask = value → decodeWord w = .ok (c (rs1Of w) (rs2Of w) (immB w))

/-- A row of format R-FP, whose funct3 field is `rm`. -/
def DecodesFp (mask value : Word) (c : BitVec 5 → BitVec 5 → BitVec 5 → BitVec 3 → Instr) : Prop :=
  ∀ w, w &&& mask = value → decodeWord w = .ok (c (rdOf w) (rs1Of w) (rs2Of w) (funct3Of w))

/-- A row of format R-FP-CVT with an `rm` field. -/
def DecodesCvt (mask value : Word) (c : BitVec 5 → BitVec 5 → BitVec 3 → Instr) : Prop :=
  ∀ w, w &&& mask = value → decodeWord w = .ok (c (rdOf w) (rs1Of w) (funct3Of w))

/-- A row of format R-FP-CVT without one. -/
def DecodesMv (mask value : Word) (c : BitVec 5 → BitVec 5 → Instr) : Prop :=
  ∀ w, w &&& mask = value → decodeWord w = .ok (c (rdOf w) (rs1Of w))

/-! ### Result shapes -/

/-- `x[rd] <- g(x[rs1], x[rs2])` and nothing else, in every state where `pc + 4` fits. -/
def Computes3 (c : XReg → XReg → XReg → Instr) (g : Word → Word → Word) : Prop :=
  ∀ s rd rs1 rs2, PcFits s →
    ∃ t, exec (c rd rs1 rs2) s = .next t ∧ OnlyX s t rd (g (readX s rs1) (readX s rs2)) (nextPc s)

/-- `x[rd] <- g(x[rs1], imm)` with the 12-bit immediate as a signed integer, and nothing else. -/
def ComputesI (c : XReg → XReg → BitVec 12 → Instr) (g : Word → Int → Word) : Prop :=
  ∀ s rd rs1 imm, PcFits s →
    ∃ t, exec (c rd rs1 imm) s = .next t ∧ OnlyX s t rd (g (readX s rs1) imm.toInt) (nextPc s)

/-- `x[rd] <- g(x[rs1], shamt)`, and nothing else. -/
def ComputesShift (c : XReg → XReg → BitVec 5 → Instr) (g : Word → Nat → Word) : Prop :=
  ∀ s rd rs1 shamt, PcFits s →
    ∃ t, exec (c rd rs1 shamt) s = .next t ∧ OnlyX s t rd (g (readX s rs1) shamt.toNat) (nextPc s)

/-- The value of `n` bytes, lowest first (20_memory.md R34). -/
def leValue (n : Nat) (b : Nat → Byte) : Nat := ∑ i ∈ Finset.range n, (b i).toNat * 2 ^ (8 * i)

/-- `sext_N(v)` (00_scope.md R8). -/
def sextInt (n : Nat) (v : Nat) : Int := if v < 2 ^ (n - 1) then (v : Int) else (v : Int) - 2 ^ n

/-- A load of `n` mapped bytes writes their extended value to `x[rd]` and changes nothing else. -/
def Loads (c : XReg → XReg → BitVec 12 → Instr) (n : Nat) (ext : Nat → Int) : Prop :=
  ∀ s rd rs1 imm (b : Nat → Byte), PcFits s → SumFits s.params (unsigned (readX s rs1) + imm.toInt) →
    AccessFits s.params (ea s rs1 imm) n →
    (∀ i, i < n → readByte s.mem (wrap32 (unsigned (ea s rs1 imm) + i)) = some (b i)) →
    ∃ t, exec (c rd rs1 imm) s = .next t ∧ OnlyX s t rd (wrap32 (ext (leValue n b))) (nextPc s)

/-- A load of `n` bytes whose byte `j` is the first unmapped one takes UnmappedMemory at that byte's address, and `x[rd]`
is not written. -/
def LoadFaults (c : XReg → XReg → BitVec 12 → Instr) (n : Nat) : Prop :=
  ∀ s rd rs1 imm j, j < n → SumFits s.params (unsigned (readX s rs1) + imm.toInt) →
    AccessFits s.params (ea s rs1 imm) (j + 1) →
    (∀ i, i < j → readByte s.mem (wrap32 (unsigned (ea s rs1 imm) + i)) ≠ none) →
    readByte s.mem (wrap32 (unsigned (ea s rs1 imm) + j)) = none →
    ∃ t, exec (c rd rs1 imm) s = .next t ∧
      Faulted s t (.unmappedMemory (wrap32 (unsigned (ea s rs1 imm) + j)))

/-- A store of the low `n` bytes of `x[rs2]` at `x[rs1] + imm`. -/
def Stores (c : XReg → XReg → BitVec 12 → Instr) (n : Nat) : Prop :=
  ∀ s rs1 rs2 imm, PcFits s → SumFits s.params (unsigned (readX s rs1) + imm.toInt) →
    AccessFits s.params (ea s rs1 imm) n →
    ∃ t, exec (c rs1 rs2 imm) s = .next t ∧ OnlyMem s t (ea s rs1 imm) n (readX s rs2)

/-- A branch on `P`: the target when `P` holds, `pc + 4` when it does not, and nothing else. -/
def Branches (c : XReg → XReg → BitVec 13 → Instr) (P : Word → Word → Prop) : Prop :=
  ∀ s rs1 rs2 off,
    (P (readX s rs1) (readX s rs2) → SumFits s.params (unsigned s.pc + off.toInt) →
      ∃ t, exec (c rs1 rs2 off) s = .next t ∧ OnlyPc s t (wrap32 (unsigned s.pc + off.toInt))) ∧
    (¬ P (readX s rs1) (readX s rs2) → PcFits s →
      ∃ t, exec (c rs1 rs2 off) s = .next t ∧ OnlyPc s t (nextPc s))

/-! ### Binary32 values -/

/-- The magnitude pattern of a float pattern: bit 31 cleared. -/
def magnitude (v : Word) : Nat := v.toNat % 2147483648

/-- The value of a finite magnitude pattern in units of 2^-149 (45_float.md R200). -/
def unitsOf (m : Nat) : Nat :=
  if m / 8388608 = 0 then m % 8388608 else (8388608 + m % 8388608) * 2 ^ (m / 8388608 - 1)

/-- `m` is the magnitude pattern of `n / d` units of 2^-149 rounded to binary32, to nearest with ties to even: the infinity
from half-way above the greatest finite value on, else a finite pattern than which none is nearer, and an even one when
another is as near (45_float.md R201). -/
def RoundsTo (n d m : Nat) : Prop :=
  if (2 ^ 25 - 1) * 2 ^ 252 * d ≤ n then m = 0x7F800000
  else m < 0x7F800000 ∧
    ∀ k, k < 0x7F800000 → k ≠ m →
      |((unitsOf m * d : Nat) : Int) - n| ≤ |((unitsOf k * d : Nat) : Int) - n| ∧
      (|((unitsOf m * d : Nat) : Int) - n| = |((unitsOf k * d : Nat) : Int) - n| → m % 2 = 0)

/-- A finite pattern (45_float.md R200). -/
abbrev IsFinite (v : Word) : Prop := magnitude v < 0x7F800000

/-- An infinity. -/
abbrev IsInfinite (v : Word) : Prop := magnitude v = 0x7F800000

/-- A NaN: exponent 255 with non-zero fraction. -/
abbrev IsNaN (v : Word) : Prop := 0x7F800000 < magnitude v

/-- The sign bit. -/
def sign (v : Word) : Bool := v.getLsbD 31

/-- The value of a finite pattern, in units of 2^-149. -/
def value (v : Word) : Int := if sign v then -(unitsOf (magnitude v) : Int) else (unitsOf (magnitude v) : Int)

/-- The infinity of a sign. -/
def infinity (neg : Bool) : Word := if neg then 0xFF800000#32 else 0x7F800000#32

/-- The zero of a sign. -/
def zero (neg : Bool) : Word := if neg then 0x80000000#32 else 0x00000000#32

/-- The order of the data that are not NaN, as integers: units of 2^-149, an infinity beyond every finite value. -/
def rank (v : Word) : Option Int :=
  if IsFinite v then some (value v)
  else if IsInfinite v then some (if sign v then -(2 ^ 149 * 2 ^ 128) else 2 ^ 149 * 2 ^ 128)
  else none

/-- An R-FP instruction on operands that satisfy `P` writes a result that satisfies `Q` to `f[rd]`, draws `draws` NaN
patterns, and changes nothing else, whatever `rm` is. -/
def Arithmetic (c : FReg → FReg → FReg → BitVec 3 → Instr) (P : Word → Word → Prop)
    (Q : Word → Word → Word → Prop) (draws : Nat) : Prop :=
  ∀ s rd rs1 rs2 rm, PcFits s → P (readF s rs1) (readF s rs2) →
    ∃ t v, exec (c rd rs1 rs2 rm) s = .next t ∧ OnlyF s t rd v draws ∧ Q (readF s rs1) (readF s rs2) v

/-- The result of an exact non-zero value `n / d`, negative when `neg`: that sign, and the magnitude rounded. -/
def Rounded (neg : Bool) (n d : Nat) (v : Word) : Prop := sign v = neg ∧ RoundsTo n d (magnitude v)

/-- A float comparison writes 1 when both operands have a rank and `R` holds of the ranks, else 0. -/
def Compares (c : XReg → FReg → FReg → Instr) (R : Int → Int → Bool) : Prop :=
  ∀ s rd rs1 rs2, PcFits s →
    ∃ t, exec (c rd rs1 rs2) s = .next t ∧
      OnlyX s t rd
        (match rank (readF s rs1), rank (readF s rs2) with
          | some a, some b => if R a b then 1#32 else 0#32
          | _, _ => 0#32)
        (nextPc s)

/-! ### The environment -/

/-- An ECALL serviced inside its step: `a0` reads `a0` afterwards, the events are appended to the stream, the pc takes
`pc + 4`, and nothing else changes. -/
structure Serviced (s t : State) (a0 : Word) (events : List OutEvent) : Prop where
  x : ∀ r, readX t r = if r = 10#5 then a0 else readX s r
  f : ∀ r, readF t r = readF s r
  mem : ∀ a, readByte t.mem a = readByte s.mem a
  pc : t.pc = nextPc s
  count : t.instructionCount = s.instructionCount + 1
  running : t.running = s.running
  status : t.status = s.status
  out : t.out = s.out ++ events
  params : t.params = s.params
  nanDraws : t.nanDraws = s.nanDraws

/-- `bs` are the bytes mapped at `a`, `a + 1`, … modulo 2^32. -/
def BytesAt (m : Memory) (a : Word) (bs : List Byte) : Prop :=
  ∀ i (h : i < bs.length), readByte m (wrap32 (unsigned a + i)) = some bs[i]

/-! ### Classes of instructions -/

/-- SB, SH, SW. -/
def isStore : Instr → Bool
  | .sb _ _ _ => true
  | .sh _ _ _ => true
  | .sw _ _ _ => true
  | _ => false

/-- LB, LH, LW, LBU, LHU. -/
def isLoad : Instr → Bool
  | .lb _ _ _ => true
  | .lh _ _ _ => true
  | .lw _ _ _ => true
  | .lbu _ _ _ => true
  | .lhu _ _ _ => true
  | _ => false

/-- JAL, JALR and the branches: the instructions that can signal a target (10_state.md R17). -/
def isControl : Instr → Bool
  | .jal _ _ => true
  | .jalr _ _ _ => true
  | .beq _ _ _ => true
  | .bne _ _ _ => true
  | .blt _ _ _ => true
  | .bge _ _ _ => true
  | .bltu _ _ _ => true
  | .bgeu _ _ _ => true
  | _ => false

/-- FADD.S FSUB.S FMUL.S FDIV.S FCVT.S.W FMV.W.X: the instructions that write the float file (10_state.md R14). -/
def writesFloat : Instr → Bool
  | .faddS _ _ _ _ => true
  | .fsubS _ _ _ _ => true
  | .fmulS _ _ _ _ => true
  | .fdivS _ _ _ _ => true
  | .fcvtSW _ _ _ => true
  | .fmvWX _ _ => true
  | _ => false

/-- FADD.S FSUB.S FMUL.S FDIV.S. -/
def isArithmetic : Instr → Bool
  | .faddS _ _ _ _ => true
  | .fsubS _ _ _ _ => true
  | .fmulS _ _ _ _ => true
  | .fdivS _ _ _ _ => true
  | _ => false

/-- The integer register an instruction names as its destination (10_state.md R13); for ECALL, `a0`, which only the write
syscall writes. Register 0 for the rest, whose writes are ignored. -/
def destX : Instr → XReg
  | .add rd _ _ | .sub rd _ _ | .and rd _ _ | .or rd _ _ | .xor rd _ _ => rd
  | .sll rd _ _ | .srl rd _ _ | .sra rd _ _ | .slt rd _ _ | .sltu rd _ _ => rd
  | .addi rd _ _ | .andi rd _ _ | .ori rd _ _ | .xori rd _ _ | .slti rd _ _ | .sltiu rd _ _ => rd
  | .slli rd _ _ | .srli rd _ _ | .srai rd _ _ => rd
  | .mul rd _ _ | .mulh rd _ _ | .mulhsu rd _ _ | .mulhu rd _ _ => rd
  | .div rd _ _ | .divu rd _ _ | .rem rd _ _ | .remu rd _ _ => rd
  | .lb rd _ _ | .lh rd _ _ | .lw rd _ _ | .lbu rd _ _ | .lhu rd _ _ => rd
  | .lui rd _ | .auipc rd _ | .jal rd _ | .jalr rd _ _ => rd
  | .fcvtWS rd _ _ | .feqS rd _ _ | .fltS rd _ _ | .fleS rd _ _ | .fmvXW rd _ => rd
  | .ecall => 10#5
  | .sb _ _ _ | .sh _ _ _ | .sw _ _ _ => 0#5
  | .beq _ _ _ | .bne _ _ _ | .blt _ _ _ | .bge _ _ _ | .bltu _ _ _ | .bgeu _ _ _ => 0#5
  | .faddS _ _ _ _ | .fsubS _ _ _ _ | .fmulS _ _ _ _ | .fdivS _ _ _ _ | .fcvtSW _ _ _ | .fmvWX _ _ => 0#5
  | .ebreak => 0#5

end Sys2Proof.Safety
end

