-- ==== Sys2Proof/Certificates/Slice0/Obligations.lean ====
section
/-! DEFINITION. The statements for the provers. The words they use (`OnlyX`, `Faulted`, `PcFits`, …) are defined in
Sys2Proof/Safety.lean. A statement that names `PcFits` or `SumFits` holds for both values of the parameter WRAP. -/

open Sys2Proof Sys2Proof.Machine Sys2Proof.Safety

/-! ### Encoding and decoding -/

/-- 30_encoding.md R79: decoding the word of a well-formed instruction gives the instruction back, every operand included. -/
def Obligations.DecodeEncodeRoundTrip : Prop :=
  ∀ i : Instr, i.wellFormed = true → decodeWord (encode i) = .ok i

/-- 30_encoding.md R79: the word of a decoded instruction is the word it was decoded from, and what the decoder answers
is well formed. -/
def Obligations.EncodeDecodeRoundTrip : Prop :=
  ∀ (w : Word) (i : Instr), decodeWord w = .ok i → encode i = w ∧ i.wellFormed = true

/-- 30_encoding.md R68: the decoder answers an instruction of mnemonic `m` exactly when the word matches the row of `m`
in the opcode table, and rejects the word by name when it matches no row. 'Exactly' rests on the rows being disjoint,
which R68 marks as derived from R71 to R75, so this is a derived statement. -/
def Obligations.DecoderFollowsOpcodeTable : Prop :=
  (∀ (w : Word) (m : Mnemonic), m.matchesWord w ↔ ∃ i, decodeWord w = .ok i ∧ i.mnemonic = m) ∧
  (∀ w : Word, (∀ m : Mnemonic, ¬ m.matchesWord w) → decodeWord w = .error (.noRow w))

/-- 30_encoding.md R69: the reconstructed immediates, as sums of the word's bit groups with the sign in bit 31; the U
immediate is the word with its low twelve bits cleared; the R formats have immediate 0. -/
def Obligations.ImmediateReconstruction : Prop :=
  (∀ w : Word,
    (immI w).toInt = ((w.toNat / 2 ^ 20 % 2 ^ 11 : Nat) : Int) - 2 ^ 11 * (w.toNat / 2 ^ 31 : Nat) ∧
    (rs2Of w).toNat = w.toNat / 2 ^ 20 % 2 ^ 5 ∧
    (immS w).toInt =
      ((w.toNat / 2 ^ 7 % 2 ^ 5 + 2 ^ 5 * (w.toNat / 2 ^ 25 % 2 ^ 6) : Nat) : Int) - 2 ^ 11 * (w.toNat / 2 ^ 31 : Nat) ∧
    (immB w).toInt =
      ((2 * (w.toNat / 2 ^ 8 % 2 ^ 4) + 2 ^ 5 * (w.toNat / 2 ^ 25 % 2 ^ 6) + 2 ^ 11 * (w.toNat / 2 ^ 7 % 2) : Nat) : Int) -
        2 ^ 12 * (w.toNat / 2 ^ 31 : Nat) ∧
    (immU w).toNat = w.toNat / 2 ^ 12 * 2 ^ 12 ∧
    (immJ w).toInt =
      ((2 * (w.toNat / 2 ^ 21 % 2 ^ 10) + 2 ^ 11 * (w.toNat / 2 ^ 20 % 2) + 2 ^ 12 * (w.toNat / 2 ^ 12 % 2 ^ 8) : Nat) : Int) -
        2 ^ 20 * (w.toNat / 2 ^ 31 : Nat)) ∧
  (∀ i : Instr, i.mnemonic.row.format ∈ [Format.r, Format.rFp, Format.rFpCvt, Format.rFpCmp] → i.immediate = 0)

/-- A few words of spec/95_test_vectors.md decode to the instructions they stand for. -/
def Obligations.SampleWordsDecode : Prop :=
  decodeWord 0x01FF8FB3#32 = .ok (.add 31#5 31#5 31#5) ∧
  decodeWord 0x80010093#32 = .ok (.addi 1#5 2#5 0x800#12) ∧
  decodeWord 0x01F11093#32 = .ok (.slli 1#5 2#5 31#5) ∧
  decodeWord 0x0220A1B3#32 = .ok (.mulhsu 3#5 1#5 2#5) ∧
  decodeWord 0xFFC12503#32 = .ok (.lw 10#5 2#5 0xFFC#12) ∧
  decodeWord 0x55F02AA3#32 = .ok (.sw 0#5 31#5 0x555#12) ∧
  decodeWord 0xFFFFF2B7#32 = .ok (.lui 5#5 0xFFFFF000#32) ∧
  decodeWord 0xFF1FF06F#32 = .ok (.jal 0#5 0x1FFFF0#21) ∧
  decodeWord 0xFE0294E3#32 = .ok (.bne 5#5 0#5 0x1FE8#13) ∧
  decodeWord 0x0020F1D3#32 = .ok (.faddS 3#5 1#5 2#5 7#3) ∧
  decodeWord 0xA0209253#32 = .ok (.fltS 4#5 1#5 2#5) ∧
  decodeWord 0x00100073#32 = .ok .ebreak ∧
  decodeWord 0xC01081D3#32 = .error (.noRow 0xC01081D3#32)

/-- 30_encoding.md R59, R64: the encoder accepts an immediate exactly when it is in the format's signed range (for a shift
amount, 0 to 31) and otherwise fails with ImmediateOutOfRange. -/
def Obligations.EncoderRangeCheck : Prop :=
  ∀ (m : Mnemonic) (rd rs1 rs2 : BitVec 5) (v : Int) (rm : BitVec 3) (lo hi : Int),
    (m.row.format, lo, hi) ∈
      [(Format.i, -2048, 2047), (Format.s, -2048, 2047), (Format.b, -4096, 4095), (Format.u, -524288, 524287),
       (Format.j, -1048576, 1048575), (Format.iShift, 0, 31)] →
    (lo ≤ v ∧ v ≤ hi → ∃ w, encodeBlock m rd rs1 rs2 v rm = .ok w) ∧
    (¬ (lo ≤ v ∧ v ≤ hi) → encodeBlock m rd rs1 rs2 v rm = .error .immediateOutOfRange)

/-- 30_encoding.md R60, R69, R79: a word the encoder answers decodes to the mnemonic it was asked for, with the register
indices in the fields of their roles and the immediate that was encoded: the value itself for I, S and I-shift, the
value with bit 0 dropped for B and J, the value shifted left twelve for U. -/
def Obligations.EncoderImmediateRoundTrip : Prop :=
  ∀ (m : Mnemonic) (rd rs1 rs2 : BitVec 5) (v : Int) (rm : BitVec 3) (w : Word),
    encodeBlock m rd rs1 rs2 v rm = .ok w →
    ∃ i, decodeWord w = .ok i ∧ i.mnemonic = m ∧
      match m.row.format with
      | .r => rdOf w = rd ∧ rs1Of w = rs1 ∧ rs2Of w = rs2
      | .rFpCmp => rdOf w = rd ∧ rs1Of w = rs1 ∧ rs2Of w = rs2
      | .rFp => rdOf w = rd ∧ rs1Of w = rs1 ∧ rs2Of w = rs2 ∧ funct3Of w = rm
      | .rFpCvt => rdOf w = rd ∧ rs1Of w = rs1
      | .i => rdOf w = rd ∧ rs1Of w = rs1 ∧ i.immediate = v
      | .iShift => rdOf w = rd ∧ rs1Of w = rs1 ∧ i.immediate = v
      | .s => rs1Of w = rs1 ∧ rs2Of w = rs2 ∧ i.immediate = v
      | .b => rs1Of w = rs1 ∧ rs2Of w = rs2 ∧ i.immediate = v - v % 2
      | .u => rdOf w = rd ∧ i.immediate = v * 4096
      | .j => rdOf w = rd ∧ i.immediate = v - v % 2
      | .fixed => w = m.row.value

/-! ### Registers, memory, reset -/

/-- 10_state.md R11: register 0 reads 0 and ignores writes; a write to any other register is what that register reads
afterwards, and every other register reads as before. -/
def Obligations.ZeroRegisterAndRegisterWrites : Prop :=
  ∀ (s : State) (r q : XReg) (v : Word),
    readX s 0#5 = 0#32 ∧ writeX s 0#5 v = s ∧
    readX (writeX s r v) q = if q = r ∧ r ≠ 0#5 then v else readX s q

/-- 10_state.md R27, 70_reset_and_hazards.md R280: what reset leaves of the spec's state; no address is mapped. -/
def Obligations.ResetValues : Prop :=
  (∀ r, readX State.reset r = 0#32) ∧ (∀ r, readF State.reset r = 0#32) ∧ State.reset.pc = 0#32 ∧
  (∀ a, readByte State.reset.mem a = none) ∧ State.reset.running = false ∧
  State.reset.instructionCount = 0 ∧ State.reset.status = .idle

/-- The state after reset satisfies the invariant. -/
def Obligations.ResetSatisfiesInvariant : Prop := CoreInv State.reset

/-- Every step from a state that satisfies the invariant leads to one that does: memory stays canonical, `x[0]` stays 0,
`running` and `status` agree. -/
def Obligations.StepKeepsInvariant : Prop :=
  ∀ s t, CoreInv s → step s = .next t → CoreInv t

/-- Every host call, an iteration of a run included, keeps the invariant too. The model's own choice: `hostCall` has
`run()` whole and also cut into its start and its iterations (log entry 13). -/
def Obligations.HostCallsKeepInvariant : Prop :=
  ∀ (c : HostCall) (s t : State), CoreInv s → hostCall c s = .next t → CoreInv t

/-- 20_memory.md R35, R45: a store of `n` bytes never fails while WRAP is true; after it all `n` bytes are mapped and hold
the bytes of the value, every byte outside them reads as before, and reading the same `n` bytes gives the low `8n` bits
of the value. Any address, no alignment. -/
def Obligations.MemoryReadAfterWrite : Prop :=
  (∀ (p : Config.Params) (m : Memory) (a : Word) (n : Nat) (v : Word), p.wrap = true → ∃ m', memWrite p m a n v = .ok m') ∧
  ∀ (p : Config.Params) (m m' : Memory) (a : Word) (n : Nat) (v : Word),
    n = 1 ∨ n = 2 ∨ n = 4 → memWrite p m a n v = .ok m' →
    memRead p m' a n = .ok (v.toNat % 2 ^ (8 * n)) ∧
    ∀ b : Word, readByte m' b = if (b - a).toNat < n then some (byteOf v (b - a).toNat) else readByte m b

/-- 10_state.md R19: no step unmaps an address. -/
def Obligations.StepsNeverUnmap : Prop :=
  ∀ (s t : State) (a : Word), step s = .next t → readByte s.mem a ≠ none → readByte t.mem a ≠ none

/-! ### Integer instructions -/

/-- 40_integer_alu.md R111 to R120: the ten register-register operations, their rows, results and frame. -/
def Obligations.IntegerRegisterOperations : Prop :=
  (Decodes3 0xFE00707F#32 0x00000033#32 Instr.add ∧
    Computes3 Instr.add fun a b => wrap32 (unsigned a + unsigned b)) ∧
  (Decodes3 0xFE00707F#32 0x40000033#32 Instr.sub ∧
    Computes3 Instr.sub fun a b => wrap32 (unsigned a - unsigned b)) ∧
  (Decodes3 0xFE00707F#32 0x00007033#32 Instr.and ∧ Computes3 Instr.and fun a b => a &&& b) ∧
  (Decodes3 0xFE00707F#32 0x00006033#32 Instr.or ∧ Computes3 Instr.or fun a b => a ||| b) ∧
  (Decodes3 0xFE00707F#32 0x00004033#32 Instr.xor ∧ Computes3 Instr.xor fun a b => a ^^^ b) ∧
  (Decodes3 0xFE00707F#32 0x00001033#32 Instr.sll ∧
    Computes3 Instr.sll fun a b => wrap32 (unsigned a * 2 ^ (b.toNat % 32))) ∧
  (Decodes3 0xFE00707F#32 0x00005033#32 Instr.srl ∧
    Computes3 Instr.srl fun a b => wrap32 (unsigned a / 2 ^ (b.toNat % 32))) ∧
  (Decodes3 0xFE00707F#32 0x40005033#32 Instr.sra ∧
    Computes3 Instr.sra fun a b => wrap32 (signed a / 2 ^ (b.toNat % 32))) ∧
  (Decodes3 0xFE00707F#32 0x00002033#32 Instr.slt ∧
    Computes3 Instr.slt fun a b => if signed a < signed b then 1#32 else 0#32) ∧
  (Decodes3 0xFE00707F#32 0x00003033#32 Instr.sltu ∧
    Computes3 Instr.sltu fun a b => if unsigned a < unsigned b then 1#32 else 0#32)

/-- 40_integer_alu.md R121 to R129: the nine immediate forms; a shift pattern with another funct7 is no instruction. -/
def Obligations.IntegerImmediateOperations : Prop :=
  (DecodesI 0x0000707F#32 0x00000013#32 Instr.addi ∧
    ComputesI Instr.addi fun a imm => wrap32 (unsigned a + imm)) ∧
  (DecodesI 0x0000707F#32 0x00007013#32 Instr.andi ∧ ComputesI Instr.andi fun a imm => a &&& wrap32 imm) ∧
  (DecodesI 0x0000707F#32 0x00006013#32 Instr.ori ∧ ComputesI Instr.ori fun a imm => a ||| wrap32 imm) ∧
  (DecodesI 0x0000707F#32 0x00004013#32 Instr.xori ∧ ComputesI Instr.xori fun a imm => a ^^^ wrap32 imm) ∧
  (Decodes3 0xFE00707F#32 0x00001013#32 Instr.slli ∧
    ComputesShift Instr.slli fun a n => wrap32 (unsigned a * 2 ^ n)) ∧
  (Decodes3 0xFE00707F#32 0x00005013#32 Instr.srli ∧
    ComputesShift Instr.srli fun a n => wrap32 (unsigned a / 2 ^ n)) ∧
  (Decodes3 0xFE00707F#32 0x40005013#32 Instr.srai ∧
    ComputesShift Instr.srai fun a n => wrap32 (signed a / 2 ^ n)) ∧
  (DecodesI 0x0000707F#32 0x00002013#32 Instr.slti ∧
    ComputesI Instr.slti fun a imm => if signed a < imm then 1#32 else 0#32) ∧
  (DecodesI 0x0000707F#32 0x00003013#32 Instr.sltiu ∧
    ComputesI Instr.sltiu fun a imm => if unsigned a < unsigned (wrap32 imm) then 1#32 else 0#32) ∧
  (∀ w : Word, w &&& 0x0000707F#32 = 0x00001013#32 → funct7Of w ≠ 0b0000000#7 → decodeWord w = .error (.noRow w)) ∧
  (∀ w : Word, w &&& 0x0000707F#32 = 0x00005013#32 → funct7Of w ≠ 0b0000000#7 → funct7Of w ≠ 0b0100000#7 →
    decodeWord w = .error (.noRow w))

/-- 41_muldiv.md R141 to R144: the low and the three high halves of the exact product. -/
def Obligations.Multiplication : Prop :=
  (Decodes3 0xFE00707F#32 0x02000033#32 Instr.mul ∧
    Computes3 Instr.mul fun a b => wrap32 (signed a * signed b)) ∧
  (Decodes3 0xFE00707F#32 0x02001033#32 Instr.mulh ∧
    Computes3 Instr.mulh fun a b => wrap32 (signed a * signed b / 2 ^ 32)) ∧
  (Decodes3 0xFE00707F#32 0x02002033#32 Instr.mulhsu ∧
    Computes3 Instr.mulhsu fun a b => wrap32 (signed a * unsigned b / 2 ^ 32)) ∧
  (Decodes3 0xFE00707F#32 0x02003033#32 Instr.mulhu ∧
    Computes3 Instr.mulhu fun a b => wrap32 (unsigned a * unsigned b / 2 ^ 32))

/-- 41_muldiv.md R145 to R148: quotients toward zero and remainders with the sign of the dividend, with the results at a
zero divisor and at INT32_MIN over -1. -/
def Obligations.DivisionAndRemainder : Prop :=
  (Decodes3 0xFE00707F#32 0x02004033#32 Instr.div ∧
    Computes3 Instr.div fun a b =>
      if b = 0#32 then 0xFFFFFFFF#32
      else if a = 0x80000000#32 ∧ b = 0xFFFFFFFF#32 then 0x80000000#32
      else wrap32 (Int.tdiv (signed a) (signed b))) ∧
  (Decodes3 0xFE00707F#32 0x02005033#32 Instr.divu ∧
    Computes3 Instr.divu fun a b =>
      if b = 0#32 then 0xFFFFFFFF#32 else wrap32 (unsigned a / unsigned b)) ∧
  (Decodes3 0xFE00707F#32 0x02006033#32 Instr.rem ∧
    Computes3 Instr.rem fun a b =>
      if b = 0#32 then a
      else if a = 0x80000000#32 ∧ b = 0xFFFFFFFF#32 then 0#32
      else wrap32 (signed a - signed b * Int.tdiv (signed a) (signed b))) ∧
  (Decodes3 0xFE00707F#32 0x02007033#32 Instr.remu ∧
    Computes3 Instr.remu fun a b => if b = 0#32 then a else wrap32 (unsigned a % unsigned b))

/-- 41_muldiv.md R147: `b * DIV(a,b) + REM(a,b) = a` modulo 2^32 in every case, and the same for the unsigned pair,
between the results the two instructions of a pair write. -/
def Obligations.QuotientTimesDivisorPlusRemainder : Prop :=
  ∀ (s td tr ud ur : State) (rd rs1 rs2 : XReg), PcFits s → rd ≠ 0#5 →
    exec (.div rd rs1 rs2) s = .next td → exec (.rem rd rs1 rs2) s = .next tr →
    exec (.divu rd rs1 rs2) s = .next ud → exec (.remu rd rs1 rs2) s = .next ur →
    readX s rs2 * readX td rd + readX tr rd = readX s rs1 ∧
    readX s rs2 * readX ud rd + readX ur rd = readX s rs1

/-! ### Loads and stores -/

/-- 42_load_store.md R161 to R165: the five loads, at any address, aligned or not. -/
def Obligations.LoadsReadMemory : Prop :=
  (DecodesI 0x0000707F#32 0x00000003#32 Instr.lb ∧ Loads Instr.lb 1 (sextInt 8) ∧ LoadFaults Instr.lb 1) ∧
  (DecodesI 0x0000707F#32 0x00001003#32 Instr.lh ∧ Loads Instr.lh 2 (sextInt 16) ∧ LoadFaults Instr.lh 2) ∧
  (DecodesI 0x0000707F#32 0x00002003#32 Instr.lw ∧ Loads Instr.lw 4 (fun v => v) ∧ LoadFaults Instr.lw 4) ∧
  (DecodesI 0x0000707F#32 0x00004003#32 Instr.lbu ∧ Loads Instr.lbu 1 (fun v => v) ∧ LoadFaults Instr.lbu 1) ∧
  (DecodesI 0x0000707F#32 0x00005003#32 Instr.lhu ∧ Loads Instr.lhu 2 (fun v => v) ∧ LoadFaults Instr.lhu 2)

/-- 42_load_store.md R166 to R168: the three stores, at any address, mapped or not, aligned or not. -/
def Obligations.StoresWriteMemory : Prop :=
  (DecodesS 0x0000707F#32 0x00000023#32 Instr.sb ∧ Stores Instr.sb 1) ∧
  (DecodesS 0x0000707F#32 0x00001023#32 Instr.sh ∧ Stores Instr.sh 2) ∧
  (DecodesS 0x0000707F#32 0x00002023#32 Instr.sw ∧ Stores Instr.sw 4)

/-- 42_load_store.md R163: storing a word then loading it from the same address returns the original value. -/
def Obligations.LoadReturnsStoredWord : Prop :=
  ∀ (s t : State) (rs1 rs2 rd : XReg) (imm : BitVec 12), s.params.wrap = true → rd ≠ 0#5 →
    exec (.sw rs1 rs2 imm) s = .next t →
    ∃ u, exec (.lw rd rs1 imm) t = .next u ∧ readX u rd = readX s rs2

/-- 20_memory.md R43: a word stored where the next instruction stands is what the next fetch reads. -/
def Obligations.FetchSeesPrecedingStore : Prop :=
  ∀ (s t : State) (rs1 rs2 : XReg) (imm : BitVec 12), PcFits s →
    SumFits s.params (unsigned (readX s rs1) + imm.toInt) → AccessFits s.params (ea s rs1 imm) 4 →
    ea s rs1 imm = nextPc s → exec (.sw rs1 rs2 imm) s = .next t → fetchWord t = .ok (readX s rs2)

/-! ### Upper immediates, jumps, branches -/

/-- 43_upper_and_jumps.md R181, R182: LUI and AUIPC. -/
def Obligations.UpperImmediates : Prop :=
  (∀ w : Word, w &&& 0x0000007F#32 = 0x00000037#32 → decodeWord w = .ok (.lui (rdOf w) (immU w))) ∧
  (∀ w : Word, w &&& 0x0000007F#32 = 0x00000017#32 → decodeWord w = .ok (.auipc (rdOf w) (immU w))) ∧
  (∀ s rd imm, PcFits s →
    (∃ t, exec (.lui rd imm) s = .next t ∧ OnlyX s t rd imm (nextPc s)) ∧
    (∃ t, exec (.auipc rd imm) s = .next t ∧ OnlyX s t rd (wrap32 (unsigned s.pc + unsigned imm)) (nextPc s)))

/-- 43_upper_and_jumps.md R183, R184: JAL and JALR; the target is computed from the value `x[rs1]` had before, also when
`rd = rs1`, and only its bit 0 is cleared; the JALR pattern with another funct3 is no instruction. -/
def Obligations.JumpsAndLinks : Prop :=
  (∀ w : Word, w &&& 0x0000007F#32 = 0x0000006F#32 → decodeWord w = .ok (.jal (rdOf w) (immJ w))) ∧
  DecodesI 0x0000707F#32 0x00000067#32 Instr.jalr ∧
  (∀ w : Word, w &&& 0x0000007F#32 = 0x00000067#32 → funct3Of w ≠ 0b000#3 → decodeWord w = .error (.noRow w)) ∧
  (∀ s rd off, PcFits s → SumFits s.params (unsigned s.pc + off.toInt) →
    ∃ t, exec (.jal rd off) s = .next t ∧ OnlyX s t rd (nextPc s) (wrap32 (unsigned s.pc + off.toInt))) ∧
  (∀ s rd rs1 imm, PcFits s → SumFits s.params (unsigned (readX s rs1) + imm.toInt) →
    ∃ t, exec (.jalr rd rs1 imm) s = .next t ∧
      OnlyX s t rd (nextPc s) (wrap32 (unsigned (readX s rs1) + imm.toInt) &&& 0xFFFFFFFE#32))

/-- 44_branches.md R190 to R196: the six branches; the two other funct3 values are no instruction. -/
def Obligations.ConditionalBranches : Prop :=
  (DecodesB 0x0000707F#32 0x00000063#32 Instr.beq ∧ Branches Instr.beq fun a b => a = b) ∧
  (DecodesB 0x0000707F#32 0x00001063#32 Instr.bne ∧ Branches Instr.bne fun a b => a ≠ b) ∧
  (DecodesB 0x0000707F#32 0x00004063#32 Instr.blt ∧ Branches Instr.blt fun a b => signed a < signed b) ∧
  (DecodesB 0x0000707F#32 0x00005063#32 Instr.bge ∧ Branches Instr.bge fun a b => signed a ≥ signed b) ∧
  (DecodesB 0x0000707F#32 0x00006063#32 Instr.bltu ∧ Branches Instr.bltu fun a b => unsigned a < unsigned b) ∧
  (DecodesB 0x0000707F#32 0x00007063#32 Instr.bgeu ∧ Branches Instr.bgeu fun a b => unsigned a ≥ unsigned b) ∧
  (∀ w : Word, w &&& 0x0000707F#32 = 0x00002063#32 ∨ w &&& 0x0000707F#32 = 0x00003063#32 →
    decodeWord w = .error (.noRow w))

/-! ### Float instructions -/

/-- 45_float.md R204, R201, R203: FADD.S. Finite operands give the correctly rounded sum, an exact zero sum is -0.0 when
both operands are negative and +0.0 otherwise, an infinity stays, and inf + (-inf) or a NaN operand gives some NaN. -/
def Obligations.FloatAdd : Prop :=
  DecodesFp 0xFE00007F#32 0x00000053#32 Instr.faddS ∧
  Arithmetic Instr.faddS (fun a b => IsFinite a ∧ IsFinite b ∧ value a + value b ≠ 0)
    (fun a b v => Rounded (decide (value a + value b < 0)) (value a + value b).natAbs 1 v) 0 ∧
  Arithmetic Instr.faddS (fun a b => IsFinite a ∧ IsFinite b ∧ value a + value b = 0)
    (fun a b v => v = zero (sign a && sign b)) 0 ∧
  Arithmetic Instr.faddS (fun a b => IsInfinite a ∧ (IsFinite b ∨ (IsInfinite b ∧ sign a = sign b)))
    (fun a _ v => v = infinity (sign a)) 0 ∧
  Arithmetic Instr.faddS (fun a b => IsFinite a ∧ IsInfinite b) (fun _ b v => v = infinity (sign b)) 0 ∧
  Arithmetic Instr.faddS (fun a b => IsNaN a ∨ IsNaN b ∨ (IsInfinite a ∧ IsInfinite b ∧ sign a ≠ sign b))
    (fun _ _ v => IsNaN v) 1

/-- 45_float.md R205, R201, R203: FSUB.S. -/
def Obligations.FloatSubtract : Prop :=
  DecodesFp 0xFE00007F#32 0x08000053#32 Instr.fsubS ∧
  Arithmetic Instr.fsubS (fun a b => IsFinite a ∧ IsFinite b ∧ value a - value b ≠ 0)
    (fun a b v => Rounded (decide (value a - value b < 0)) (value a - value b).natAbs 1 v) 0 ∧
  Arithmetic Instr.fsubS (fun a b => IsFinite a ∧ IsFinite b ∧ value a - value b = 0)
    (fun a b v => v = zero (sign a && !sign b)) 0 ∧
  Arithmetic Instr.fsubS (fun a b => IsInfinite a ∧ (IsFinite b ∨ (IsInfinite b ∧ sign a ≠ sign b)))
    (fun a _ v => v = infinity (sign a)) 0 ∧
  Arithmetic Instr.fsubS (fun a b => IsFinite a ∧ IsInfinite b) (fun _ b v => v = infinity (!sign b)) 0 ∧
  Arithmetic Instr.fsubS (fun a b => IsNaN a ∨ IsNaN b ∨ (IsInfinite a ∧ IsInfinite b ∧ sign a = sign b))
    (fun _ _ v => IsNaN v) 1

/-- 45_float.md R206, R201, R203: FMUL.S. The sign is the exclusive-or of the operand signs. -/
def Obligations.FloatMultiply : Prop :=
  DecodesFp 0xFE00007F#32 0x10000053#32 Instr.fmulS ∧
  Arithmetic Instr.fmulS (fun a b => IsFinite a ∧ IsFinite b)
    (fun a b v => Rounded (sign a != sign b) ((value a).natAbs * (value b).natAbs) (2 ^ 149) v) 0 ∧
  Arithmetic Instr.fmulS
    (fun a b => (IsInfinite a ∧ (IsInfinite b ∨ (IsFinite b ∧ value b ≠ 0))) ∨ (IsInfinite b ∧ IsFinite a ∧ value a ≠ 0))
    (fun a b v => v = infinity (sign a != sign b)) 0 ∧
  Arithmetic Instr.fmulS
    (fun a b => IsNaN a ∨ IsNaN b ∨ (IsInfinite a ∧ IsFinite b ∧ value b = 0) ∨ (IsInfinite b ∧ IsFinite a ∧ value a = 0))
    (fun _ _ v => IsNaN v) 1

/-- 45_float.md R207, R201, R203: FDIV.S. Over a zero, a non-zero dividend gives an infinity whose sign is the
exclusive-or of the two signs; `0 / 0` and `inf / inf` give some NaN; over an infinity a finite dividend gives a zero. -/
def Obligations.FloatDivide : Prop :=
  DecodesFp 0xFE00007F#32 0x18000053#32 Instr.fdivS ∧
  Arithmetic Instr.fdivS (fun a b => IsFinite a ∧ IsFinite b ∧ value b ≠ 0)
    (fun a b v => Rounded (sign a != sign b) ((value a).natAbs * 2 ^ 149) (value b).natAbs v) 0 ∧
  Arithmetic Instr.fdivS
    (fun a b => IsFinite b ∧ (IsInfinite a ∨ (IsFinite a ∧ value a ≠ 0 ∧ value b = 0)))
    (fun a b v => v = infinity (sign a != sign b)) 0 ∧
  Arithmetic Instr.fdivS (fun a b => IsFinite a ∧ IsInfinite b) (fun a b v => v = zero (sign a != sign b)) 0 ∧
  Arithmetic Instr.fdivS
    (fun a b => IsNaN a ∨ IsNaN b ∨ (IsInfinite a ∧ IsInfinite b) ∨
      (IsFinite a ∧ IsFinite b ∧ value a = 0 ∧ value b = 0))
    (fun _ _ v => IsNaN v) 1

/-- 45_float.md R208, R202: FCVT.W.S. A finite datum is truncated toward zero when `rm` is 001, else taken to a nearest
integer, ties by FCVT_TIE, and the integer is clamped to 32 bits; NaN and +inf give INT32_MAX, -inf gives INT32_MIN. -/
def Obligations.FloatToInteger : Prop :=
  DecodesCvt 0xFFF0007F#32 0xC0000053#32 Instr.fcvtWS ∧
  (∀ s rd rs1 rm, PcFits s → IsFinite (readF s rs1) →
    ∃ (t : State) (n : Int),
      exec (.fcvtWS rd rs1 rm) s = .next t ∧
      OnlyX s t rd (wrap32 (min (max n (-2147483648)) 2147483647)) (nextPc s) ∧
      (rm = 0b001#3 → n = Int.tdiv (value (readF s rs1)) (2 ^ 149)) ∧
      (rm ≠ 0b001#3 →
        2 * |n * 2 ^ 149 - value (readF s rs1)| ≤ 2 ^ 149 ∧
        (2 * |n * 2 ^ 149 - value (readF s rs1)| = 2 ^ 149 →
          match s.params.fcvtTie with
          | .even => n % 2 = 0
          | .away => |value (readF s rs1)| < |n * 2 ^ 149|
          | .up => value (readF s rs1) < n * 2 ^ 149))) ∧
  (∀ s rd rs1 rm, PcFits s → (IsNaN (readF s rs1) ∨ (IsInfinite (readF s rs1) ∧ sign (readF s rs1) = false)) →
    ∃ t, exec (.fcvtWS rd rs1 rm) s = .next t ∧ OnlyX s t rd 0x7FFFFFFF#32 (nextPc s)) ∧
  (∀ s rd rs1 rm, PcFits s → IsInfinite (readF s rs1) → sign (readF s rs1) = true →
    ∃ t, exec (.fcvtWS rd rs1 rm) s = .next t ∧ OnlyX s t rd 0x80000000#32 (nextPc s))

/-- 45_float.md R209: FCVT.S.W. The integer is rounded to nearest, ties to even, whatever `rm` says; up to 2^24 in magnitude
it converts exactly; 0 gives +0.0; the result is finite. -/
def Obligations.IntegerToFloat : Prop :=
  DecodesCvt 0xFFF0007F#32 0xD0000053#32 Instr.fcvtSW ∧
  ∀ s rd rs1 rm, PcFits s →
    ∃ t v, exec (.fcvtSW rd rs1 rm) s = .next t ∧ OnlyF s t rd v 0 ∧
      Rounded (decide (signed (readX s rs1) < 0)) ((signed (readX s rs1)).natAbs * 2 ^ 149) 1 v ∧
      IsFinite v ∧
      ((signed (readX s rs1)).natAbs ≤ 2 ^ 24 → value v = signed (readX s rs1) * 2 ^ 149) ∧
      (readX s rs1 = 0#32 → v = 0#32)

/-- 45_float.md R213, R214: the moves copy the pattern, NaN patterns included. -/
def Obligations.FloatMovesCopyPatterns : Prop :=
  DecodesMv 0xFFF0707F#32 0xE0000053#32 Instr.fmvXW ∧ DecodesMv 0xFFF0707F#32 0xF0000053#32 Instr.fmvWX ∧
  (∀ s rd rs1, PcFits s →
    (∃ t, exec (.fmvXW rd rs1) s = .next t ∧ OnlyX s t rd (readF s rs1) (nextPc s)) ∧
    (∃ t, exec (.fmvWX rd rs1) s = .next t ∧ OnlyF s t rd (readX s rs1) 0))

/-- 45_float.md R210 to R212: comparison by value, false with a NaN; +0.0 and -0.0 have the same rank. -/
def Obligations.FloatComparisons : Prop :=
  (Decodes3 0xFE00707F#32 0xA0002053#32 Instr.feqS ∧ Compares Instr.feqS fun a b => decide (a = b)) ∧
  (Decodes3 0xFE00707F#32 0xA0001053#32 Instr.fltS ∧ Compares Instr.fltS fun a b => decide (a < b)) ∧
  (Decodes3 0xFE00707F#32 0xA0000053#32 Instr.fleS ∧ Compares Instr.fleS fun a b => decide (a ≤ b))

/-- 45_float.md R202: `rm` has no effect on the four arithmetic operations and FCVT.S.W, and on FCVT.W.S only whether it is
001; every value of it decodes. -/
def Obligations.RoundingModeField : Prop :=
  (∀ s rd rs1 rs2 rm rm',
    exec (.faddS rd rs1 rs2 rm) s = exec (.faddS rd rs1 rs2 rm') s ∧
    exec (.fsubS rd rs1 rs2 rm) s = exec (.fsubS rd rs1 rs2 rm') s ∧
    exec (.fmulS rd rs1 rs2 rm) s = exec (.fmulS rd rs1 rs2 rm') s ∧
    exec (.fdivS rd rs1 rs2 rm) s = exec (.fdivS rd rs1 rs2 rm') s ∧
    exec (.fcvtSW rd rs1 rm) s = exec (.fcvtSW rd rs1 rm') s) ∧
  (∀ s rd rs1 rm rm', rm ≠ 0b001#3 → rm' ≠ 0b001#3 →
    exec (.fcvtWS rd rs1 rm) s = exec (.fcvtWS rd rs1 rm') s) ∧
  (∀ rd rs1 rs2 rm,
    decodeWord (encode (.faddS rd rs1 rs2 rm)) = .ok (.faddS rd rs1 rs2 rm) ∧
    decodeWord (encode (.fsubS rd rs1 rs2 rm)) = .ok (.fsubS rd rs1 rs2 rm) ∧
    decodeWord (encode (.fmulS rd rs1 rs2 rm)) = .ok (.fmulS rd rs1 rs2 rm) ∧
    decodeWord (encode (.fdivS rd rs1 rs2 rm)) = .ok (.fdivS rd rs1 rs2 rm) ∧
    decodeWord (encode (.fcvtWS rd rs1 rm)) = .ok (.fcvtWS rd rs1 rm) ∧
    decodeWord (encode (.fcvtSW rd rs1 rm)) = .ok (.fcvtSW rd rs1 rm))

/-! ### System instructions -/

/-- 46_system.md R232: ECALL with id 93. The core halts with SyscallExit, no register is written, nothing is emitted, the
step completes, and a further step does nothing. -/
def Obligations.EcallExit : Prop :=
  ∀ s, PcFits s → readX s 17#5 = 93#32 →
    ∃ t, exec .ecall s = .next t ∧ t.running = false ∧ t.status = .haltedExit ∧
      (∀ r, readX t r = readX s r) ∧ (∀ r, readF t r = readF s r) ∧ (∀ a, readByte t.mem a = readByte s.mem a) ∧
      t.pc = nextPc s ∧ t.instructionCount = s.instructionCount + 1 ∧ t.out = s.out ∧ t.params = s.params ∧
      t.nanDraws = s.nanDraws ∧ step t = .next t

/-- 46_system.md R233: ECALL with id 1 emits the signed value of a0 and changes no register, memory or control state. -/
def Obligations.EcallPrintInt : Prop :=
  ∀ s, PcFits s → readX s 17#5 = 1#32 →
    ∃ t, exec .ecall s = .next t ∧ Serviced s t (readX s 10#5) [.printInt (signed (readX s 10#5))]

/-- 46_system.md R234: ECALL with id 4. The bytes up to a zero byte, or PRINT_STRING_CAP of them, are emitted; an unmapped
byte before that is the fatal fault UnmappedMemory and nothing is emitted. One of the two always happens. -/
def Obligations.EcallPrintString : Prop :=
  ∀ s, PcFits s → readX s 17#5 = 4#32 →
    (∃ bs t, BytesAt s.mem (readX s 10#5) bs ∧ 0#8 ∉ bs ∧
      (bs.length = s.params.printStringCap ∨
        (bs.length < s.params.printStringCap ∧
          readByte s.mem (wrap32 (unsigned (readX s 10#5) + bs.length)) = some 0#8)) ∧
      exec .ecall s = .next t ∧ Serviced s t (readX s 10#5) [.printString bs]) ∨
    (∃ bs t, BytesAt s.mem (readX s 10#5) bs ∧ 0#8 ∉ bs ∧ bs.length < s.params.printStringCap ∧
      readByte s.mem (wrap32 (unsigned (readX s 10#5) + bs.length)) = none ∧
      exec .ecall s = .next t ∧
      Faulted s t (.unmappedMemory (wrap32 (unsigned (readX s 10#5) + bs.length))))

/-- 46_system.md R235: ECALL with id 64. To fd 1, the mapped bytes from a1, at most a2 of them and up to the first unmapped
one, are emitted and their count returned in a0; any other fd returns -1 and emits nothing. It never faults. -/
def Obligations.EcallWrite : Prop :=
  (∀ s, PcFits s → readX s 17#5 = 64#32 → readX s 10#5 = 1#32 →
    ∃ bs t, BytesAt s.mem (readX s 11#5) bs ∧ (bs.length : Int) ≤ max 0 (signed (readX s 12#5)) ∧
      ((bs.length : Int) = max 0 (signed (readX s 12#5)) ∨
        readByte s.mem (wrap32 (unsigned (readX s 11#5) + bs.length)) = none) ∧
      exec .ecall s = .next t ∧ Serviced s t (wrap32 bs.length) [.write bs]) ∧
  (∀ s, PcFits s → readX s 17#5 = 64#32 → readX s 10#5 ≠ 1#32 →
    ∃ t, exec .ecall s = .next t ∧ Serviced s t 0xFFFFFFFF#32 [])

/-- 46_system.md R236: ECALL with any other id, compared as 32 bits, emits Unsupported and the step completes. -/
def Obligations.EcallUnsupported : Prop :=
  ∀ s, PcFits s → readX s 17#5 ∉ [93#32, 1#32, 4#32, 64#32] →
    ∃ t, exec .ecall s = .next t ∧ Serviced s t (readX s 10#5) [.unsupported (readX s 17#5)]

/-- 46_system.md R237: EBREAK takes the fatal fault Breakpoint: the pc keeps its address, the count does not move, no register
changes. Both system words decode. -/
def Obligations.EbreakHalts : Prop :=
  decodeWord 0x00100073#32 = .ok .ebreak ∧ decodeWord 0x00000073#32 = .ok .ecall ∧
  ∀ s, ∃ t, exec .ebreak s = .next t ∧ Faulted s t .breakpoint ∧ step t = .next t

/-! ### The step and its faults -/

/-- 60_exceptions.md R261, 20_memory.md R38: when the four bytes at the pc are mapped and their little-endian word decodes
to `i`, a step of a core that is not halted is `exec i`; `exec` itself ends the step. It holds for every
EXTRA_FORMAT_ROWS; that a word which also matches an extra row is still the instruction of the table is the model's
reading (DEDUCED, log entry 7), not R261's or R38's words. -/
def Obligations.StepRunsDecodedInstruction : Prop :=
  ∀ (s : State) (b0 b1 b2 b3 : Byte) (i : Instr), ¬ Halted s → AccessFits s.params s.pc 4 →
    BytesAt s.mem s.pc [b0, b1, b2, b3] → decodeWord (b3 ++ b2 ++ b1 ++ b0) = .ok i → step s = exec i s

/-- 60_exceptions.md R253: the first unmapped byte of the instruction is FetchError with the pc and that address. -/
def Obligations.UnmappedFetchFaults : Prop :=
  ∀ (s : State) (j : Nat), ¬ Halted s → j < 4 → AccessFits s.params s.pc (j + 1) →
    (∀ i, i < j → readByte s.mem (wrap32 (unsigned s.pc + i)) ≠ none) →
    readByte s.mem (wrap32 (unsigned s.pc + j)) = none →
    ∃ t, step s = .next t ∧ Faulted s t (.fetchError s.pc (wrap32 (unsigned s.pc + j)))

/-- 60_exceptions.md R254, R255: a fetched word that matches no row of the opcode table raises DecodeError, or, when it
matches a row of EXTRA_FORMAT_ROWS, UnimplementedInstruction. -/
def Obligations.UnknownWordFaults : Prop :=
  ∀ (s : State) (b0 b1 b2 b3 : Byte), ¬ Halted s → AccessFits s.params s.pc 4 →
    BytesAt s.mem s.pc [b0, b1, b2, b3] →
    (∀ m : Mnemonic, ¬ m.matchesWord (b3 ++ b2 ++ b1 ++ b0)) →
    ((∀ r ∈ s.params.extraFormatRows, (b3 ++ b2 ++ b1 ++ b0) &&& r.mask ≠ r.value) →
      ∃ t, step s = .next t ∧ Faulted s t (.decodeError s.pc (b3 ++ b2 ++ b1 ++ b0))) ∧
    ((∃ r ∈ s.params.extraFormatRows, (b3 ++ b2 ++ b1 ++ b0) &&& r.mask = r.value) →
      ∃ t, step s = .next t ∧ Faulted s t (.unimplementedInstruction (b3 ++ b2 ++ b1 ++ b0)))

/-- 60_exceptions.md R252: a step that ends in a fatal fault changes `running` and `status` and nothing else, and no later
step clears the fault. (That a fault is a next state of the model is the form of log entry 1.) -/
def Obligations.FaultsArePrecise : Prop :=
  ∀ (s t : State) (e : Fault), ¬ Halted s → step s = .next t → t.status = .haltedError e →
    Faulted s t e ∧ step t = .next t

/-- Every step answers a next state, from every state: nothing the core can meet is without a meaning. The model's own
choice of form: a fatal fault is a next state with the core halted, and a halted core steps to itself (log entry 1). -/
def Obligations.EveryStepAnswersNext : Prop := ∀ s, ∃ t, step s = .next t

/-- 10_state.md R21: the count goes up by one in a step that completes and does not move in a step that faults, and there is
no third way for a step to end. -/
def Obligations.CountCountsCompletedSteps : Prop :=
  ∀ s t, ¬ Halted s → step s = .next t →
    (t.instructionCount = s.instructionCount + 1 ∧ NoFault t) ∨
    (t.instructionCount = s.instructionCount ∧ ∃ e, Faulted s t e)

/-- 10_state.md R17, 60_exceptions.md R262: an instruction that is not a jump or a branch takes `pc + 4` or faults. -/
def Obligations.OnlyControlInstructionsSignalTargets : Prop :=
  ∀ (i : Instr) (s t : State), isControl i = false → exec i s = .next t → t.pc = nextPc s ∨ ∃ e, Faulted s t e

/-- 10_state.md R10, R13, R14, R19: which instructions can change what. Memory: the stores. The float file: its six writers.
An integer register: the destination an instruction names. The output: ECALL. The control state: ECALL, or a fault.
NaN patterns are drawn by the four arithmetic operations alone, and nothing writes the parameters. -/
def Obligations.WhoWritesWhat : Prop :=
  ∀ (i : Instr) (s t : State), exec i s = .next t →
    (t.mem ≠ s.mem → isStore i = true) ∧
    (t.f ≠ s.f → writesFloat i = true) ∧
    (∀ r, readX t r ≠ readX s r → r = destX i) ∧
    (t.out ≠ s.out → i = .ecall) ∧
    (t.status ≠ s.status → t.status = .haltedExit ∧ i = .ecall ∨ ∃ e, Faulted s t e) ∧
    (t.nanDraws ≠ s.nanDraws → isArithmetic i = true) ∧
    t.params = s.params

/-- 60_exceptions.md R258: with WRAP true, AddressOverflow is never raised. -/
def Obligations.WrapTrueNeverOverflows : Prop :=
  ∀ s t, s.params.wrap = true → s.status ≠ .haltedError .addressOverflow → step s = .next t →
    t.status ≠ .haltedError .addressOverflow

/-- 60_exceptions.md R258, as log entry 6 reads it: with WRAP false, AddressOverflow is raised when `pc + 4` overflows at
the end of an instruction that is not a jump, a branch, a load, a store or a system instruction; when an effective
address, a taken branch target or a jump target leaves the range; and when a later byte of a store does. -/
def Obligations.WrapFalseRaisesOverflow : Prop :=
  (∀ (i : Instr) (s : State), isControl i = false → isLoad i = false → isStore i = false → i ≠ .ecall → i ≠ .ebreak →
    ¬ PcFits s → ∃ t, exec i s = .next t ∧ Faulted s t .addressOverflow) ∧
  (∀ (s : State) (r1 r2 : XReg) (imm : BitVec 12), ¬ SumFits s.params (unsigned (readX s r1) + imm.toInt) →
    ∀ i ∈ [Instr.lb r2 r1 imm, .lh r2 r1 imm, .lw r2 r1 imm, .lbu r2 r1 imm, .lhu r2 r1 imm,
        .sb r1 r2 imm, .sh r1 r2 imm, .sw r1 r2 imm, .jalr r2 r1 imm],
      ∃ t, exec i s = .next t ∧ Faulted s t .addressOverflow) ∧
  (∀ (s : State) (rd : XReg) (off : BitVec 21), ¬ SumFits s.params (unsigned s.pc + off.toInt) →
    ∃ t, exec (.jal rd off) s = .next t ∧ Faulted s t .addressOverflow) ∧
  (∀ (s : State) (r : XReg) (off : BitVec 13), ¬ SumFits s.params (unsigned s.pc + off.toInt) →
    ∃ t, exec (.beq r r off) s = .next t ∧ Faulted s t .addressOverflow) ∧
  (∀ (s : State) (rs1 rs2 : XReg) (imm : BitVec 12),
    SumFits s.params (unsigned (readX s rs1) + imm.toInt) → ¬ AccessFits s.params (ea s rs1 imm) 4 →
    ∃ t, exec (.sw rs1 rs2 imm) s = .next t ∧ Faulted s t .addressOverflow)

/-- 10_state.md R22, 46_system.md R238: the output stream is only appended to and never read: two states that differ in it
alone step alike and append the same events. -/
def Obligations.OutputNeverReadBack : Prop :=
  ∀ (s : State) (o : List OutEvent), ∃ (t : State) (events : List OutEvent),
    step s = .next t ∧ t.out = s.out ++ events ∧ step { s with out := o } = .next { t with out := o ++ events }

/-! ### Host operations -/

/-- 70_reset_and_hazards.md R280: `reset()` in any state; the stream is not touched. -/
def Obligations.HostResetClearsCore : Prop :=
  ∀ s, (∀ r, readX (hostReset s) r = 0#32) ∧ (∀ r, readF (hostReset s) r = 0#32) ∧ (hostReset s).pc = 0#32 ∧
    (∀ a, readByte (hostReset s).mem a = none) ∧ (hostReset s).running = false ∧
    (hostReset s).instructionCount = 0 ∧ (hostReset s).status = .idle ∧ (hostReset s).out = s.out

/-- 70_reset_and_hazards.md R281: after `loadProgram(p)` memory holds exactly the bytes of `p.memory` (the last entry where
two name one address), the pc is the entry address, and the rest is as after reset. -/
def Obligations.LoadProgramPlacesImage : Prop :=
  ∀ (p : Program) (s : State),
    (∀ a, readByte (loadProgram p s).mem a = (p.memory.reverse.find? (fun c => c.1 == a)).map (·.2)) ∧
    (loadProgram p s).pc = p.entryAddress ∧
    (∀ r, readX (loadProgram p s) r = 0#32) ∧ (∀ r, readF (loadProgram p s) r = 0#32) ∧
    (loadProgram p s).running = false ∧ (loadProgram p s).instructionCount = 0 ∧ (loadProgram p s).status = .idle

/-- 70_reset_and_hazards.md R282 (and log entry 8): after `reset()` alone, the first step raises FetchError(0, 0). -/
def Obligations.ResetAloneFetchFaults : Prop :=
  ∃ t, step State.reset = .next t ∧ Faulted State.reset t (.fetchError 0#32 0#32)

/-- 60_exceptions.md R263, R266: `step()`, `run()` and `stop()` have no effect on a halted core, and of the host's calls
only `reset` and `loadProgram` take a core out of Halted, always to Idle. -/
def Obligations.HaltedUntilResetOrLoad : Prop :=
  (∀ (s : State) (maxSteps : Nat), Halted s →
    step s = .next s ∧ run maxSteps s = .next (.returned s) ∧ hostStop s = s) ∧
  (∀ (c : HostCall) (s t : State), CoreInv s → Halted s → hostCall c s = .next t → ¬ Halted t →
    c = .reset ∨ ∃ p, c = .loadProgram p) ∧
  (∀ (s : State) (p : Program), (hostReset s).status = .idle ∧ (loadProgram p s).status = .idle)

/-- 60_exceptions.md R259, R265: an iteration of a run at or above the ceiling reports MaxStepsExceeded, leaves the core
Idle and not running, and changes nothing else; below it, it takes a step. `stop()` on a core that is not halted
leaves it Idle and not running and changes nothing else. -/
def Obligations.CeilingAndStopEndARun : Prop :=
  (∀ (maxSteps : Nat) (s : State), s.running = true →
    (maxSteps ≤ s.instructionCount →
      runIteration maxSteps s = .next (.maxStepsExceeded { s with running := false, status := .idle })) ∧
    (s.instructionCount < maxSteps → ∃ t, step s = .next t ∧ runIteration maxSteps s = .next (.yielded t))) ∧
  (∀ s, ¬ Halted s → hostStop s = { s with running := false, status := .idle })

/-- 60_exceptions.md R264, R268: every run with no `stop()` in between ends. (The whole loop without a host call in
between is the model's choice of form, log entry 13; R268 also ends a run by `stop()`, of which
CeilingAndStopEndARun speaks.) It returns with the core halted, or reports MaxStepsExceeded with the core
Idle and the cumulative count at the ceiling (or above it, where it stood when the run began). -/
def Obligations.EveryRunEnds : Prop :=
  ∀ (maxSteps : Nat) (s : State),
    (∃ t, run maxSteps s = .next (.returned t) ∧ Halted t) ∨
    (∃ t, run maxSteps s = .next (.maxStepsExceeded t) ∧ t.status = .idle ∧ t.running = false ∧
      t.instructionCount = max maxSteps s.instructionCount)

/-- 60_exceptions.md R264: a run is the same steps: a step of a running core does what the step of the same core when idle
does, and leaves it running exactly when the idle one stays idle. -/
def Obligations.RunningStepsAreTheSameSteps : Prop :=
  ∀ s, s.status = .idle → s.running = false →
    ∃ t u, step s = .next t ∧ step (runStart s) = .next u ∧
      ((t.status = .idle ∧ t.running = false ∧ u = runStart t) ∨ (Halted t ∧ u = t))
end

