-- ==== Sys2Proof/Laws/Encoding.lean ====
section
/-! SUPPORT. What the decoder's fields and immediates read from the words of each format (30_encoding.md R51 to R57, R67,
R69), and the words a matched word is made of again. -/

namespace Sys2Proof

theorem extract_append_low {a b s l : Nat} (x : BitVec a) (y : BitVec b) (h : s + l ≤ b) :
    (x ++ y).extractLsb' s l = y.extractLsb' s l := by
  apply BitVec.eq_of_getLsbD_eq
  intro i hi
  simp [BitVec.getLsbD_append, hi, show s + i < b by omega]

theorem extract_append_high {a b s l : Nat} (x : BitVec a) (y : BitVec b) (h : b ≤ s) :
    (x ++ y).extractLsb' s l = x.extractLsb' (s - b) l := by
  apply BitVec.eq_of_getLsbD_eq
  intro i hi
  simp [BitVec.getLsbD_append, hi, show ¬ s + i < b by omega, show s + i - b = s - b + i by omega]

theorem extract_all {l : Nat} (x : BitVec l) : x.extractLsb' 0 l = x := by
  apply BitVec.eq_of_getLsbD_eq
  intro i hi
  simp [hi]

section R
variable (f7 : BitVec 7) (r2 r1 : BitVec 5) (f3 : BitVec 3) (rd : BitVec 5) (op : BitVec 7)

@[simp] theorem opcodeOf_encR : opcodeOf (encR f7 r2 r1 f3 rd op) = op := by
  simp (disch := omega) only [opcodeOf, encR, extract_append_low, extract_all]
@[simp] theorem rdOf_encR : rdOf (encR f7 r2 r1 f3 rd op) = rd := by
  simp (disch := omega) only [rdOf, encR, extract_append_low, extract_append_high, extract_all, Nat.sub_self]
@[simp] theorem funct3Of_encR : funct3Of (encR f7 r2 r1 f3 rd op) = f3 := by
  simp (disch := omega) only [funct3Of, encR, extract_append_low, extract_append_high, extract_all, Nat.reduceSub]
@[simp] theorem rs1Of_encR : rs1Of (encR f7 r2 r1 f3 rd op) = r1 := by
  simp (disch := omega) only [rs1Of, encR, extract_append_low, extract_append_high, extract_all, Nat.reduceSub]
@[simp] theorem rs2Of_encR : rs2Of (encR f7 r2 r1 f3 rd op) = r2 := by
  simp (disch := omega) only [rs2Of, encR, extract_append_low, extract_append_high, extract_all, Nat.reduceSub]
@[simp] theorem funct7Of_encR : funct7Of (encR f7 r2 r1 f3 rd op) = f7 := by
  simp (disch := omega) only [funct7Of, encR, extract_append_high, extract_all, Nat.reduceSub]
end R

section I
variable (imm : BitVec 12) (r1 : BitVec 5) (f3 : BitVec 3) (rd : BitVec 5) (op : BitVec 7)

@[simp] theorem opcodeOf_encI : opcodeOf (encI imm r1 f3 rd op) = op := by
  simp (disch := omega) only [opcodeOf, encI, extract_append_low, extract_all]
@[simp] theorem rdOf_encI : rdOf (encI imm r1 f3 rd op) = rd := by
  simp (disch := omega) only [rdOf, encI, extract_append_low, extract_append_high, extract_all, Nat.sub_self]
@[simp] theorem funct3Of_encI : funct3Of (encI imm r1 f3 rd op) = f3 := by
  simp (disch := omega) only [funct3Of, encI, extract_append_low, extract_append_high, extract_all, Nat.reduceSub]
@[simp] theorem rs1Of_encI : rs1Of (encI imm r1 f3 rd op) = r1 := by
  simp (disch := omega) only [rs1Of, encI, extract_append_low, extract_append_high, extract_all, Nat.reduceSub]
@[simp] theorem immI_encI : immI (encI imm r1 f3 rd op) = imm := by
  simp (disch := omega) only [immI, encI, extract_append_high, extract_all, Nat.reduceSub]
end I

section S
variable (imm : BitVec 12) (r2 r1 : BitVec 5) (f3 : BitVec 3) (op : BitVec 7)

@[simp] theorem opcodeOf_encS : opcodeOf (encS imm r2 r1 f3 op) = op := by
  simp (disch := omega) only [opcodeOf, encS, extract_append_low, extract_all]
@[simp] theorem funct3Of_encS : funct3Of (encS imm r2 r1 f3 op) = f3 := by
  simp (disch := omega) only [funct3Of, encS, extract_append_low, extract_append_high, extract_all, Nat.reduceSub]
@[simp] theorem rs1Of_encS : rs1Of (encS imm r2 r1 f3 op) = r1 := by
  simp (disch := omega) only [rs1Of, encS, extract_append_low, extract_append_high, extract_all, Nat.reduceSub]
@[simp] theorem rs2Of_encS : rs2Of (encS imm r2 r1 f3 op) = r2 := by
  simp (disch := omega) only [rs2Of, encS, extract_append_low, extract_append_high, extract_all, Nat.reduceSub]
@[simp] theorem immS_encS : immS (encS imm r2 r1 f3 op) = imm := by
  simp (disch := omega) only [immS, encS, extract_append_low, extract_append_high, extract_all, Nat.reduceSub]
  apply BitVec.eq_of_getLsbD_eq
  intro i hi
  simp only [BitVec.getLsbD_append, BitVec.getLsbD_extractLsb']
  interval_cases i <;> simp
end S

section B
variable (off : BitVec 13) (r2 r1 : BitVec 5) (f3 : BitVec 3) (op : BitVec 7)

@[simp] theorem opcodeOf_encB : opcodeOf (encB off r2 r1 f3 op) = op := by
  simp (disch := omega) only [opcodeOf, encB, extract_append_low, extract_all]
@[simp] theorem funct3Of_encB : funct3Of (encB off r2 r1 f3 op) = f3 := by
  simp (disch := omega) only [funct3Of, encB, extract_append_low, extract_append_high, extract_all, Nat.reduceSub]
@[simp] theorem rs1Of_encB : rs1Of (encB off r2 r1 f3 op) = r1 := by
  simp (disch := omega) only [rs1Of, encB, extract_append_low, extract_append_high, extract_all, Nat.reduceSub]
@[simp] theorem rs2Of_encB : rs2Of (encB off r2 r1 f3 op) = r2 := by
  simp (disch := omega) only [rs2Of, encB, extract_append_low, extract_append_high, extract_all, Nat.reduceSub]

variable {off} in
@[simp] theorem immB_encB (h : evenB off) : immB (encB off r2 r1 f3 op) = off := by
  simp (disch := omega) only [immB, encB, extract_append_low, extract_append_high, extract_all, Nat.reduceSub]
  apply BitVec.eq_of_getLsbD_eq
  intro i hi
  simp only [BitVec.getLsbD_append, BitVec.getLsbD_extractLsb']
  interval_cases i <;> simp
  simpa using h.symm
end B

section UJ
variable (field : BitVec 20) (off : BitVec 21) (imm : Word) (rd : BitVec 5) (op : BitVec 7)

@[simp] theorem opcodeOf_encU : opcodeOf (encU field rd op) = op := by
  simp (disch := omega) only [opcodeOf, encU, extract_append_low, extract_all]
@[simp] theorem rdOf_encU : rdOf (encU field rd op) = rd := by
  simp (disch := omega) only [rdOf, encU, extract_append_low, extract_append_high, extract_all, Nat.sub_self]
@[simp] theorem opcodeOf_encJ : opcodeOf (encJ off rd op) = op := by
  simp (disch := omega) only [opcodeOf, encJ, extract_append_low, extract_all]
@[simp] theorem rdOf_encJ : rdOf (encJ off rd op) = rd := by
  simp (disch := omega) only [rdOf, encJ, extract_append_low, extract_append_high, extract_all, Nat.sub_self]

variable {imm} in
@[simp] theorem immU_encU (h : upperU imm) : immU (encU (imm.extractLsb' 12 20) rd op) = imm := by
  simp (disch := omega) only [immU, encU, extract_append_high, extract_all, Nat.reduceSub]
  rw [← h]
  apply BitVec.eq_of_getLsbD_eq
  intro i hi
  simp only [BitVec.getLsbD_append, BitVec.getLsbD_extractLsb']
  split
  · simp [*]
  · simp [show i - 12 < 20 by omega, show 12 + (i - 12) = i by omega]

variable {off} in
@[simp] theorem immJ_encJ (h : evenJ off) : immJ (encJ off rd op) = off := by
  simp (disch := omega) only [immJ, encJ, extract_append_low, extract_append_high, extract_all, Nat.reduceSub]
  apply BitVec.eq_of_getLsbD_eq
  intro i hi
  simp only [BitVec.getLsbD_append, BitVec.getLsbD_extractLsb']
  interval_cases i <;> simp
  simpa using h.symm
end UJ

/-! The other direction: a word is its own fields put together. -/

theorem encR_fields (w : Word) :
    encR (funct7Of w) (rs2Of w) (rs1Of w) (funct3Of w) (rdOf w) (opcodeOf w) = w := by
  apply BitVec.eq_of_getLsbD_eq
  intro i hi
  simp only [encR, funct7Of, rs2Of, rs1Of, funct3Of, rdOf, opcodeOf, BitVec.getLsbD_append, BitVec.getLsbD_extractLsb']
  interval_cases i <;> simp

theorem encI_fields (w : Word) : encI (immI w) (rs1Of w) (funct3Of w) (rdOf w) (opcodeOf w) = w := by
  apply BitVec.eq_of_getLsbD_eq
  intro i hi
  simp only [encI, immI, rs1Of, funct3Of, rdOf, opcodeOf, BitVec.getLsbD_append, BitVec.getLsbD_extractLsb']
  interval_cases i <;> simp

theorem encS_fields (w : Word) : encS (immS w) (rs2Of w) (rs1Of w) (funct3Of w) (opcodeOf w) = w := by
  apply BitVec.eq_of_getLsbD_eq
  intro i hi
  simp only [encS, immS, rs2Of, rs1Of, funct3Of, opcodeOf, BitVec.getLsbD_append, BitVec.getLsbD_extractLsb']
  interval_cases i <;> simp

theorem encB_fields (w : Word) : encB (immB w) (rs2Of w) (rs1Of w) (funct3Of w) (opcodeOf w) = w := by
  apply BitVec.eq_of_getLsbD_eq
  intro i hi
  simp only [encB, immB, rs2Of, rs1Of, funct3Of, opcodeOf, BitVec.getLsbD_append, BitVec.getLsbD_extractLsb']
  interval_cases i <;> simp

theorem encU_fields (w : Word) : encU ((immU w).extractLsb' 12 20) (rdOf w) (opcodeOf w) = w := by
  apply BitVec.eq_of_getLsbD_eq
  intro i hi
  simp only [encU, immU, rdOf, opcodeOf, BitVec.getLsbD_append, BitVec.getLsbD_extractLsb']
  interval_cases i <;> simp

theorem encJ_fields (w : Word) : encJ (immJ w) (rdOf w) (opcodeOf w) = w := by
  apply BitVec.eq_of_getLsbD_eq
  intro i hi
  simp only [encJ, immJ, rdOf, opcodeOf, BitVec.getLsbD_append, BitVec.getLsbD_extractLsb']
  interval_cases i <;> simp

theorem evenB_immB (w : Word) : evenB (immB w) := by
  simp only [evenB, immB, BitVec.getLsbD_append]; simp

theorem evenJ_immJ (w : Word) : evenJ (immJ w) := by
  simp only [evenJ, immJ, BitVec.getLsbD_append]; simp

theorem upperU_immU (w : Word) : upperU (immU w) := by
  simp (disch := omega) only [upperU, immU, extract_append_low, extract_all]

/-! Masked words, field by field. -/

theorem opcodeOf_and (v w : Word) : opcodeOf (v &&& w) = opcodeOf v &&& opcodeOf w := BitVec.extractLsb'_and
theorem funct3Of_and (v w : Word) : funct3Of (v &&& w) = funct3Of v &&& funct3Of w := BitVec.extractLsb'_and
theorem rs2Of_and (v w : Word) : rs2Of (v &&& w) = rs2Of v &&& rs2Of w := BitVec.extractLsb'_and
theorem funct7Of_and (v w : Word) : funct7Of (v &&& w) = funct7Of v &&& funct7Of w := BitVec.extractLsb'_and

/-! The matching, by major opcode. -/

theorem matchRow_op {w : Word} (h : opcodeOf w = opOp) : matchRow w = decodeOp w := if_pos h
theorem matchRow_opImm {w : Word} (h : opcodeOf w = opOpImm) : matchRow w = decodeOpImm w := by
  rw [matchRow, h]; rfl
theorem matchRow_load {w : Word} (h : opcodeOf w = opLoad) : matchRow w = decodeLoad w := by
  rw [matchRow, h]; rfl
theorem matchRow_store {w : Word} (h : opcodeOf w = opStore) : matchRow w = decodeStore w := by
  rw [matchRow, h]; rfl
theorem matchRow_branch {w : Word} (h : opcodeOf w = opBranch) : matchRow w = decodeBranch w := by
  rw [matchRow, h]; rfl
theorem matchRow_fp {w : Word} (h : opcodeOf w = opFp) : matchRow w = decodeFp w := by
  rw [matchRow, h]; rfl
theorem matchRow_system {w : Word} (h : opcodeOf w = opSystem) : matchRow w = decodeSystem w := by
  rw [matchRow, h]; rfl

theorem decodeWord_some {w : Word} {i : Instr} (h : matchRow w = some i) : decodeWord w = .ok i := by
  simp only [decodeWord, h]

theorem decodeWord_none {w : Word} (h : matchRow w = none) : decodeWord w = .error (.noRow w) := by
  simp only [decodeWord, h]

end Sys2Proof
end

