-- ==== Sys2Proof/Laws/Memory.lean ====
section
/-! SUPPORT. The memory's laws: reads after writes, and that every operation keeps the canonical form. -/

namespace Sys2Proof.Machine

theorem lookupCell_insertCell (cs : List Host.Cell) (a b : Nat) (v : Byte) :
    lookupCell (insertCell cs a v) b = if b = a then some v else lookupCell cs b := by
  induction cs with
  | nil => by_cases h : a = b <;> simp [insertCell, lookupCell, h, eq_comm]
  | cons c cs ih =>
    obtain ⟨k, c⟩ := c
    unfold insertCell
    split
    · by_cases h : b = a
      · simp [lookupCell, h]
      · simp [lookupCell, h, Ne.symm h]
    · split
      · rename_i h; subst h
        by_cases h : b = a
        · simp [lookupCell, h]
        · simp [lookupCell, h, Ne.symm h]
      · by_cases h : k = b
        · subst h; rename_i h1 h2; simp [lookupCell, Ne.symm h2]
        · simp [lookupCell, h, ih]

/-- A write is what its own address reads, and leaves every other address alone (20_memory.md R31, R32). -/
theorem readByte_writeByte (m : Memory) (a b : Word) (v : Byte) :
    readByte (writeByte m a v) b = if b = a then some v else readByte m b := by
  simp only [readByte, writeByte, lookupCell_insertCell]
  by_cases h : b = a
  · simp [h]
  · have : ¬ b.toNat = a.toNat := fun h' => h (BitVec.eq_of_toNat_eq h')
    simp [h, this]

theorem insertCell_bound {cs : List Host.Cell} {a n : Nat} {v : Byte} (ha : a < n) (h : ∀ c ∈ cs, c.1 < n) :
    ∀ c ∈ insertCell cs a v, c.1 < n := by
  induction cs with
  | nil => simpa [insertCell] using ha
  | cons c cs ih =>
    obtain ⟨k, c⟩ := c
    have hc := h (k, c) (by simp)
    have hcs := fun d hd => h d (List.mem_cons_of_mem _ hd)
    unfold insertCell
    split
    · intro d hd
      rcases List.mem_cons.1 hd with rfl | hd
      · exact ha
      · exact h d hd
    · split
      · intro d hd
        rcases List.mem_cons.1 hd with rfl | hd
        · exact ha
        · exact hcs d hd
      · intro d hd
        rcases List.mem_cons.1 hd with rfl | hd
        · exact hc
        · exact ih hcs d hd

theorem insertCell_above {cs : List Host.Cell} {a n : Nat} {v : Byte} (ha : n < a) (h : ∀ c ∈ cs, n < c.1) :
    ∀ c ∈ insertCell cs a v, n < c.1 := by
  induction cs with
  | nil => simpa [insertCell] using ha
  | cons c cs ih =>
    obtain ⟨k, c⟩ := c
    have hc := h (k, c) (by simp)
    have hcs := fun d hd => h d (List.mem_cons_of_mem _ hd)
    unfold insertCell
    split
    · intro d hd
      rcases List.mem_cons.1 hd with rfl | hd
      · exact ha
      · exact h d hd
    · split
      · intro d hd
        rcases List.mem_cons.1 hd with rfl | hd
        · exact ha
        · exact hcs d hd
      · intro d hd
        rcases List.mem_cons.1 hd with rfl | hd
        · exact hc
        · exact ih hcs d hd

theorem insertCell_sorted {cs : List Host.Cell} {a : Nat} {v : Byte}
    (h : cs.Pairwise (fun c d => c.1 < d.1)) : (insertCell cs a v).Pairwise (fun c d => c.1 < d.1) := by
  induction cs with
  | nil => simp [insertCell]
  | cons c cs ih =>
    obtain ⟨k, c⟩ := c
    rw [List.pairwise_cons] at h
    unfold insertCell
    split
    · rename_i hlt
      refine List.pairwise_cons.2 ⟨?_, List.pairwise_cons.2 h⟩
      intro d hd
      rcases List.mem_cons.1 hd with rfl | hd
      · exact hlt
      · exact Nat.lt_trans hlt (h.1 d hd)
    · split
      · rename_i heq
        subst heq
        exact List.pairwise_cons.2 ⟨h.1, h.2⟩
      · refine List.pairwise_cons.2 ⟨?_, ih h.2⟩
        exact insertCell_above (by simp only; omega) h.1

/-- A write keeps the canonical form. -/
theorem writeByte_wf {m : Memory} (h : m.wf) (a : Word) (v : Byte) : (writeByte m a v).wf :=
  ⟨insertCell_sorted h.1, insertCell_bound a.isLt h.2⟩

theorem empty_wf : Memory.empty.wf := by decide

/-- A multi-byte write keeps the canonical form. -/
theorem memWriteFrom_wf {p : Config.Params} {addr : Word} {bs : List Byte} :
    ∀ {m m' : Memory} {i : Nat}, m.wf → memWriteFrom p m addr i bs = .ok m' → m'.wf := by
  induction bs with
  | nil => intro m m' i h e; cases e; exact h
  | cons b bs ih =>
    intro m m' i h e
    unfold memWriteFrom at e
    split at e
    · cases e
    · exact ih (writeByte_wf h _ _) e

theorem memWrite_wf {p : Config.Params} {m m' : Memory} {addr v : Word} {n : Nat} (h : m.wf)
    (e : memWrite p m addr n v = .ok m') : m'.wf := memWriteFrom_wf h e

/-- A multi-byte write maps, and unmaps nothing. -/
theorem memWriteFrom_mapped {p : Config.Params} {addr a : Word} {bs : List Byte} :
    ∀ {m m' : Memory} {i : Nat}, memWriteFrom p m addr i bs = .ok m' → readByte m a ≠ none → readByte m' a ≠ none := by
  induction bs with
  | nil => intro m m' i e h; cases e; exact h
  | cons b bs ih =>
    intro m m' i e h
    unfold memWriteFrom at e
    split at e
    · cases e
    · refine ih e ?_
      rw [readByte_writeByte]; split
      · simp
      · exact h

/-- A program image copied into a canonical memory leaves it canonical. -/
theorem copyImage_wf {image : List (Word × Byte)} : ∀ {m : Memory}, m.wf → (copyImage image m).wf := by
  induction image with
  | nil => intro m h; exact h
  | cons c image ih => intro m h; exact ih (writeByte_wf h _ _)

end Sys2Proof.Machine
end

