-- ==== Sys2Proof/Laws/State.lean ====
section
/-! SUPPORT. One lemma per field per update of the state: what each named update of Machine/Ops.lean leaves in each field. -/

namespace Sys2Proof.Machine

/-! ### writeX -/

@[simp] theorem writeX_f (s : State) (r : XReg) (v : Word) : (writeX s r v).f = s.f := by unfold writeX; split <;> rfl
@[simp] theorem writeX_pc (s : State) (r : XReg) (v : Word) : (writeX s r v).pc = s.pc := by unfold writeX; split <;> rfl
@[simp] theorem writeX_mem (s : State) (r : XReg) (v : Word) : (writeX s r v).mem = s.mem := by unfold writeX; split <;> rfl
@[simp] theorem writeX_running (s : State) (r : XReg) (v : Word) : (writeX s r v).running = s.running := by unfold writeX; split <;> rfl
@[simp] theorem writeX_instructionCount (s : State) (r : XReg) (v : Word) : (writeX s r v).instructionCount = s.instructionCount := by unfold writeX; split <;> rfl
@[simp] theorem writeX_status (s : State) (r : XReg) (v : Word) : (writeX s r v).status = s.status := by unfold writeX; split <;> rfl
@[simp] theorem writeX_out (s : State) (r : XReg) (v : Word) : (writeX s r v).out = s.out := by unfold writeX; split <;> rfl
@[simp] theorem writeX_params (s : State) (r : XReg) (v : Word) : (writeX s r v).params = s.params := by unfold writeX; split <;> rfl
@[simp] theorem writeX_nanDraws (s : State) (r : XReg) (v : Word) : (writeX s r v).nanDraws = s.nanDraws := by unfold writeX; split <;> rfl

/-! ### writeF -/

@[simp] theorem writeF_x (s : State) (r : FReg) (v : Word) : (writeF s r v).x = s.x := rfl
@[simp] theorem writeF_f (s : State) (r : FReg) (v : Word) : (writeF s r v).f = s.f.set r.toNat v r.isLt := rfl
@[simp] theorem writeF_pc (s : State) (r : FReg) (v : Word) : (writeF s r v).pc = s.pc := rfl
@[simp] theorem writeF_mem (s : State) (r : FReg) (v : Word) : (writeF s r v).mem = s.mem := rfl
@[simp] theorem writeF_running (s : State) (r : FReg) (v : Word) : (writeF s r v).running = s.running := rfl
@[simp] theorem writeF_instructionCount (s : State) (r : FReg) (v : Word) : (writeF s r v).instructionCount = s.instructionCount := rfl
@[simp] theorem writeF_status (s : State) (r : FReg) (v : Word) : (writeF s r v).status = s.status := rfl
@[simp] theorem writeF_out (s : State) (r : FReg) (v : Word) : (writeF s r v).out = s.out := rfl
@[simp] theorem writeF_params (s : State) (r : FReg) (v : Word) : (writeF s r v).params = s.params := rfl
@[simp] theorem writeF_nanDraws (s : State) (r : FReg) (v : Word) : (writeF s r v).nanDraws = s.nanDraws := rfl

/-! ### setMem -/

@[simp] theorem setMem_x (s : State) (m : Memory) : (setMem s m).x = s.x := rfl
@[simp] theorem setMem_f (s : State) (m : Memory) : (setMem s m).f = s.f := rfl
@[simp] theorem setMem_pc (s : State) (m : Memory) : (setMem s m).pc = s.pc := rfl
@[simp] theorem setMem_mem (s : State) (m : Memory) : (setMem s m).mem = m := rfl
@[simp] theorem setMem_running (s : State) (m : Memory) : (setMem s m).running = s.running := rfl
@[simp] theorem setMem_instructionCount (s : State) (m : Memory) : (setMem s m).instructionCount = s.instructionCount := rfl
@[simp] theorem setMem_status (s : State) (m : Memory) : (setMem s m).status = s.status := rfl
@[simp] theorem setMem_out (s : State) (m : Memory) : (setMem s m).out = s.out := rfl
@[simp] theorem setMem_params (s : State) (m : Memory) : (setMem s m).params = s.params := rfl
@[simp] theorem setMem_nanDraws (s : State) (m : Memory) : (setMem s m).nanDraws = s.nanDraws := rfl

/-! ### emit -/

@[simp] theorem emit_x (s : State) (e : OutEvent) : (emit s e).x = s.x := rfl
@[simp] theorem emit_f (s : State) (e : OutEvent) : (emit s e).f = s.f := rfl
@[simp] theorem emit_pc (s : State) (e : OutEvent) : (emit s e).pc = s.pc := rfl
@[simp] theorem emit_mem (s : State) (e : OutEvent) : (emit s e).mem = s.mem := rfl
@[simp] theorem emit_running (s : State) (e : OutEvent) : (emit s e).running = s.running := rfl
@[simp] theorem emit_instructionCount (s : State) (e : OutEvent) : (emit s e).instructionCount = s.instructionCount := rfl
@[simp] theorem emit_status (s : State) (e : OutEvent) : (emit s e).status = s.status := rfl
@[simp] theorem emit_out (s : State) (e : OutEvent) : (emit s e).out = s.out ++ [e] := rfl
@[simp] theorem emit_params (s : State) (e : OutEvent) : (emit s e).params = s.params := rfl
@[simp] theorem emit_nanDraws (s : State) (e : OutEvent) : (emit s e).nanDraws = s.nanDraws := rfl

/-! ### countNan -/

@[simp] theorem countNan_x (s : State) : (countNan s).x = s.x := rfl
@[simp] theorem countNan_f (s : State) : (countNan s).f = s.f := rfl
@[simp] theorem countNan_pc (s : State) : (countNan s).pc = s.pc := rfl
@[simp] theorem countNan_mem (s : State) : (countNan s).mem = s.mem := rfl
@[simp] theorem countNan_running (s : State) : (countNan s).running = s.running := rfl
@[simp] theorem countNan_instructionCount (s : State) : (countNan s).instructionCount = s.instructionCount := rfl
@[simp] theorem countNan_status (s : State) : (countNan s).status = s.status := rfl
@[simp] theorem countNan_out (s : State) : (countNan s).out = s.out := rfl
@[simp] theorem countNan_params (s : State) : (countNan s).params = s.params := rfl
@[simp] theorem countNan_nanDraws (s : State) : (countNan s).nanDraws = s.nanDraws + 1 := rfl

/-! ### haltExit -/

@[simp] theorem haltExit_x (s : State) : (haltExit s).x = s.x := rfl
@[simp] theorem haltExit_f (s : State) : (haltExit s).f = s.f := rfl
@[simp] theorem haltExit_pc (s : State) : (haltExit s).pc = s.pc := rfl
@[simp] theorem haltExit_mem (s : State) : (haltExit s).mem = s.mem := rfl
@[simp] theorem haltExit_running (s : State) : (haltExit s).running = false := rfl
@[simp] theorem haltExit_instructionCount (s : State) : (haltExit s).instructionCount = s.instructionCount := rfl
@[simp] theorem haltExit_status (s : State) : (haltExit s).status = .haltedExit := rfl
@[simp] theorem haltExit_out (s : State) : (haltExit s).out = s.out := rfl
@[simp] theorem haltExit_params (s : State) : (haltExit s).params = s.params := rfl
@[simp] theorem haltExit_nanDraws (s : State) : (haltExit s).nanDraws = s.nanDraws := rfl

/-! ### haltError -/

@[simp] theorem haltError_x (s : State) (e : Fault) : (haltError s e).x = s.x := rfl
@[simp] theorem haltError_f (s : State) (e : Fault) : (haltError s e).f = s.f := rfl
@[simp] theorem haltError_pc (s : State) (e : Fault) : (haltError s e).pc = s.pc := rfl
@[simp] theorem haltError_mem (s : State) (e : Fault) : (haltError s e).mem = s.mem := rfl
@[simp] theorem haltError_running (s : State) (e : Fault) : (haltError s e).running = false := rfl
@[simp] theorem haltError_instructionCount (s : State) (e : Fault) : (haltError s e).instructionCount = s.instructionCount := rfl
@[simp] theorem haltError_status (s : State) (e : Fault) : (haltError s e).status = .haltedError e := rfl
@[simp] theorem haltError_out (s : State) (e : Fault) : (haltError s e).out = s.out := rfl
@[simp] theorem haltError_params (s : State) (e : Fault) : (haltError s e).params = s.params := rfl
@[simp] theorem haltError_nanDraws (s : State) (e : Fault) : (haltError s e).nanDraws = s.nanDraws := rfl

/-! ### retire -/

@[simp] theorem retire_x (s : State) (t : Word) : (retire s t).x = s.x := rfl
@[simp] theorem retire_f (s : State) (t : Word) : (retire s t).f = s.f := rfl
@[simp] theorem retire_pc (s : State) (t : Word) : (retire s t).pc = t := rfl
@[simp] theorem retire_mem (s : State) (t : Word) : (retire s t).mem = s.mem := rfl
@[simp] theorem retire_running (s : State) (t : Word) : (retire s t).running = s.running := rfl
@[simp] theorem retire_instructionCount (s : State) (t : Word) : (retire s t).instructionCount = s.instructionCount + 1 := rfl
@[simp] theorem retire_status (s : State) (t : Word) : (retire s t).status = s.status := rfl
@[simp] theorem retire_out (s : State) (t : Word) : (retire s t).out = s.out := rfl
@[simp] theorem retire_params (s : State) (t : Word) : (retire s t).params = s.params := rfl
@[simp] theorem retire_nanDraws (s : State) (t : Word) : (retire s t).nanDraws = s.nanDraws := rfl

/-! ### writeArith: at most one NaN drawn -/

@[simp] theorem writeArith_x (s : State) (r : FReg) (v : Option Word) : (writeArith s r v).x = s.x := by
  cases v <;> rfl
@[simp] theorem writeArith_pc (s : State) (r : FReg) (v : Option Word) : (writeArith s r v).pc = s.pc := by
  cases v <;> rfl
@[simp] theorem writeArith_mem (s : State) (r : FReg) (v : Option Word) : (writeArith s r v).mem = s.mem := by
  cases v <;> rfl
@[simp] theorem writeArith_running (s : State) (r : FReg) (v : Option Word) :
    (writeArith s r v).running = s.running := by
  cases v <;> rfl
@[simp] theorem writeArith_instructionCount (s : State) (r : FReg) (v : Option Word) :
    (writeArith s r v).instructionCount = s.instructionCount := by
  cases v <;> rfl
@[simp] theorem writeArith_status (s : State) (r : FReg) (v : Option Word) :
    (writeArith s r v).status = s.status := by
  cases v <;> rfl
@[simp] theorem writeArith_out (s : State) (r : FReg) (v : Option Word) : (writeArith s r v).out = s.out := by
  cases v <;> rfl
@[simp] theorem writeArith_params (s : State) (r : FReg) (v : Option Word) :
    (writeArith s r v).params = s.params := by
  cases v <;> rfl

end Sys2Proof.Machine
end

