-- ==== Sys2Proof/Laws/Registers.lean ====
section
/-! SUPPORT. Reads after writes of the two register files. -/

namespace Sys2Proof.Machine

@[simp] theorem readX_zero (s : State) : readX s 0#5 = 0#32 := rfl

theorem readX_congr {s t : State} (h : t.x = s.x) (r : XReg) : readX t r = readX s r := by
  unfold readX; split
  · rfl
  · simp [h]

theorem readF_congr {s t : State} (h : t.f = s.f) (r : FReg) : readF t r = readF s r := by
  unfold readF; simp [h]

theorem readX_writeX (s : State) (r q : XReg) (v : Word) :
    readX (writeX s r v) q = if q = r ∧ r ≠ 0#5 then v else readX s q := by
  by_cases hr : r = 0#5
  · simp [writeX, hr]
  · by_cases hq : q = r
    · subst hq; simp [readX, writeX, hr]
    · have hn : ¬ r.toNat = q.toNat := fun h => hq (BitVec.eq_of_toNat_eq h.symm)
      simp [readX, writeX, hr, hq, hn]

theorem readF_writeF (s : State) (r q : FReg) (v : Word) :
    readF (writeF s r v) q = if q = r then v else readF s q := by
  by_cases hq : q = r
  · subst hq; simp [readF, writeF]
  · have hn : ¬ r.toNat = q.toNat := fun h => hq (BitVec.eq_of_toNat_eq h.symm)
    simp [readF, writeF, hq, hn]

@[simp] theorem readF_writeX (s : State) (r : XReg) (q : FReg) (v : Word) : readF (writeX s r v) q = readF s q :=
  readF_congr (writeX_f s r v) q

@[simp] theorem readX_writeF (s : State) (r : FReg) (q : XReg) (v : Word) : readX (writeF s r v) q = readX s q :=
  readX_congr rfl q

@[simp] theorem readX_retire (s : State) (t : Word) (q : XReg) : readX (retire s t) q = readX s q :=
  readX_congr rfl q

@[simp] theorem readF_retire (s : State) (t : Word) (q : FReg) : readF (retire s t) q = readF s q :=
  readF_congr rfl q

@[simp] theorem readX_setMem (s : State) (m : Memory) (q : XReg) : readX (setMem s m) q = readX s q :=
  readX_congr rfl q

@[simp] theorem readF_setMem (s : State) (m : Memory) (q : FReg) : readF (setMem s m) q = readF s q :=
  readF_congr rfl q

@[simp] theorem readX_emit (s : State) (e : OutEvent) (q : XReg) : readX (emit s e) q = readX s q :=
  readX_congr rfl q

@[simp] theorem readF_emit (s : State) (e : OutEvent) (q : FReg) : readF (emit s e) q = readF s q :=
  readF_congr rfl q

@[simp] theorem readX_haltExit (s : State) (q : XReg) : readX (haltExit s) q = readX s q := readX_congr rfl q

@[simp] theorem readF_haltExit (s : State) (q : FReg) : readF (haltExit s) q = readF s q := readF_congr rfl q

@[simp] theorem readX_writeArith (s : State) (r : FReg) (v : Option Word) (q : XReg) :
    readX (writeArith s r v) q = readX s q :=
  readX_congr (writeArith_x s r v) q

/-- `x[0]` itself is never written. -/
@[simp] theorem writeX_x0 (s : State) (r : XReg) (v : Word) : (writeX s r v).x[0] = s.x[0] := by
  unfold writeX; split
  · rfl
  · rename_i h
    have hn : ¬ r.toNat = 0 := fun h' => h (BitVec.eq_of_toNat_eq h')
    simp [hn]

end Sys2Proof.Machine
end

