-- ==== Sys2Proof/Laws/Ops.lean ====
section
/-! SUPPORT. For each shared operation, everything it can do, said once: address sums, accesses of several bytes, the ends of
a step, taking a fault, the fetch. -/

namespace Sys2Proof.Machine

open Sys2Proof.Safety

/-! ### Integers and words -/

theorem wrap32_unsigned (v : Word) : wrap32 (unsigned v) = v := by simp [wrap32, unsigned]

theorem wrap32_add_nat (v : Word) (k : Nat) : wrap32 (unsigned v + k) = v + BitVec.ofNat 32 k := by
  simp [wrap32, unsigned, BitVec.ofInt_add]

theorem unsigned_range (v : Word) : 0 ≤ unsigned v ∧ unsigned v < 4294967296 := by
  have := v.isLt
  simp only [unsigned]; omega

/-! ### Address sums (60_exceptions.md R258) -/

theorem addressOf_fits {p : Config.Params} {n : Int} (h : SumFits p n) : addressOf p n = .ok (wrap32 n) := by
  rcases h with h | h <;> simp [addressOf, h]

theorem addressOf_overflows {p : Config.Params} {n : Int} (h : ¬ SumFits p n) :
    addressOf p n = .error .addressOverflow := by
  simp only [SumFits, not_or, not_and] at h
  simp only [addressOf, Bool.or_eq_true, Bool.and_eq_true, decide_eq_true_eq]
  rw [if_neg]
  rintro (h' | h')
  · exact h.1 h'
  · exact h.2 h'.1 h'.2

/-- An address sum gives the address modulo 2^32 or raises AddressOverflow, and which of the two is `SumFits`. -/
theorem addressOf_cases (p : Config.Params) (n : Int) :
    (SumFits p n ∧ addressOf p n = .ok (wrap32 n)) ∨ (¬ SumFits p n ∧ addressOf p n = .error .addressOverflow) := by
  by_cases h : SumFits p n
  · exact .inl ⟨h, addressOf_fits h⟩
  · exact .inr ⟨h, addressOf_overflows h⟩

theorem pcPlus4_fits {s : State} (h : PcFits s) : pcPlus4 s = .ok (nextPc s) := addressOf_fits h

theorem pcPlus4_overflows {s : State} (h : ¬ PcFits s) : pcPlus4 s = .error .addressOverflow := addressOf_overflows h

/-- `pc + 4`, when it is answered, is `nextPc`. -/
theorem pcPlus4_ok {s : State} {t : Word} (h : pcPlus4 s = .ok t) : PcFits s ∧ t = nextPc s := by
  rcases addressOf_cases s.params (unsigned s.pc + 4) with ⟨hf, h'⟩ | ⟨hf, h'⟩ <;> rw [pcPlus4, h'] at h
  · exact ⟨hf, (Except.ok.inj h).symm⟩
  · cases h

theorem effectiveAddress_fits {s : State} {rs1 : XReg} {imm : BitVec 12}
    (h : SumFits s.params (unsigned (readX s rs1) + imm.toInt)) : effectiveAddress s rs1 imm = .ok (ea s rs1 imm) :=
  addressOf_fits h

/-! ### Accesses of several bytes (20_memory.md R34, R35) -/

/-- The sum of byte `i` of an access fits when the sum of its last byte does. -/
theorem SumFits.byte {p : Config.Params} {a : Word} {n i : Nat} (h : AccessFits p a n) (hi : i < n) :
    SumFits p (unsigned a + i) := by
  rcases h with h | h
  · exact .inl h
  · have := unsigned_range a
    exact .inr ⟨by omega, by omega⟩

theorem leValue_succ (n : Nat) (b : Nat → Byte) : leValue (n + 1) b = (b 0).toNat + 256 * leValue n fun i => b (i + 1) := by
  simp only [leValue, Finset.sum_range_succ' _ n, Finset.mul_sum]
  rw [Nat.add_comm]
  congr 1
  · simp
  · refine Finset.sum_congr rfl fun i _ => ?_
    rw [show 8 * (i + 1) = 8 * i + 8 by ring, pow_add]; ring

theorem memReadFrom_mapped {p : Config.Params} {m : Memory} {a : Word} {n : Nat} :
    ∀ {i : Nat} {b : Nat → Byte}, (∀ k, k < n → SumFits p (unsigned a + (i + k : Nat))) →
      (∀ k, k < n → readByte m (wrap32 (unsigned a + (i + k : Nat))) = some (b k)) →
      memReadFrom p m a i n = .ok (leValue n b) := by
  induction n with
  | zero => intro i b _ _; simp [memReadFrom, leValue]
  | succ n ih =>
    intro i b hf hb
    have hf0 := hf 0 (by omega)
    have hb0 := hb 0 (by omega)
    rw [Nat.add_zero] at hf0 hb0
    have := ih (i := i + 1) (b := fun k => b (k + 1))
      (fun k hk => by have := hf (k + 1) (by omega); rwa [show i + 1 + k = i + (k + 1) by omega])
      (fun k hk => by have := hb (k + 1) (by omega); rwa [show i + 1 + k = i + (k + 1) by omega])
    rw [leValue_succ]
    simp only [memReadFrom, addressOf_fits hf0, hb0, this]

/-- A read of mapped bytes is their little-endian value. -/
theorem memRead_mapped {p : Config.Params} {m : Memory} {a : Word} {n : Nat} {b : Nat → Byte} (hf : AccessFits p a n)
    (hb : ∀ i, i < n → readByte m (wrap32 (unsigned a + i)) = some (b i)) : memRead p m a n = .ok (leValue n b) :=
  memReadFrom_mapped (fun k hk => by simpa using SumFits.byte hf hk) (fun k hk => by simpa using hb k hk)

theorem memReadFrom_unmapped {p : Config.Params} {m : Memory} {a : Word} {j : Nat} :
    ∀ {i n : Nat}, j < n → (∀ k, k ≤ j → SumFits p (unsigned a + (i + k : Nat))) →
      (∀ k, k < j → readByte m (wrap32 (unsigned a + (i + k : Nat))) ≠ none) →
      readByte m (wrap32 (unsigned a + (i + j : Nat))) = none →
      memReadFrom p m a i n = .error (.unmappedMemory (wrap32 (unsigned a + (i + j : Nat)))) := by
  induction j with
  | zero =>
    intro i n hn hf _ hj
    obtain ⟨n, rfl⟩ : ∃ k, n = k + 1 := ⟨n - 1, by omega⟩
    have hf0 := hf 0 (by omega)
    rw [Nat.add_zero] at hf0 hj ⊢
    simp only [memReadFrom, addressOf_fits hf0, hj, Nat.add_zero]
  | succ j ih =>
    intro i n hn hf hb hj
    obtain ⟨n, rfl⟩ : ∃ k, n = k + 1 := ⟨n - 1, by omega⟩
    have hf0 := hf 0 (by omega)
    have hb0 := hb 0 (by omega)
    rw [Nat.add_zero] at hf0 hb0
    obtain ⟨b, hb0⟩ := Option.ne_none_iff_exists'.1 hb0
    have := ih (i := i + 1) (n := n) (by omega)
      (fun k hk => by have := hf (k + 1) (by omega); rwa [show i + 1 + k = i + (k + 1) by omega])
      (fun k hk => by have := hb (k + 1) (by omega); rwa [show i + 1 + k = i + (k + 1) by omega])
      (by rwa [show i + 1 + j = i + (j + 1) by omega])
    rw [show i + 1 + j = i + (j + 1) by omega] at this
    simp only [memReadFrom, addressOf_fits hf0, hb0, this]

/-- A read whose byte `j` is the first unmapped one fails there. -/
theorem memRead_unmapped {p : Config.Params} {m : Memory} {a : Word} {n j : Nat} (hj : j < n)
    (hf : AccessFits p a (j + 1)) (hb : ∀ i, i < j → readByte m (wrap32 (unsigned a + i)) ≠ none)
    (hn : readByte m (wrap32 (unsigned a + j)) = none) :
    memRead p m a n = .error (.unmappedMemory (wrap32 (unsigned a + j))) := by
  have := memReadFrom_unmapped (p := p) (m := m) (a := a) (j := j) (i := 0) hj
    (fun k hk => by simpa using SumFits.byte hf (Nat.lt_succ_of_le hk)) (fun k hk => by simpa using hb k hk)
    (by simpa using hn)
  rwa [Nat.zero_add] at this

theorem memWriteFrom_fits {p : Config.Params} {a : Word} {bs : List Byte} :
    ∀ {m : Memory} {i : Nat}, (∀ k, k < bs.length → SumFits p (unsigned a + (i + k : Nat))) →
      ∃ m', memWriteFrom p m a i bs = .ok m' := by
  induction bs with
  | nil => intro m i _; exact ⟨m, rfl⟩
  | cons b bs ih =>
    intro m i hf
    have hf0 := hf 0 (by simp)
    rw [Nat.add_zero] at hf0
    simp only [memWriteFrom, addressOf_fits hf0]
    exact ih fun k hk => by
      have := hf (k + 1) (by simpa using hk)
      rwa [show i + 1 + k = i + (k + 1) by omega]

theorem lowBytes_length (v : Word) (n : Nat) : (lowBytes v n).length = n := by
  induction n generalizing v with
  | zero => rfl
  | succ n ih => simp [lowBytes, ih]

theorem lowBytes_getElem (n : Nat) : ∀ (v : Word) (k : Nat) (h : k < (lowBytes v n).length),
    (lowBytes v n)[k] = byteOf v k := by
  induction n with
  | zero => intro v k h; simp [lowBytes] at h
  | succ n ih =>
    intro v k h
    cases k with
    | zero => apply BitVec.eq_of_toNat_eq; simp [lowBytes, byteOf]
    | succ k =>
      simp only [lowBytes, List.getElem_cons_succ, ih]
      apply BitVec.eq_of_toNat_eq
      simp [byteOf, Nat.shiftRight_eq_div_pow, Nat.div_div_eq_div_mul, show 2 ^ (8 * (k + 1)) = 256 * 2 ^ (8 * k) by ring]

/-- What a write of several bytes leaves at each address: the byte written there, else what stood there. -/
theorem memWriteFrom_reads {p : Config.Params} {a c : Word} {bs : List Byte} :
    ∀ {m m' : Memory} {i : Nat}, i + bs.length ≤ 2 ^ 32 → memWriteFrom p m a i bs = .ok m' →
      readByte m' c = if h : i ≤ (c - a).toNat ∧ (c - a).toNat - i < bs.length then some (bs[(c - a).toNat - i]'h.2)
        else readByte m c := by
  induction bs with
  | nil => intro m m' i _ e; cases e; simp
  | cons b bs ih =>
    intro m m' i hl e
    rw [List.length_cons] at hl
    unfold memWriteFrom at e
    rcases addressOf_cases p (unsigned a + i) with ⟨-, h⟩ | ⟨-, h⟩ <;> rw [h] at e
    · simp only at e
      rw [ih (by omega) e, readByte_writeByte, wrap32_add_nat]
      have hc : c = a + BitVec.ofNat 32 i ↔ (c - a).toNat = i := by
        constructor
        · rintro rfl
          rw [show a + BitVec.ofNat 32 i - a = BitVec.ofNat 32 i by ring]
          simp; omega
        · intro h
          rw [← h, BitVec.ofNat_toNat, BitVec.setWidth_eq]; ring
      generalize (c - a).toNat = d at hc ⊢
      by_cases h1 : d = i
      · rw [dif_neg (by omega), if_pos (hc.2 h1), dif_pos (by simp; omega)]
        simp [h1]
      · rw [if_neg (mt hc.1 h1)]
        by_cases h2 : i + 1 ≤ d ∧ d - (i + 1) < bs.length
        · rw [dif_pos h2, dif_pos (by simp; omega)]
          simp only [show d - i = d - (i + 1) + 1 by omega, List.getElem_cons_succ]
        · rw [dif_neg h2, dif_neg (by simp; omega)]
    · cases e

/-- A store whose addresses fit succeeds. -/
theorem memWrite_fits {p : Config.Params} {a : Word} {n : Nat} (m : Memory) (v : Word) (hf : AccessFits p a n) :
    ∃ m', memWrite p m a n v = .ok m' :=
  memWriteFrom_fits fun k hk => by
    rw [lowBytes_length] at hk
    simpa using SumFits.byte hf hk

/-- What a store leaves at each address. -/
theorem memWrite_reads {p : Config.Params} {m m' : Memory} {a : Word} {n : Nat} {v : Word} (hn : n ≤ 4)
    (e : memWrite p m a n v = .ok m') (c : Word) :
    readByte m' c = if (c - a).toNat < n then some (byteOf v (c - a).toNat) else readByte m c := by
  rw [memWriteFrom_reads (by simp [lowBytes_length]; omega) e]
  simp [lowBytes_length, lowBytes_getElem]

/-! ### Taking a fault, and the ends of a step -/

theorem raise_next (s : State) (e : Fault) : raise s e = .next (haltError s e) := rfl

/-- Taking a fault changes `running` and `status` and nothing else (60_exceptions.md R252). -/
theorem haltError_faulted (s : State) (e : Fault) : Faulted s (haltError s e) e :=
  ⟨rfl, rfl, rfl, rfl, rfl, rfl, rfl, rfl, rfl, rfl⟩

/-- A step ends retired at its target or in a fault. -/
theorem completeAt_cases (s s' : State) (t : Except Fault Word) :
    (∃ a, t = .ok a ∧ completeAt s s' t = .next (retire s' a)) ∨
    (∃ e, t = .error e ∧ completeAt s s' t = .next (haltError s e)) := by
  cases t with
  | ok a => exact .inl ⟨a, rfl, rfl⟩
  | error e => exact .inr ⟨e, rfl, rfl⟩

theorem complete_fits {s : State} (s' : State) (h : PcFits s) : complete s s' = .next (retire s' (nextPc s)) := by
  simp [complete, pcPlus4_fits h, completeAt]

theorem complete_overflows {s : State} (s' : State) (h : ¬ PcFits s) :
    complete s s' = .next (haltError s .addressOverflow) := by
  simp [complete, pcPlus4_overflows h, completeAt, raise]

/-- A step that signals no target ends retired at `pc + 4`, or in AddressOverflow. -/
theorem complete_cases (s s' : State) :
    (PcFits s ∧ complete s s' = .next (retire s' (nextPc s))) ∨
    (¬ PcFits s ∧ complete s s' = .next (haltError s .addressOverflow)) := by
  by_cases h : PcFits s
  · exact .inl ⟨h, complete_fits s' h⟩
  · exact .inr ⟨h, complete_overflows s' h⟩

/-- Retiring a state with one register written is the frame `OnlyX`. -/
theorem retire_writeX_onlyX (s : State) (rd : XReg) (v pc : Word) : OnlyX s (retire (writeX s rd v) pc) rd v pc where
  x r := by simp [readX_writeX]
  f r := by simp
  mem a := by simp
  pc := rfl
  quiet := ⟨by simp, by simp, by simp, by simp, by simp, by simp⟩

theorem retire_onlyPc (s : State) (pc : Word) : OnlyPc s (retire s pc) pc where
  x r := by simp
  f r := by simp
  mem a := by simp
  pc := rfl
  quiet := ⟨by simp, by simp, by simp, by simp, by simp, by simp⟩

theorem retire_writeF_onlyF (s : State) (rd : FReg) (v : Word) : OnlyF s (retire (writeF s rd v) (nextPc s)) rd v 0 where
  x r := by simp
  f r := by simp [readF_writeF]
  mem a := by simp
  pc := rfl
  quiet := ⟨by simp, by simp, by simp, by simp, by simp, by simp⟩

theorem retire_countNan_onlyF (s : State) (rd : FReg) (v : Word) :
    OnlyF s (retire (countNan (writeF s rd v)) (nextPc s)) rd v 1 where
  x r := by rw [readX_retire]; exact readX_writeF s rd r v
  f r := by rw [readF_retire, ← readF_writeF]; rfl
  mem a := by simp
  pc := rfl
  quiet := ⟨by simp, by simp, by simp, by simp, by simp, by simp⟩

/-- `completeX` in a state where `pc + 4` fits: one register written, `pc + 4`, nothing else. -/
theorem completeX_fits {s : State} (rd : XReg) (v : Word) (h : PcFits s) :
    ∃ t, completeX s rd v = .next t ∧ OnlyX s t rd v (nextPc s) :=
  ⟨_, complete_fits _ h, retire_writeX_onlyX s rd v _⟩

theorem completeF_fits {s : State} (rd : FReg) (v : Word) (h : PcFits s) :
    ∃ t, completeF s rd v = .next t ∧ OnlyF s t rd v 0 :=
  ⟨_, complete_fits _ h, retire_writeF_onlyF s rd v⟩

/-- The end of an arithmetic instruction: the result written, or a NaN drawn. -/
theorem completeArith_fits {s : State} (rd : FReg) (r : Option Word) (h : PcFits s) :
    ∃ t v, completeArith s rd r = .next t ∧
      ((r = some v ∧ OnlyF s t rd v 0) ∨ (r = none ∧ v = nanPattern s.nanDraws ∧ OnlyF s t rd v 1)) := by
  cases r with
  | some v => exact ⟨_, v, complete_fits _ h, .inl ⟨rfl, retire_writeF_onlyF s rd v⟩⟩
  | none => exact ⟨_, _, complete_fits _ h, .inr ⟨rfl, rfl, retire_countNan_onlyF s rd _⟩⟩

/-- The end of a store that succeeds. -/
theorem retire_setMem_onlyMem {s : State} {m : Memory} {a : Word} {n : Nat} {v : Word} (hn : n ≤ 4)
    (e : memWrite s.params s.mem a n v = .ok m) : OnlyMem s (retire (setMem s m) (nextPc s)) a n v where
  x r := by simp
  f r := by simp
  mem c := by simpa using memWrite_reads hn e c
  pc := rfl
  quiet := ⟨by simp, by simp, by simp, by simp, by simp, by simp⟩

/-! ### The fetch -/

theorem toNat_append {v w : Nat} (x : BitVec v) (y : BitVec w) : (x ++ y).toNat = x.toNat * 2 ^ w + y.toNat := by
  rw [BitVec.toNat_append, ← Nat.shiftLeft_add_eq_or_of_lt y.isLt, Nat.shiftLeft_eq]

/-- Four bytes read little-endian are the word they are appended to, the last byte highest (20_memory.md R34). -/
theorem word_of_bytes (b : Nat → Byte) : BitVec.ofNat 32 (leValue 4 b) = b 3 ++ b 2 ++ b 1 ++ b 0 := by
  apply BitVec.eq_of_toNat_eq
  have h0 := (b 0).isLt
  have h1 := (b 1).isLt
  have h2 := (b 2).isLt
  have h3 := (b 3).isLt
  simp only [leValue, Finset.sum_range_succ, Finset.sum_range_zero, toNat_append, BitVec.toNat_ofNat]
  omega

/-- The fetch of four mapped bytes is their word (20_memory.md R38). -/
theorem fetchWord_mapped {s : State} {b : Nat → Byte} (hf : AccessFits s.params s.pc 4)
    (hb : ∀ i : Nat, i < 4 → readByte s.mem (wrap32 (unsigned s.pc + i)) = some (b i)) :
    fetchWord s = .ok (b 3 ++ b 2 ++ b 1 ++ b 0) := by
  simp only [fetchWord, memRead_mapped hf hb, word_of_bytes]

/-- The fetch whose byte `j` is the first unmapped one fails there (60_exceptions.md R253). -/
theorem fetchWord_unmapped {s : State} {j : Nat} (hj : j < 4) (hf : AccessFits s.params s.pc (j + 1))
    (hb : ∀ i, i < j → readByte s.mem (wrap32 (unsigned s.pc + i)) ≠ none)
    (hn : readByte s.mem (wrap32 (unsigned s.pc + j)) = none) :
    fetchWord s = .error (.fetchError s.pc (wrap32 (unsigned s.pc + j))) := by
  simp only [fetchWord, memRead_unmapped hj hf hb hn, fetchFault]

end Sys2Proof.Machine
end

