-- ==== Sys2Proof/Laws/Exec.lean ====
section
/-! SUPPORT. What an instruction can do, said once: the inversion lemma of `exec`, and of `step`, that invariants and frames
are proved from. -/

namespace Sys2Proof.Machine

open Sys2Proof.Safety

/-- The state an instruction has produced before its step retires it, with every guard the kind of effect has. -/
inductive Effect (i : Instr) (s : State) : State → Prop where
  /-- Branches. -/
  | nothing : isControl i = true → Effect i s s
  /-- The instructions with an integer destination. -/
  | x (v : Word) : Effect i s (writeX s (destX i) v)
  /-- FCVT.S.W, FMV.W.X, and arithmetic without a NaN. -/
  | f (rd : FReg) (v : Word) : writesFloat i = true → Effect i s (writeF s rd v)
  /-- Arithmetic that makes a NaN. -/
  | nan (rd : FReg) : writesFloat i = true → isArithmetic i = true →
      Effect i s (countNan (writeF s rd (nanPattern s.nanDraws)))
  /-- Stores. -/
  | mem (a v : Word) (n : Nat) (m : Memory) : isStore i = true → n ≤ 4 → memWrite s.params s.mem a n v = .ok m →
      Effect i s (setMem s m)
  /-- Syscall exit. -/
  | exit : i = .ecall → Effect i s (haltExit s)
  /-- The syscalls that emit and return nothing. -/
  | emit (e : OutEvent) : i = .ecall → Effect i s (emit s e)
  /-- Syscall write. -/
  | write (e : OutEvent) (v : Word) : i = .ecall → Effect i s (writeX (Machine.emit s e) (destX i) v)

/-- Where a step retires: `pc + 4`, or the target a jump or branch signals (60_exceptions.md R262). -/
abbrev Target (i : Instr) (s : State) (t : Word) : Prop := isControl i = true ∨ (PcFits s ∧ t = nextPc s)

/-- The two ends of an instruction: a fault, or a step retired. -/
def Ends (i : Instr) (s : State) (r : Result) : Prop :=
  (∃ e, r = .next (haltError s e)) ∨ (∃ s' t, r = .next (retire s' t) ∧ Effect i s s' ∧ Target i s t)

theorem ends_raise (i : Instr) (s : State) (e : Fault) : Ends i s (raise s e) := .inl ⟨e, rfl⟩

theorem ends_complete {i : Instr} {s s' : State} (h : Effect i s s') : Ends i s (complete s s') := by
  rcases complete_cases s s' with ⟨hp, e⟩ | ⟨-, e⟩
  · exact .inr ⟨s', _, e, h, .inr ⟨hp, rfl⟩⟩
  · exact .inl ⟨_, e⟩

theorem ends_completeX {i : Instr} {s : State} {rd : XReg} {v : Word} (h : destX i = rd) :
    Ends i s (completeX s rd v) := h ▸ ends_complete (.x v)

theorem ends_completeF {i : Instr} {s : State} {rd : FReg} {v : Word} (h : writesFloat i = true) :
    Ends i s (completeF s rd v) := ends_complete (.f rd v h)

theorem ends_completeArith {i : Instr} {s : State} {rd : FReg} {r : Option Word} (h : writesFloat i = true)
    (h' : isArithmetic i = true) : Ends i s (completeArith s rd r) := by
  cases r with
  | some v => exact ends_complete (.f rd v h)
  | none => exact ends_complete (.nan rd h h')

theorem ends_completeLoad {i : Instr} {s : State} {rd : XReg} {ext : Nat → Word} {r : Except Fault Nat}
    (h : destX i = rd) : Ends i s (completeLoad s rd ext r) := by
  cases r with
  | ok v => exact ends_completeX h
  | error e => exact ends_raise i s e

theorem ends_completeStore {i : Instr} {s : State} {rs1 rs2 : XReg} {imm : BitVec 12} {n : Nat}
    (h : isStore i = true) (hn : n ≤ 4) : Ends i s (completeStore s (storedMemory s rs1 rs2 imm n)) := by
  unfold storedMemory
  cases effectiveAddress s rs1 imm with
  | error e => exact ends_raise i s e
  | ok a =>
    simp only
    cases hm : memWrite s.params s.mem a n (readX s rs2) with
    | ok m => exact ends_complete (.mem a _ n m h hn hm)
    | error e => exact ends_raise i s e

theorem ends_completeJump {i : Instr} {s : State} {rd : XReg} {t : Except Fault Word} (h : destX i = rd)
    (h' : isControl i = true) : Ends i s (completeJump s rd t) := by
  subst h
  unfold completeJump
  split
  · exact ends_raise i s _
  · rcases completeAt_cases s (writeX s (destX i) ‹_›) t with ⟨a, -, e⟩ | ⟨f, -, e⟩
    · exact .inr ⟨_, a, e, .x _, .inl h'⟩
    · exact .inl ⟨f, e⟩

theorem ends_branchIf {i : Instr} {s : State} {b : Bool} {off : BitVec 13} (h : isControl i = true) :
    Ends i s (branchIf s b off) := by
  unfold branchIf
  split
  · rcases completeAt_cases s s (branchTarget s off) with ⟨a, -, e⟩ | ⟨f, -, e⟩
    · exact .inr ⟨s, a, e, .nothing h, .inl h⟩
    · exact .inl ⟨f, e⟩
  · exact ends_complete (.nothing h)

theorem ends_ecall (s : State) : Ends .ecall s (execEcall s) := by
  unfold execEcall
  split
  · exact ends_complete (.exit rfl)
  split
  · exact ends_complete (.emit _ rfl)
  split
  · unfold sysPrintString
    split
    · exact ends_complete (.emit _ rfl)
    · exact ends_raise _ s _
  split
  · unfold sysWrite
    split
    · exact ends_complete (.write _ _ rfl)
    · exact ends_complete (.x _)
  · exact ends_complete (.emit _ rfl)

/-- THE INVERSION OF `exec`: every instruction, in every state, ends in a fault that changes control state alone or retires
one of the effects above. -/
theorem exec_ends (i : Instr) (s : State) : Ends i s (exec i s) := by
  cases i with
  | jal | jalr => exact ends_completeJump rfl rfl
  | beq | bne | blt | bge | bltu | bgeu => exact ends_branchIf rfl
  | lb | lh | lw | lbu | lhu => exact ends_completeLoad rfl
  | sb | sh | sw => exact ends_completeStore rfl (by decide)
  | faddS | fsubS | fmulS | fdivS => exact ends_completeArith rfl rfl
  | fcvtSW | fmvWX => exact ends_completeF rfl
  | ecall => exact ends_ecall s
  | ebreak => exact ends_raise _ s _
  | _ => exact ends_completeX rfl

/-- The inversion of `step`: a halted core stays, a fetch or decode fault changes control state alone, and otherwise the step
is `exec` of the fetched instruction. -/
theorem step_cases (s : State) :
    (s.status.isHalted = true ∧ step s = .next s) ∨
    (s.status.isHalted = false ∧ ∃ e, fetchDecode s = .error e ∧ step s = .next (haltError s e)) ∨
    (s.status.isHalted = false ∧ ∃ i, fetchDecode s = .ok i ∧ step s = exec i s) := by
  unfold step
  cases h : s.status.isHalted with
  | true => exact .inl ⟨rfl, rfl⟩
  | false =>
    cases h' : fetchDecode s with
    | error e => exact .inr (.inl ⟨rfl, e, rfl, rfl⟩)
    | ok i => exact .inr (.inr ⟨rfl, i, rfl, rfl⟩)

end Sys2Proof.Machine
end

