-- ==== Sys2Proof/Laws/Float.lean ====
section
/-! SUPPORT. Rounding to binary32, and what the operations of Machine/Float.lean read from a pattern, in the words claims are
made in (45_float.md R200, R201). -/

namespace Sys2Proof.Machine

open Sys2Proof.Safety

/-! ### The values of magnitude patterns -/

/-- `q` whole multiples of `2^k` units have the pattern `k * 2^23 + q`. -/
theorem unitsOf_index {k q : Nat} (hk : k = 0 ∨ 8388608 ≤ q) (hq : q ≤ 16777216) :
    unitsOf (k * 8388608 + q) = q * 2 ^ k := by
  unfold unitsOf
  rcases Nat.lt_or_ge q 8388608 with h | h
  · obtain rfl : k = 0 := by omega
    rw [if_pos (by omega)]
    simp; omega
  · rw [if_neg (by omega)]
    rcases Nat.lt_or_ge q 16777216 with h' | h'
    · rw [show (k * 8388608 + q) / 8388608 - 1 = k by omega,
        show (k * 8388608 + q) % 8388608 = q - 8388608 by omega, show 8388608 + (q - 8388608) = q by omega]
    · obtain rfl : q = 16777216 := by omega
      rw [show (k * 8388608 + 16777216) / 8388608 - 1 = k + 1 by omega,
        show (k * 8388608 + 16777216) % 8388608 = 0 by omega, pow_succ]
      ring

/-- Every pattern is such a `k * 2^23 + q`. -/
theorem index_of (m : Nat) : ∃ k q, m = k * 8388608 + q ∧ (k = 0 ∨ 8388608 ≤ q) ∧ q < 16777216 :=
  ⟨m / 8388608 - 1, m - (m / 8388608 - 1) * 8388608, by omega, by omega, by omega⟩

/-- Greater magnitude patterns are greater values. -/
theorem unitsOf_strictMono : StrictMono unitsOf :=
  strictMono_nat_of_lt_succ fun m => by
    obtain ⟨k, q, rfl, hk, hq⟩ := index_of m
    rw [Nat.add_assoc, unitsOf_index hk (by omega), unitsOf_index (by omega) (by omega)]
    exact Nat.mul_lt_mul_of_pos_right (Nat.lt_succ_self q) (by positivity)

/-! ### Rounding -/

/-- The two whole numbers `roundHalfEven` chooses from, and how. -/
theorem roundHalfEven_cases (n d : Nat) :
    (2 * (n % d) < d ∧ roundHalfEven n d = n / d) ∨ (d < 2 * (n % d) ∧ roundHalfEven n d = n / d + 1) ∨
    (2 * (n % d) = d ∧ roundHalfEven n d % 2 = 0 ∧
      (roundHalfEven n d = n / d ∨ roundHalfEven n d = n / d + 1)) := by
  unfold roundHalfEven
  simp only
  split
  · exact .inl ⟨‹_›, rfl⟩
  split
  · exact .inr (.inl ⟨‹_›, rfl⟩)
  · exact .inr (.inr ⟨by omega, by omega, by omega⟩)

/-- A pattern between whose value and whose successor's a fraction lies is nearer to it than any other but the successor. -/
theorem nearest_of_bracket {n d f m j : Nat} (hd : 0 < d) (h1 : unitsOf f * d ≤ n) (h2 : n < unitsOf (f + 1) * d)
    (hm : (m = f ∧ 2 * n ≤ (unitsOf f + unitsOf (f + 1)) * d) ∨
      (m = f + 1 ∧ (unitsOf f + unitsOf (f + 1)) * d ≤ 2 * n)) (hj : j ≠ m) :
    |((unitsOf m * d : Nat) : Int) - n| ≤ |((unitsOf j * d : Nat) : Int) - n| ∧
    (|((unitsOf m * d : Nat) : Int) - n| = |((unitsOf j * d : Nat) : Int) - n| →
      (unitsOf f + unitsOf (f + 1)) * d = 2 * n) := by
  have key : unitsOf j * d < unitsOf f * d ∨ j = f ∨ j = f + 1 ∨ unitsOf (f + 1) * d < unitsOf j * d := by
    rcases Nat.lt_trichotomy j f with h | h | h
    · exact .inl (Nat.mul_lt_mul_of_pos_right (unitsOf_strictMono h) hd)
    · exact .inr (.inl h)
    · rcases Nat.lt_trichotomy j (f + 1) with h' | h' | h'
      · omega
      · exact .inr (.inr (.inl h'))
      · exact .inr (.inr (.inr (Nat.mul_lt_mul_of_pos_right (unitsOf_strictMono h') hd)))
  rw [Nat.add_mul] at hm ⊢
  simp only [Int.abs_eq_natAbs]
  rcases hm with ⟨rfl, hm⟩ | ⟨rfl, hm⟩ <;> rcases key with h | rfl | rfl | h
  all_goals first
    | exact absurd rfl hj
    | omega

/-- The bracket, the choice and the parity of `roundUnits` below 2^128. -/
theorem roundUnits_bracket {n d : Nat} (hd : 0 < d) (h : n < 2 ^ 149 * 2 ^ 128 * d) :
    ∃ f, f < 0x7F800000 ∧ unitsOf f * d ≤ n ∧ n < unitsOf (f + 1) * d ∧
      ((roundUnits n d = f ∧ 2 * n ≤ (unitsOf f + unitsOf (f + 1)) * d) ∨
        (roundUnits n d = f + 1 ∧ (unitsOf f + unitsOf (f + 1)) * d ≤ 2 * n)) ∧
      ((unitsOf f + unitsOf (f + 1)) * d = 2 * n → roundUnits n d % 2 = 0) := by
  have hq0 : n / d < 2 ^ (149 + 128) := by
    rw [Nat.div_lt_iff_lt_mul hd, pow_add]; exact h
  obtain ⟨k, hk⟩ : ∃ k, k = scaleOf (n / d) := ⟨_, rfl⟩
  have hr : roundUnits n d = k * 8388608 + roundHalfEven n (d * 2 ^ k) := by
    rw [roundUnits, if_neg (by omega), hk]
  have hD : 0 < d * 2 ^ k := by positivity
  have hQ : n / (d * 2 ^ k) = n / d / 2 ^ k := (Nat.div_div_eq_div_mul n d _).symm
  have hk253 : k ≤ 253 := by
    rcases Nat.eq_zero_or_pos (n / d) with h0 | h0
    · rw [h0] at hk; simp [scaleOf] at hk; omega
    · have := (Nat.log2_lt (by omega)).2 hq0
      unfold scaleOf at hk; omega
  have hlt : n / (d * 2 ^ k) < 16777216 := by
    rw [hQ, Nat.div_lt_iff_lt_mul (by positivity)]
    rcases Nat.eq_zero_or_pos (n / d) with h0 | h0
    · rw [h0]; positivity
    · have := Nat.lt_log2_self (n := n / d)
      calc n / d < 2 ^ (Nat.log2 (n / d) + 1) := this
        _ ≤ 2 ^ (24 + k) := Nat.pow_le_pow_right (by omega) (by unfold scaleOf at hk; omega)
        _ = 16777216 * 2 ^ k := by rw [pow_add]; norm_num
  have hge : k = 0 ∨ 8388608 ≤ n / (d * 2 ^ k) := by
    rcases Nat.eq_zero_or_pos k with h0 | h0
    · exact .inl h0
    · refine .inr ?_
      rw [hQ, Nat.le_div_iff_mul_le (by positivity)]
      have hne : n / d ≠ 0 := by
        intro h'; rw [h'] at hk; simp [scaleOf] at hk; omega
      calc 8388608 * 2 ^ k = 2 ^ (23 + k) := by rw [pow_add]; norm_num
        _ = 2 ^ Nat.log2 (n / d) := by congr 1; unfold scaleOf at hk; omega
        _ ≤ n / d := Nat.log2_self_le hne
  have hu0 := unitsOf_index hge (by omega)
  have hu1 : unitsOf (k * 8388608 + n / (d * 2 ^ k) + 1) = (n / (d * 2 ^ k) + 1) * 2 ^ k := by
    rw [Nat.add_assoc]; exact unitsOf_index (by omega) (by omega)
  have hdiv := Nat.div_add_mod n (d * 2 ^ k)
  have hmod := Nat.mod_lt n hD
  have e0 : unitsOf (k * 8388608 + n / (d * 2 ^ k)) * d = d * 2 ^ k * (n / (d * 2 ^ k)) := by rw [hu0]; ring
  have e1 : unitsOf (k * 8388608 + n / (d * 2 ^ k) + 1) * d = d * 2 ^ k * (n / (d * 2 ^ k)) + d * 2 ^ k := by
    rw [hu1]; ring
  refine ⟨k * 8388608 + n / (d * 2 ^ k), by omega, by omega, by omega, ?_, ?_⟩
  · rw [Nat.add_mul, e0, e1, hr]
    rcases roundHalfEven_cases n (d * 2 ^ k) with ⟨h1, h2⟩ | ⟨h1, h2⟩ | ⟨h1, -, h2 | h2⟩ <;> rw [h2] <;> omega
  · rw [Nat.add_mul, e0, e1, hr]
    intro ht
    rcases roundHalfEven_cases n (d * 2 ^ k) with ⟨h1, h2⟩ | ⟨h1, h2⟩ | ⟨h1, h2, -⟩ <;> omega

/-- `roundUnits` rounds to nearest, ties to even, with gradual underflow and overflow to infinity (45_float.md R201). -/
theorem roundUnits_roundsTo {n d : Nat} (hd : 0 < d) : RoundsTo n d (roundUnits n d) := by
  have htop : unitsOf 0x7F800000 = 2 ^ 149 * 2 ^ 128 := by decide
  have htop' : unitsOf 0x7F7FFFFF = (2 ^ 24 - 1) * 2 ^ 253 := by decide
  unfold RoundsTo
  rcases Nat.lt_or_ge n (2 ^ 149 * 2 ^ 128 * d) with hn | hn
  · obtain ⟨f, hf, h1, h2, hm, ht⟩ := roundUnits_bracket hd hn
    split
    · rename_i hT
      have hf' : f = 0x7F7FFFFF := by
        by_contra hne
        have hle : unitsOf (f + 1) ≤ unitsOf 0x7F7FFFFF := unitsOf_strictMono.monotone (by omega)
        have := Nat.mul_le_mul_right d hle
        rw [htop'] at this
        omega
      subst hf'
      rw [show 0x7F7FFFFF + 1 = 0x7F800000 from rfl, htop, htop', Nat.add_mul] at hm ht
      rcases hm with ⟨hm, hle⟩ | ⟨hm, -⟩
      · have := ht (by omega)
        rw [hm] at this
        exact absurd this (by decide)
      · exact hm
    · rename_i hT
      refine ⟨?_, fun j hj hne => ?_⟩
      · rcases hm with ⟨hm, -⟩ | ⟨hm, hle⟩
        · rw [hm]; exact hf
        · rw [hm]
          by_contra hge
          obtain rfl : f = 0x7F7FFFFF := by omega
          rw [show 0x7F7FFFFF + 1 = 0x7F800000 from rfl, htop, htop', Nat.add_mul] at hle
          omega
      · obtain ⟨a, b⟩ := nearest_of_bracket hd h1 h2 hm hne
        exact ⟨a, fun h => ht (b h)⟩
  · rw [if_pos (by omega)]
    exact if_pos hn

/-- The rounded magnitude is at most the infinity's. -/
theorem roundUnits_le {n d : Nat} (hd : 0 < d) : roundUnits n d ≤ 0x7F800000 := by
  have := roundUnits_roundsTo (n := n) hd
  unfold RoundsTo at this
  split at this
  · exact this.le
  · exact this.1.le

/-- A value that has a pattern rounds to it. -/
theorem roundsTo_exact {m m' : Nat} (h : m < 0x7F800000) (h' : RoundsTo (unitsOf m) 1 m') : m' = m := by
  have htop' : unitsOf 0x7F7FFFFF = (2 ^ 24 - 1) * 2 ^ 253 := by decide
  have hle : unitsOf m ≤ unitsOf 0x7F7FFFFF := unitsOf_strictMono.monotone (by omega)
  rw [RoundsTo, if_neg (by omega)] at h'
  by_contra hne
  have := (h'.2 m h (Ne.symm hne)).1
  simp only [Nat.mul_one, sub_self, abs_zero, abs_nonpos_iff] at this
  exact hne (unitsOf_strictMono.injective (by omega))

/-! ### Patterns and data -/

theorem magnitude_fields (v : Word) : magnitude v = exponentField v * 8388608 + fractionField v := by
  simp only [magnitude, exponentField, fractionField, BitVec.extractLsb'_toNat, Nat.shiftRight_eq_div_pow]
  omega

theorem exponentField_lt (v : Word) : exponentField v < 256 := (v.extractLsb' 23 8).isLt

theorem fractionField_lt (v : Word) : fractionField v < 8388608 := (v.extractLsb' 0 23).isLt

theorem datum_finite {v : Word} (h : IsFinite v) : datum v = .finite (sign v) (unitsOf (magnitude v)) := by
  have := magnitude_fields v
  have := fractionField_lt v
  have hm : magnitude v < 0x7F800000 := h
  unfold datum unitsOf
  rw [if_neg (by omega)]
  split
  · rw [if_pos (by omega), show magnitude v % 8388608 = fractionField v by omega]; rfl
  · rw [if_neg (by omega), show magnitude v % 8388608 = fractionField v by omega,
      show magnitude v / 8388608 = exponentField v by omega]; rfl

theorem datum_infinite {v : Word} (h : IsInfinite v) : datum v = .inf (sign v) := by
  have := magnitude_fields v
  have := fractionField_lt v
  have hm : magnitude v = 0x7F800000 := h
  unfold datum
  rw [if_pos (by omega), if_pos (by omega)]; rfl

theorem datum_nan {v : Word} (h : IsNaN v) : datum v = .nan := by
  have := magnitude_fields v
  have := fractionField_lt v
  have := exponentField_lt v
  have hm : 0x7F800000 < magnitude v := h
  unfold datum
  rw [if_pos (by omega), if_neg (by omega)]

/-- Every pattern is finite, infinite or a NaN. -/
theorem datum_cases (v : Word) : IsFinite v ∨ IsInfinite v ∨ IsNaN v := by
  simp only [IsFinite, IsInfinite, IsNaN]; omega

theorem pack_toNat {neg : Bool} {m : Nat} (h : m < 2147483648) :
    (pack neg m).toNat = (if neg then 2147483648 else 0) + m := by
  simp only [pack, BitVec.toNat_ofNat]
  split <;> omega

@[simp] theorem magnitude_pack {neg : Bool} {m : Nat} (h : m < 2147483648) : magnitude (pack neg m) = m := by
  rw [magnitude, pack_toNat h]
  split <;> omega

theorem sign_eq_decide (v : Word) : sign v = decide (2147483648 ≤ v.toNat) := by
  rw [sign, ← BitVec.msb_eq_getLsbD_last, BitVec.msb_eq_decide]

@[simp] theorem sign_pack {neg : Bool} {m : Nat} (h : m < 2147483648) : sign (pack neg m) = neg := by
  rw [sign_eq_decide, pack_toNat h]
  cases neg <;> simp <;> omega

theorem pack_infinity (neg : Bool) : pack neg infMagnitude = infinity neg := by cases neg <;> rfl

theorem pack_zero (neg : Bool) : pack neg 0 = zero neg := by cases neg <;> rfl

theorem signedUnits_value (v : Word) : signedUnits (sign v) (unitsOf (magnitude v)) = value v := rfl

/-- The pattern packed from a rounded magnitude has the sign and the magnitude it was made of. -/
theorem pack_rounded {neg : Bool} {n d : Nat} (hd : 0 < d) : Rounded neg n d (pack neg (roundUnits n d)) := by
  have := roundUnits_le (n := n) hd
  refine ⟨sign_pack (by omega), ?_⟩
  rw [magnitude_pack (by omega)]
  exact roundUnits_roundsTo hd

/-- Whatever the free values are, a drawn NaN is a NaN (45_float.md R203). -/
theorem nanPattern_isNaN (k : Nat) : IsNaN (nanPattern k) := by
  have := (Config.nanFraction k).isLt
  have h : (BitVec.ofNat 23 ((Config.nanFraction k).val + 1)).toNat = (Config.nanFraction k).val + 1 := by
    rw [BitVec.toNat_ofNat]; omega
  simp only [IsNaN, magnitude, nanPattern, toNat_append, h]
  split <;> (simp; omega)

end Sys2Proof.Machine
end

