-- ==== Sys2Proof/Laws/PerInstr.lean ====
section
/-! SUPPORT. The words an encoded instruction agrees with under its row's mask, and the family EncodesRow: the word of an
instruction matches that instruction's row of the opcode table (30_encoding.md R68), one lemma for each constructor. -/

namespace Sys2Proof

/-! ### Masking a word of each layout keeps the selector fields -/

theorem encR_and (a a' : BitVec 7) (b b' c c' : BitVec 5) (d d' : BitVec 3) (e e' : BitVec 5) (f f' : BitVec 7) :
    encR a b c d e f &&& encR a' b' c' d' e' f' = encR (a &&& a') (b &&& b') (c &&& c') (d &&& d') (e &&& e') (f &&& f') := by
  apply BitVec.eq_of_getLsbD_eq
  intro i hi
  simp only [encR, BitVec.getLsbD_and, BitVec.getLsbD_append]
  split_ifs <;> rfl

theorem and_ones3 (x : BitVec 3) : x &&& 7#3 = x := by revert x; decide

theorem and_ones5 (x : BitVec 5) : x &&& 31#5 = x := by revert x; decide

theorem and_ones7 (x : BitVec 7) : x &&& 127#7 = x := by revert x; decide

section
variable (f7 : BitVec 7) (r2 r1 : BitVec 5) (f3 : BitVec 3) (rd : BitVec 5) (op : BitVec 7)

/-- Rows of formats R, I-shift and R-FP-CMP. -/
theorem encR_maskR : encR f7 r2 r1 f3 rd op &&& 0xFE00707F#32 = encR f7 0#5 0#5 f3 0#5 op := by
  rw [show 0xFE00707F#32 = encR 0x7F#7 0#5 0#5 7#3 0#5 0x7F#7 by decide, encR_and]
  simp [and_ones3, and_ones7]

/-- Rows of format R-FP. -/
theorem encR_maskFp : encR f7 r2 r1 f3 rd op &&& 0xFE00007F#32 = encR f7 0#5 0#5 0#3 0#5 op := by
  rw [show 0xFE00007F#32 = encR 0x7F#7 0#5 0#5 0#3 0#5 0x7F#7 by decide, encR_and]
  simp [and_ones7]

/-- Rows of format R-FP-CVT with an `rm` field. -/
theorem encR_maskCvt : encR f7 r2 r1 f3 rd op &&& 0xFFF0007F#32 = encR f7 r2 0#5 0#3 0#5 op := by
  rw [show 0xFFF0007F#32 = encR 0x7F#7 0x1F#5 0#5 0#3 0#5 0x7F#7 by decide, encR_and]
  simp [and_ones5, and_ones7]

/-- Rows of format R-FP-CVT without one. -/
theorem encR_maskMv : encR f7 r2 r1 f3 rd op &&& 0xFFF0707F#32 = encR f7 r2 0#5 f3 0#5 op := by
  rw [show 0xFFF0707F#32 = encR 0x7F#7 0x1F#5 0#5 7#3 0#5 0x7F#7 by decide, encR_and]
  simp [and_ones3, and_ones5, and_ones7]
end

/-- Rows that fix funct3 and the opcode: formats I, S and B. -/
theorem mask_funct3 (w : Word) : w &&& 0x0000707F#32 = encR 0#7 0#5 0#5 (funct3Of w) 0#5 (opcodeOf w) := by
  conv => lhs; rw [← encR_fields w]
  rw [show 0x0000707F#32 = encR 0#7 0#5 0#5 7#3 0#5 0x7F#7 by decide, encR_and]
  simp [and_ones3, and_ones7]

/-- Rows that fix the opcode: formats U and J. -/
theorem mask_opcode (w : Word) : w &&& 0x0000007F#32 = encR 0#7 0#5 0#5 0#3 0#5 (opcodeOf w) := by
  conv => lhs; rw [← encR_fields w]
  rw [show 0x0000007F#32 = encR 0#7 0#5 0#5 0#3 0#5 0x7F#7 by decide, encR_and]
  simp [and_ones7]

namespace Laws.EncodesRow

/-- The word of the instruction matches the row of its mnemonic. -/
def Statement (i : Instr) : Prop := encode i &&& i.mnemonic.row.mask = i.mnemonic.row.value

theorem add (rd rs1 rs2 : XReg) : Statement (.add rd rs1 rs2) := encR_maskR _ _ _ _ _ _

theorem sub (rd rs1 rs2 : XReg) : Statement (.sub rd rs1 rs2) := encR_maskR _ _ _ _ _ _

theorem and (rd rs1 rs2 : XReg) : Statement (.and rd rs1 rs2) := encR_maskR _ _ _ _ _ _

theorem or (rd rs1 rs2 : XReg) : Statement (.or rd rs1 rs2) := encR_maskR _ _ _ _ _ _

theorem xor (rd rs1 rs2 : XReg) : Statement (.xor rd rs1 rs2) := encR_maskR _ _ _ _ _ _

theorem sll (rd rs1 rs2 : XReg) : Statement (.sll rd rs1 rs2) := encR_maskR _ _ _ _ _ _

theorem srl (rd rs1 rs2 : XReg) : Statement (.srl rd rs1 rs2) := encR_maskR _ _ _ _ _ _

theorem sra (rd rs1 rs2 : XReg) : Statement (.sra rd rs1 rs2) := encR_maskR _ _ _ _ _ _

theorem slt (rd rs1 rs2 : XReg) : Statement (.slt rd rs1 rs2) := encR_maskR _ _ _ _ _ _

theorem sltu (rd rs1 rs2 : XReg) : Statement (.sltu rd rs1 rs2) := encR_maskR _ _ _ _ _ _

theorem addi (rd rs1 : XReg) (imm : BitVec 12) : Statement (.addi rd rs1 imm) := (mask_funct3 _).trans (by simp only [encode, funct3Of_encI, opcodeOf_encI]; rfl)

theorem andi (rd rs1 : XReg) (imm : BitVec 12) : Statement (.andi rd rs1 imm) := (mask_funct3 _).trans (by simp only [encode, funct3Of_encI, opcodeOf_encI]; rfl)

theorem ori (rd rs1 : XReg) (imm : BitVec 12) : Statement (.ori rd rs1 imm) := (mask_funct3 _).trans (by simp only [encode, funct3Of_encI, opcodeOf_encI]; rfl)

theorem xori (rd rs1 : XReg) (imm : BitVec 12) : Statement (.xori rd rs1 imm) := (mask_funct3 _).trans (by simp only [encode, funct3Of_encI, opcodeOf_encI]; rfl)

theorem slli (rd rs1 : XReg) (shamt : BitVec 5) : Statement (.slli rd rs1 shamt) := encR_maskR _ _ _ _ _ _

theorem srli (rd rs1 : XReg) (shamt : BitVec 5) : Statement (.srli rd rs1 shamt) := encR_maskR _ _ _ _ _ _

theorem srai (rd rs1 : XReg) (shamt : BitVec 5) : Statement (.srai rd rs1 shamt) := encR_maskR _ _ _ _ _ _

theorem slti (rd rs1 : XReg) (imm : BitVec 12) : Statement (.slti rd rs1 imm) := (mask_funct3 _).trans (by simp only [encode, funct3Of_encI, opcodeOf_encI]; rfl)

theorem sltiu (rd rs1 : XReg) (imm : BitVec 12) : Statement (.sltiu rd rs1 imm) := (mask_funct3 _).trans (by simp only [encode, funct3Of_encI, opcodeOf_encI]; rfl)

theorem mul (rd rs1 rs2 : XReg) : Statement (.mul rd rs1 rs2) := encR_maskR _ _ _ _ _ _

theorem mulh (rd rs1 rs2 : XReg) : Statement (.mulh rd rs1 rs2) := encR_maskR _ _ _ _ _ _

theorem mulhsu (rd rs1 rs2 : XReg) : Statement (.mulhsu rd rs1 rs2) := encR_maskR _ _ _ _ _ _

theorem mulhu (rd rs1 rs2 : XReg) : Statement (.mulhu rd rs1 rs2) := encR_maskR _ _ _ _ _ _

theorem div (rd rs1 rs2 : XReg) : Statement (.div rd rs1 rs2) := encR_maskR _ _ _ _ _ _

theorem divu (rd rs1 rs2 : XReg) : Statement (.divu rd rs1 rs2) := encR_maskR _ _ _ _ _ _

theorem rem (rd rs1 rs2 : XReg) : Statement (.rem rd rs1 rs2) := encR_maskR _ _ _ _ _ _

theorem remu (rd rs1 rs2 : XReg) : Statement (.remu rd rs1 rs2) := encR_maskR _ _ _ _ _ _

theorem lb (rd rs1 : XReg) (imm : BitVec 12) : Statement (.lb rd rs1 imm) := (mask_funct3 _).trans (by simp only [encode, funct3Of_encI, opcodeOf_encI]; rfl)

theorem lh (rd rs1 : XReg) (imm : BitVec 12) : Statement (.lh rd rs1 imm) := (mask_funct3 _).trans (by simp only [encode, funct3Of_encI, opcodeOf_encI]; rfl)

theorem lw (rd rs1 : XReg) (imm : BitVec 12) : Statement (.lw rd rs1 imm) := (mask_funct3 _).trans (by simp only [encode, funct3Of_encI, opcodeOf_encI]; rfl)

theorem lbu (rd rs1 : XReg) (imm : BitVec 12) : Statement (.lbu rd rs1 imm) := (mask_funct3 _).trans (by simp only [encode, funct3Of_encI, opcodeOf_encI]; rfl)

theorem lhu (rd rs1 : XReg) (imm : BitVec 12) : Statement (.lhu rd rs1 imm) := (mask_funct3 _).trans (by simp only [encode, funct3Of_encI, opcodeOf_encI]; rfl)

theorem sb (rs1 rs2 : XReg) (imm : BitVec 12) : Statement (.sb rs1 rs2 imm) := (mask_funct3 _).trans (by simp only [encode, funct3Of_encS, opcodeOf_encS]; rfl)

theorem sh (rs1 rs2 : XReg) (imm : BitVec 12) : Statement (.sh rs1 rs2 imm) := (mask_funct3 _).trans (by simp only [encode, funct3Of_encS, opcodeOf_encS]; rfl)

theorem sw (rs1 rs2 : XReg) (imm : BitVec 12) : Statement (.sw rs1 rs2 imm) := (mask_funct3 _).trans (by simp only [encode, funct3Of_encS, opcodeOf_encS]; rfl)

theorem lui (rd : XReg) (imm : Word) : Statement (.lui rd imm) := (mask_opcode _).trans (by simp only [encode, opcodeOf_encU]; rfl)

theorem auipc (rd : XReg) (imm : Word) : Statement (.auipc rd imm) := (mask_opcode _).trans (by simp only [encode, opcodeOf_encU]; rfl)

theorem jal (rd : XReg) (off : BitVec 21) : Statement (.jal rd off) := (mask_opcode _).trans (by simp only [encode, opcodeOf_encJ]; rfl)

theorem jalr (rd rs1 : XReg) (imm : BitVec 12) : Statement (.jalr rd rs1 imm) := (mask_funct3 _).trans (by simp only [encode, funct3Of_encI, opcodeOf_encI]; rfl)

theorem beq (rs1 rs2 : XReg) (off : BitVec 13) : Statement (.beq rs1 rs2 off) := (mask_funct3 _).trans (by simp only [encode, funct3Of_encB, opcodeOf_encB]; rfl)

theorem bne (rs1 rs2 : XReg) (off : BitVec 13) : Statement (.bne rs1 rs2 off) := (mask_funct3 _).trans (by simp only [encode, funct3Of_encB, opcodeOf_encB]; rfl)

theorem blt (rs1 rs2 : XReg) (off : BitVec 13) : Statement (.blt rs1 rs2 off) := (mask_funct3 _).trans (by simp only [encode, funct3Of_encB, opcodeOf_encB]; rfl)

theorem bge (rs1 rs2 : XReg) (off : BitVec 13) : Statement (.bge rs1 rs2 off) := (mask_funct3 _).trans (by simp only [encode, funct3Of_encB, opcodeOf_encB]; rfl)

theorem bltu (rs1 rs2 : XReg) (off : BitVec 13) : Statement (.bltu rs1 rs2 off) := (mask_funct3 _).trans (by simp only [encode, funct3Of_encB, opcodeOf_encB]; rfl)

theorem bgeu (rs1 rs2 : XReg) (off : BitVec 13) : Statement (.bgeu rs1 rs2 off) := (mask_funct3 _).trans (by simp only [encode, funct3Of_encB, opcodeOf_encB]; rfl)

theorem faddS (rd rs1 rs2 : FReg) (rm : BitVec 3) : Statement (.faddS rd rs1 rs2 rm) := encR_maskFp _ _ _ _ _ _

theorem fsubS (rd rs1 rs2 : FReg) (rm : BitVec 3) : Statement (.fsubS rd rs1 rs2 rm) := encR_maskFp _ _ _ _ _ _

theorem fmulS (rd rs1 rs2 : FReg) (rm : BitVec 3) : Statement (.fmulS rd rs1 rs2 rm) := encR_maskFp _ _ _ _ _ _

theorem fdivS (rd rs1 rs2 : FReg) (rm : BitVec 3) : Statement (.fdivS rd rs1 rs2 rm) := encR_maskFp _ _ _ _ _ _

theorem fcvtWS (rd : XReg) (rs1 : FReg) (rm : BitVec 3) : Statement (.fcvtWS rd rs1 rm) := encR_maskCvt _ _ _ _ _ _

theorem fcvtSW (rd : FReg) (rs1 : XReg) (rm : BitVec 3) : Statement (.fcvtSW rd rs1 rm) := encR_maskCvt _ _ _ _ _ _

theorem feqS (rd : XReg) (rs1 rs2 : FReg) : Statement (.feqS rd rs1 rs2) := encR_maskR _ _ _ _ _ _

theorem fltS (rd : XReg) (rs1 rs2 : FReg) : Statement (.fltS rd rs1 rs2) := encR_maskR _ _ _ _ _ _

theorem fleS (rd : XReg) (rs1 rs2 : FReg) : Statement (.fleS rd rs1 rs2) := encR_maskR _ _ _ _ _ _

theorem fmvXW (rd : XReg) (rs1 : FReg) : Statement (.fmvXW rd rs1) := encR_maskMv _ _ _ _ _ _

theorem fmvWX (rd : FReg) (rs1 : XReg) : Statement (.fmvWX rd rs1) := encR_maskMv _ _ _ _ _ _

theorem ecall : Statement .ecall := rfl

theorem ebreak : Statement .ebreak := rfl

end Laws.EncodesRow

end Sys2Proof
end

