-- ==== Sys2Proof/Tests/Slice0.lean ====
section
/-! SUPPORT. The model's own tests: the well-formedness smoke test, the decoding of a word of every row written out field by
field, single steps from the vectors of spec/95_test_vectors.md, and a witness for the hypotheses of each statement. Every
expected result is copied from the named section of that file. -/

namespace Sys2Proof.Tests

open Sys2Proof.Machine Sys2Proof.Safety

/-! ### Helpers -/

/-- The state after reset with the word `w` at 0x00400000 and the pc there. -/
def machine (w : Word) : State := placeAtPc { State.reset with pc := 0x00400000#32 } w

/-- The state after one step. -/
def after (s : State) : State :=
  match step s with
  | .next t => t
  | .fault _ => s
  | .refused _ => s

/-- `w` with `x1 = a`, `x2 = b`. -/
def withX (w a b : Word) : State := writeX (writeX (machine w) 1#5 a) 2#5 b

/-- `w` with `f1 = a`, `f2 = b`. -/
def withF (w a b : Word) : State := writeF (writeF (machine w) 1#5 a) 2#5 b

/-- Bytes at consecutive addresses. -/
def place (s : State) (a : Word) : List Byte → State
  | [] => s
  | b :: bs => place (setMem s (writeByte s.mem a b)) (a + 1#32) bs

/-- The data of 95_test_vectors.md 2.5. -/
def withData (w a b : Word) : State := place (withX w a b) 0x10010000#32 [0x80#8, 0xFF#8, 0x34#8, 0x92#8]

/-- The data of 95_test_vectors.md 2.9, with the syscall registers. -/
def syscall (a7 a0 a1 a2 : Word) : State :=
  place (writeX (writeX (writeX (writeX (machine 0x00000073#32) 17#5 a7) 10#5 a0) 11#5 a1) 12#5 a2) 0x10010000#32
    [0x48#8, 0x69#8, 0x0A#8, 0x00#8, 0x41#8, 0x42#8]

/-- The state with WRAP false. -/
def noWrap (s : State) : State :=
  { s with params := { s.params with wrap := false } }

/-! ### WellFormed refuses, check by check (30_encoding.md R55, R57, R69) -/

theorem test_wf_refuses_odd_branch :
    (Instr.beq 1#5 2#5 3#13).wellFormed = false ∧ (Instr.bne 1#5 2#5 1#13).wellFormed = false ∧
    (Instr.blt 1#5 2#5 0x1FFF#13).wellFormed = false ∧ (Instr.bge 1#5 2#5 0xFFF#13).wellFormed = false ∧
    (Instr.bltu 1#5 2#5 5#13).wellFormed = false ∧ (Instr.bgeu 1#5 2#5 7#13).wellFormed = false := by decide

theorem test_wf_refuses_odd_jump : (Instr.jal 1#5 0x1FFFFF#21).wellFormed = false := by decide

theorem test_wf_refuses_low_bits_of_upper :
    (Instr.lui 1#5 0x12345001#32).wellFormed = false ∧ (Instr.auipc 1#5 0x00000800#32).wellFormed = false := by decide

theorem test_wf_accepts_even_and_upper :
    (Instr.beq 1#5 2#5 0x1000#13).wellFormed = true ∧ (Instr.jal 1#5 0x100000#21).wellFormed = true ∧
    (Instr.lui 1#5 0xFFFFF000#32).wellFormed = true := by decide

/-! ### A word of every row, its fields written out from 30_encoding.md R51 to R57 and R71 to R75 -/

theorem test_decode_op :
    decodeWord (0b0000000#7 ++ 0b01001#5 ++ 0b10001#5 ++ 0b000#3 ++ 0b00011#5 ++ 0b0110011#7) = .ok (.add 3#5 17#5 9#5) ∧
    decodeWord (0b0100000#7 ++ 0b01110#5 ++ 0b10011#5 ++ 0b000#3 ++ 0b00100#5 ++ 0b0110011#7) = .ok (.sub 4#5 19#5 14#5) ∧
    decodeWord (0b0000000#7 ++ 0b10011#5 ++ 0b10101#5 ++ 0b111#3 ++ 0b00101#5 ++ 0b0110011#7) = .ok (.and 5#5 21#5 19#5) ∧
    decodeWord (0b0000000#7 ++ 0b11000#5 ++ 0b10111#5 ++ 0b110#3 ++ 0b00110#5 ++ 0b0110011#7) = .ok (.or 6#5 23#5 24#5) ∧
    decodeWord (0b0000000#7 ++ 0b11101#5 ++ 0b11001#5 ++ 0b100#3 ++ 0b00111#5 ++ 0b0110011#7) = .ok (.xor 7#5 25#5 29#5) ∧
    decodeWord (0b0000000#7 ++ 0b00010#5 ++ 0b11011#5 ++ 0b001#3 ++ 0b01000#5 ++ 0b0110011#7) = .ok (.sll 8#5 27#5 2#5) ∧
    decodeWord (0b0000000#7 ++ 0b00111#5 ++ 0b11101#5 ++ 0b101#3 ++ 0b01001#5 ++ 0b0110011#7) = .ok (.srl 9#5 29#5 7#5) ∧
    decodeWord (0b0100000#7 ++ 0b01100#5 ++ 0b11111#5 ++ 0b101#3 ++ 0b01010#5 ++ 0b0110011#7) = .ok (.sra 10#5 31#5 12#5) ∧
    decodeWord (0b0000000#7 ++ 0b10001#5 ++ 0b00001#5 ++ 0b010#3 ++ 0b01011#5 ++ 0b0110011#7) = .ok (.slt 11#5 1#5 17#5) ∧
    decodeWord (0b0000000#7 ++ 0b10110#5 ++ 0b00011#5 ++ 0b011#3 ++ 0b01100#5 ++ 0b0110011#7) = .ok (.sltu 12#5 3#5 22#5) := by decide

theorem test_decode_op_imm :
    decodeWord (0b101001010011#12 ++ 0b10001#5 ++ 0b000#3 ++ 0b00011#5 ++ 0b0010011#7) = .ok (.addi 3#5 17#5 0b101001010011#12) ∧
    decodeWord (0b101001010100#12 ++ 0b10011#5 ++ 0b111#3 ++ 0b00100#5 ++ 0b0010011#7) = .ok (.andi 4#5 19#5 0b101001010100#12) ∧
    decodeWord (0b101001010101#12 ++ 0b10101#5 ++ 0b110#3 ++ 0b00101#5 ++ 0b0010011#7) = .ok (.ori 5#5 21#5 0b101001010101#12) ∧
    decodeWord (0b101001010110#12 ++ 0b10111#5 ++ 0b100#3 ++ 0b00110#5 ++ 0b0010011#7) = .ok (.xori 6#5 23#5 0b101001010110#12) ∧
    decodeWord (0b101001010111#12 ++ 0b11001#5 ++ 0b010#3 ++ 0b00111#5 ++ 0b0010011#7) = .ok (.slti 7#5 25#5 0b101001010111#12) ∧
    decodeWord (0b101001011000#12 ++ 0b11011#5 ++ 0b011#3 ++ 0b01000#5 ++ 0b0010011#7) = .ok (.sltiu 8#5 27#5 0b101001011000#12) ∧
    decodeWord (0b0000000#7 ++ 0b00111#5 ++ 0b11101#5 ++ 0b001#3 ++ 0b01001#5 ++ 0b0010011#7) = .ok (.slli 9#5 29#5 7#5) ∧
    decodeWord (0b0000000#7 ++ 0b01100#5 ++ 0b11111#5 ++ 0b101#3 ++ 0b01010#5 ++ 0b0010011#7) = .ok (.srli 10#5 31#5 12#5) ∧
    decodeWord (0b0100000#7 ++ 0b10001#5 ++ 0b00001#5 ++ 0b101#3 ++ 0b01011#5 ++ 0b0010011#7) = .ok (.srai 11#5 1#5 17#5) := by decide

theorem test_decode_muldiv :
    decodeWord (0b0000001#7 ++ 0b01001#5 ++ 0b10001#5 ++ 0b000#3 ++ 0b00011#5 ++ 0b0110011#7) = .ok (.mul 3#5 17#5 9#5) ∧
    decodeWord (0b0000001#7 ++ 0b01110#5 ++ 0b10011#5 ++ 0b001#3 ++ 0b00100#5 ++ 0b0110011#7) = .ok (.mulh 4#5 19#5 14#5) ∧
    decodeWord (0b0000001#7 ++ 0b10011#5 ++ 0b10101#5 ++ 0b010#3 ++ 0b00101#5 ++ 0b0110011#7) = .ok (.mulhsu 5#5 21#5 19#5) ∧
    decodeWord (0b0000001#7 ++ 0b11000#5 ++ 0b10111#5 ++ 0b011#3 ++ 0b00110#5 ++ 0b0110011#7) = .ok (.mulhu 6#5 23#5 24#5) ∧
    decodeWord (0b0000001#7 ++ 0b11101#5 ++ 0b11001#5 ++ 0b100#3 ++ 0b00111#5 ++ 0b0110011#7) = .ok (.div 7#5 25#5 29#5) ∧
    decodeWord (0b0000001#7 ++ 0b00010#5 ++ 0b11011#5 ++ 0b101#3 ++ 0b01000#5 ++ 0b0110011#7) = .ok (.divu 8#5 27#5 2#5) ∧
    decodeWord (0b0000001#7 ++ 0b00111#5 ++ 0b11101#5 ++ 0b110#3 ++ 0b01001#5 ++ 0b0110011#7) = .ok (.rem 9#5 29#5 7#5) ∧
    decodeWord (0b0000001#7 ++ 0b01100#5 ++ 0b11111#5 ++ 0b111#3 ++ 0b01010#5 ++ 0b0110011#7) = .ok (.remu 10#5 31#5 12#5) := by decide

theorem test_decode_load :
    decodeWord (0b101001010011#12 ++ 0b10001#5 ++ 0b000#3 ++ 0b00011#5 ++ 0b0000011#7) = .ok (.lb 3#5 17#5 0b101001010011#12) ∧
    decodeWord (0b101001010100#12 ++ 0b10011#5 ++ 0b001#3 ++ 0b00100#5 ++ 0b0000011#7) = .ok (.lh 4#5 19#5 0b101001010100#12) ∧
    decodeWord (0b101001010101#12 ++ 0b10101#5 ++ 0b010#3 ++ 0b00101#5 ++ 0b0000011#7) = .ok (.lw 5#5 21#5 0b101001010101#12) ∧
    decodeWord (0b101001010110#12 ++ 0b10111#5 ++ 0b100#3 ++ 0b00110#5 ++ 0b0000011#7) = .ok (.lbu 6#5 23#5 0b101001010110#12) ∧
    decodeWord (0b101001010111#12 ++ 0b11001#5 ++ 0b101#3 ++ 0b00111#5 ++ 0b0000011#7) = .ok (.lhu 7#5 25#5 0b101001010111#12) := by decide

theorem test_decode_store :
    decodeWord (0b1011001#7 ++ 0b01001#5 ++ 0b10001#5 ++ 0b000#3 ++ 0b00101#5 ++ 0b0100011#7) = .ok (.sb 17#5 9#5 0b101100100101#12) ∧
    decodeWord (0b1011001#7 ++ 0b01110#5 ++ 0b10011#5 ++ 0b001#3 ++ 0b00110#5 ++ 0b0100011#7) = .ok (.sh 19#5 14#5 0b101100100110#12) ∧
    decodeWord (0b1011001#7 ++ 0b10011#5 ++ 0b10101#5 ++ 0b010#3 ++ 0b00111#5 ++ 0b0100011#7) = .ok (.sw 21#5 19#5 0b101100100111#12) := by decide

theorem test_decode_upper_and_jumps :
    decodeWord (0b10100101101001010011#20 ++ 0b00011#5 ++ 0b0110111#7) = .ok (.lui 3#5 0xA5A53000#32) ∧
    decodeWord (0b10100101101001010011#20 ++ 0b00100#5 ++ 0b0010111#7) = .ok (.auipc 4#5 0xA5A53000#32) ∧
    decodeWord (0b1#1 ++ 0b0100110101#10 ++ 0b1#1 ++ 0b10100101#8 ++ 0b00101#5 ++ 0b1101111#7) = .ok (.jal 5#5 0b110100101101001101010#21) ∧
    decodeWord (0b101001010110#12 ++ 0b10111#5 ++ 0b000#3 ++ 0b00110#5 ++ 0b1100111#7) = .ok (.jalr 6#5 23#5 0b101001010110#12) := by decide

theorem test_decode_branch :
    decodeWord (0b1#1 ++ 0b010011#6 ++ 0b01001#5 ++ 0b10001#5 ++ 0b000#3 ++ 0b0101#4 ++ 0b1#1 ++ 0b1100011#7) = .ok (.beq 17#5 9#5 0b1101001101010#13) ∧
    decodeWord (0b1#1 ++ 0b010011#6 ++ 0b01110#5 ++ 0b10011#5 ++ 0b001#3 ++ 0b0110#4 ++ 0b1#1 ++ 0b1100011#7) = .ok (.bne 19#5 14#5 0b1101001101100#13) ∧
    decodeWord (0b1#1 ++ 0b010011#6 ++ 0b10011#5 ++ 0b10101#5 ++ 0b100#3 ++ 0b0111#4 ++ 0b1#1 ++ 0b1100011#7) = .ok (.blt 21#5 19#5 0b1101001101110#13) ∧
    decodeWord (0b1#1 ++ 0b010011#6 ++ 0b11000#5 ++ 0b10111#5 ++ 0b101#3 ++ 0b1000#4 ++ 0b1#1 ++ 0b1100011#7) = .ok (.bge 23#5 24#5 0b1101001110000#13) ∧
    decodeWord (0b1#1 ++ 0b010011#6 ++ 0b11101#5 ++ 0b11001#5 ++ 0b110#3 ++ 0b1001#4 ++ 0b1#1 ++ 0b1100011#7) = .ok (.bltu 25#5 29#5 0b1101001110010#13) ∧
    decodeWord (0b1#1 ++ 0b010011#6 ++ 0b00010#5 ++ 0b11011#5 ++ 0b111#3 ++ 0b1010#4 ++ 0b1#1 ++ 0b1100011#7) = .ok (.bgeu 27#5 2#5 0b1101001110100#13) := by decide

theorem test_decode_float_arithmetic :
    decodeWord (0b0000000#7 ++ 0b01001#5 ++ 0b10001#5 ++ 0b111#3 ++ 0b00011#5 ++ 0b1010011#7) = .ok (.faddS 3#5 17#5 9#5 7#3) ∧
    decodeWord (0b0000100#7 ++ 0b01110#5 ++ 0b10011#5 ++ 0b111#3 ++ 0b00100#5 ++ 0b1010011#7) = .ok (.fsubS 4#5 19#5 14#5 7#3) ∧
    decodeWord (0b0001000#7 ++ 0b10011#5 ++ 0b10101#5 ++ 0b111#3 ++ 0b00101#5 ++ 0b1010011#7) = .ok (.fmulS 5#5 21#5 19#5 7#3) ∧
    decodeWord (0b0001100#7 ++ 0b11000#5 ++ 0b10111#5 ++ 0b111#3 ++ 0b00110#5 ++ 0b1010011#7) = .ok (.fdivS 6#5 23#5 24#5 7#3) := by decide

theorem test_decode_float_convert_move :
    decodeWord (0b1100000#7 ++ 0b00000#5 ++ 0b10001#5 ++ 0b001#3 ++ 0b00011#5 ++ 0b1010011#7) = .ok (.fcvtWS 3#5 17#5 1#3) ∧
    decodeWord (0b1101000#7 ++ 0b00000#5 ++ 0b10011#5 ++ 0b001#3 ++ 0b00100#5 ++ 0b1010011#7) = .ok (.fcvtSW 4#5 19#5 1#3) ∧
    decodeWord (0b1110000#7 ++ 0b00000#5 ++ 0b10101#5 ++ 0b000#3 ++ 0b00101#5 ++ 0b1010011#7) = .ok (.fmvXW 5#5 21#5) ∧
    decodeWord (0b1111000#7 ++ 0b00000#5 ++ 0b10111#5 ++ 0b000#3 ++ 0b00110#5 ++ 0b1010011#7) = .ok (.fmvWX 6#5 23#5) := by decide

theorem test_decode_float_compare :
    decodeWord (0b1010000#7 ++ 0b01001#5 ++ 0b10001#5 ++ 0b010#3 ++ 0b00011#5 ++ 0b1010011#7) = .ok (.feqS 3#5 17#5 9#5) ∧
    decodeWord (0b1010000#7 ++ 0b01110#5 ++ 0b10011#5 ++ 0b001#3 ++ 0b00100#5 ++ 0b1010011#7) = .ok (.fltS 4#5 19#5 14#5) ∧
    decodeWord (0b1010000#7 ++ 0b10011#5 ++ 0b10101#5 ++ 0b000#3 ++ 0b00101#5 ++ 0b1010011#7) = .ok (.fleS 5#5 21#5 19#5) := by decide

theorem test_decode_system :
    decodeWord (0b000000000000#12 ++ 0b00000#5 ++ 0b000#3 ++ 0b00000#5 ++ 0b1110011#7) = .ok (.ecall) ∧
    decodeWord (0b000000000001#12 ++ 0b00000#5 ++ 0b000#3 ++ 0b00000#5 ++ 0b1110011#7) = .ok (.ebreak) := by decide

/-- 95_test_vectors.md 2.2: words that match no row. -/
theorem test_decode_rejects :
    ([0x00000000, 0xFFFFFFFF, 0x00004501, 0x0000000B, 0x0FF0000F, 0x0000100F, 0x30200073, 0x10500073, 0x00200073,
      0x30529073, 0xC0002573, 0x000000F3, 0x0002A087, 0x0012A027, 0x580170D3, 0x202081D3, 0x282081D3, 0x2020F1C3,
      0xC01081D3, 0xE00091D3, 0xA020B1D3, 0x0020A063, 0x0000B183, 0x0000E183, 0x0020B023, 0x00009067, 0x402091B3,
      0x02009093, 0x40009093] : List Word).all (fun w => decide (decodeWord w = .error (.noRow w))) = true := by decide

/-- 30_encoding.md R50: fewer than four bytes are no instruction, and more leave the rest. -/
theorem test_decode_bytes :
    decode [0x13#8, 0x00#8, 0x00#8] = .error .truncated ∧
    decode [0x93#8, 0x02#8, 0x50#8, 0x00#8, 0xAA#8] = .ok (.addi 5#5 0#5 5#12, [0xAA#8]) := by decide

/-- Every row's value matches its own row and no other row's. -/
theorem test_rows_disjoint :
    Mnemonic.all.all (fun m => Mnemonic.all.all (fun n => decide (n.matchesWord m.row.value ↔ n = m))) = true := by decide

/-! ### The encoder unit (95_test_vectors.md 1 S2, S12 and 2.1) -/

/-- No constants and no labels. -/
def noTables : Tables := ⟨[], []⟩

theorem test_encode_immediate_range :
    encodeLine noTables 0#32 "addi" [.xreg 1#5, .xreg 2#5, .literal 2047] = .ok 0x7FF10093#32 ∧
    encodeLine noTables 0#32 "addi" [.xreg 1#5, .xreg 2#5, .literal (-2048)] = .ok 0x80010093#32 ∧
    encodeLine noTables 0#32 "addi" [.xreg 1#5, .xreg 2#5, .literal 2048] = .error .immediateOutOfRange ∧
    encodeLine noTables 0#32 "addi" [.xreg 1#5, .xreg 2#5, .literal (-2049)] = .error .immediateOutOfRange ∧
    encodeLine noTables 0#32 "slli" [.xreg 1#5, .xreg 2#5, .literal 32] = .error .immediateOutOfRange ∧
    encodeLine noTables 0#32 "lui" [.xreg 5#5, .literal 524288] = .error .immediateOutOfRange := by decide

theorem test_encode_layouts :
    encodeLine noTables 0#32 "sw" [.xreg 31#5, .xreg 0#5, .literal 0x555] = .ok 0x55F02AA3#32 ∧
    encodeLine noTables 0#32 "beq" [.xreg 1#5, .xreg 2#5, .literal 4095] = .ok 0x7E208FE3#32 ∧
    encodeLine noTables 0#32 "jal" [.xreg 1#5, .literal 0x80000] = .ok 0x000800EF#32 ∧
    encodeLine noTables 0#32 "lui" [.xreg 5#5, .literal (-524288)] = .ok 0x800002B7#32 ∧
    encodeLine noTables 0#32 "srai" [.xreg 1#5, .xreg 2#5, .literal 31] = .ok 0x41F15093#32 ∧
    encodeLine noTables 0#32 "fcvt.w.s" [.xreg 1#5, .freg 2#5, .symbol "rtz"] = .ok 0xC00110D3#32 := by decide

theorem test_encode_labels :
    encodeLine ⟨[], [("target", some 0x0040000C#32)]⟩ 0x00400000#32 "beq" [.xreg 1#5, .xreg 2#5, .symbol "target"] =
      .ok 0x00208663#32 ∧
    encodeLine ⟨[], [("loop", some 0x00400000#32)]⟩ 0x00400010#32 "jal" [.xreg 0#5, .symbol "loop"] =
      .ok 0xFF1FF06F#32 ∧
    encodeLine ⟨[("big", 0x400)], []⟩ 0#32 "lui" [.xreg 1#5, .symbol "big"] = .ok 0x004000B7#32 := by decide

theorem test_encode_errors :
    encodeLine noTables 0#32 "foo" [] = .error .unsupportedOpcode ∧
    encodeLine noTables 0#32 "add" [.xreg 1#5, .xreg 2#5] = .error .syntaxError ∧
    encodeLine noTables 0#32 "add" [.xreg 1#5, .freg 2#5, .xreg 3#5] = .error .invalidRegister ∧
    encodeLine noTables 0#32 "addi" [.xreg 1#5, .xreg 2#5, .symbol "undefined_label"] = .error .undefinedSymbol := by
  decide

theorem test_register_names :
    registerNamed "$S10" = some (.xreg 26#5) ∧ registerNamed "FP" = some (.xreg 8#5) ∧
    registerNamed "t6" = some (.xreg 31#5) ∧ registerNamed "f31" = some (.freg 31#5) ∧
    registerNamed "x32" = none ∧ registerNamed "$f1" = none := by decide


/-! ### Single steps (95_test_vectors.md 2.3 to 2.8) -/

theorem test_add_wraps : readX (after (withX 0x002081B3#32 0x7FFFFFFF#32 0x1#32)) 3#5 = 0x80000000#32 := by decide

theorem test_sub_borrows : readX (after (withX 0x402081B3#32 0x0#32 0x1#32)) 3#5 = 0xFFFFFFFF#32 := by decide

theorem test_and : readX (after (withX 0x0020F1B3#32 0xF0F0F0F0#32 0xFF00FF00#32)) 3#5 = 0xF000F000#32 := by decide

theorem test_or : readX (after (withX 0x0020E1B3#32 0xF0F0F0F0#32 0xFF00FF00#32)) 3#5 = 0xFFF0FFF0#32 := by decide

theorem test_xor : readX (after (withX 0x0020C1B3#32 0xF0F0F0F0#32 0xFF00FF00#32)) 3#5 = 0x0FF00FF0#32 := by decide

theorem test_sll_masks_amount : readX (after (withX 0x002091B3#32 0xFFFFFFFF#32 0x24#32)) 3#5 = 0xFFFFFFF0#32 := by decide

theorem test_srl_masks_amount : readX (after (withX 0x0020D1B3#32 0x80000000#32 0x21#32)) 3#5 = 0x40000000#32 := by decide

theorem test_sra_copies_sign : readX (after (withX 0x4020D1B3#32 0x80000000#32 0x4#32)) 3#5 = 0xF8000000#32 := by decide

theorem test_slt_signed : readX (after (withX 0x0020A1B3#32 0x80000000#32 0x7FFFFFFF#32)) 3#5 = 0x1#32 := by decide

theorem test_sltu_unsigned : readX (after (withX 0x0020B1B3#32 0xFFFFFFFF#32 0x1#32)) 3#5 = 0x0#32 := by decide

theorem test_addi_extends : readX (after (withX 0x80008193#32 0x80000000#32 0x0#32)) 3#5 = 0x7FFFF800#32 := by decide

theorem test_addi_x0 : readX (after (withX 0x00508013#32 9#32 0#32)) 0#5 = 0#32 := by decide

theorem test_andi_extends : readX (after (withX 0xFF00F193#32 0x12345678#32 0x0#32)) 3#5 = 0x12345670#32 := by decide

theorem test_ori : readX (after (withX 0x00F0E193#32 0x12345670#32 0x0#32)) 3#5 = 0x1234567F#32 := by decide

theorem test_xori_not : readX (after (withX 0xFFF0C193#32 0x12345678#32 0x0#32)) 3#5 = 0xEDCBA987#32 := by decide

theorem test_slli : readX (after (withX 0x01F09193#32 0x3#32 0x0#32)) 3#5 = 0x80000000#32 := by decide

theorem test_srli : readX (after (withX 0x0010D193#32 0xFFFFFFFF#32 0x0#32)) 3#5 = 0x7FFFFFFF#32 := by decide

theorem test_srai : readX (after (withX 0x4040D193#32 0x7FFFFFF0#32 0x0#32)) 3#5 = 0x07FFFFFF#32 := by decide

theorem test_slti_signed : readX (after (withX 0x0000A193#32 0xFFFFFFFF#32 0x0#32)) 3#5 = 0x1#32 := by decide

theorem test_sltiu_extends : readX (after (withX 0xFFF0B193#32 0x5#32 0x0#32)) 3#5 = 0x1#32 := by decide

theorem test_mul_low : readX (after (withX 0x022081B3#32 0xFFFFFFFF#32 0xFFFFFFFF#32)) 3#5 = 0x1#32 := by decide

theorem test_mulh : readX (after (withX 0x022091B3#32 0x80000000#32 0x7FFFFFFF#32)) 3#5 = 0xC0000000#32 := by decide

theorem test_mulhsu_signed_by_unsigned : readX (after (withX 0x0220A1B3#32 0x7FFFFFFF#32 0xFFFFFFFF#32)) 3#5 = 0x7FFFFFFE#32 := by decide

theorem test_mulhsu_negative : readX (after (withX 0x0220A1B3#32 0x80000000#32 0xFFFFFFFF#32)) 3#5 = 0x80000000#32 := by decide

theorem test_mulhu : readX (after (withX 0x0220B1B3#32 0xFFFFFFFF#32 0xFFFFFFFF#32)) 3#5 = 0xFFFFFFFE#32 := by decide

theorem test_div_toward_zero : readX (after (withX 0x0220C1B3#32 0xFFFFFFF9#32 0x2#32)) 3#5 = 0xFFFFFFFD#32 := by decide

theorem test_div_overflow : readX (after (withX 0x0220C1B3#32 0x80000000#32 0xFFFFFFFF#32)) 3#5 = 0x80000000#32 := by decide

theorem test_divu_by_zero : readX (after (withX 0x0220D1B3#32 0x7#32 0x0#32)) 3#5 = 0xFFFFFFFF#32 := by decide

theorem test_divu : readX (after (withX 0x0220D1B3#32 0xFFFFFFF9#32 0x2#32)) 3#5 = 0x7FFFFFFC#32 := by decide

theorem test_rem_sign_of_dividend : readX (after (withX 0x0220E1B3#32 0xFFFFFFF9#32 0x2#32)) 3#5 = 0xFFFFFFFF#32 := by decide

theorem test_rem_by_zero : readX (after (withX 0x0220E1B3#32 0xFFFFFFF9#32 0x0#32)) 3#5 = 0xFFFFFFF9#32 := by decide

theorem test_remu : readX (after (withX 0x0220F1B3#32 0x7#32 0xFFFFFFFE#32)) 3#5 = 0x7#32 := by decide

theorem test_remu_by_zero : readX (after (withX 0x0220F1B3#32 0xFFFFFFF9#32 0x0#32)) 3#5 = 0xFFFFFFF9#32 := by decide

theorem test_lb_extends : readX (after (withData 0x00008183#32 0x10010000#32 0x0#32)) 3#5 = 0xFFFFFF80#32 := by decide

theorem test_lbu : readX (after (withData 0x0000C183#32 0x10010000#32 0x0#32)) 3#5 = 0x80#32 := by decide

theorem test_lh_misaligned : readX (after (withData 0x00109183#32 0x10010000#32 0x0#32)) 3#5 = 0x34FF#32 := by decide

theorem test_lh_extends : readX (after (withData 0x00209183#32 0x10010000#32 0x0#32)) 3#5 = 0xFFFF9234#32 := by decide

theorem test_lhu : readX (after (withData 0x0000D183#32 0x10010000#32 0x0#32)) 3#5 = 0xFF80#32 := by decide

theorem test_lw_negative_offset : readX (after (withData 0xFFC0A183#32 0x10010004#32 0x0#32)) 3#5 = 0x9234FF80#32 := by decide

theorem test_lw_unmapped_byte : after (withData 0x0010A183#32 0x10010000#32 0x0#32) = haltError (withData 0x0010A183#32 0x10010000#32 0#32) (.unmappedMemory 0x10010004#32) := by decide

theorem test_sb : readByte (after (withData 0x00208023#32 0x10010008#32 0x12345678#32)).mem 0x10010008#32 = some 0x78#8 ∧ readByte (after (withData 0x00208023#32 0x10010008#32 0x12345678#32)).mem 0x10010009#32 = none := by decide

theorem test_sh : readByte (after (withData 0x00209023#32 0x10010008#32 0x12345678#32)).mem 0x10010008#32 = some 0x78#8 ∧ readByte (after (withData 0x00209023#32 0x10010008#32 0x12345678#32)).mem 0x10010009#32 = some 0x56#8 := by decide

theorem test_sw_wraps : readByte (after (withData 0x0020A023#32 0xFFFFFFFE#32 0xAABBCCDD#32)).mem 0xFFFFFFFE#32 = some 0xDD#8 ∧ readByte (after (withData 0x0020A023#32 0xFFFFFFFE#32 0xAABBCCDD#32)).mem 0xFFFFFFFF#32 = some 0xCC#8 ∧ readByte (after (withData 0x0020A023#32 0xFFFFFFFE#32 0xAABBCCDD#32)).mem 0x0#32 = some 0xBB#8 ∧ readByte (after (withData 0x0020A023#32 0xFFFFFFFE#32 0xAABBCCDD#32)).mem 0x1#32 = some 0xAA#8 := by decide

theorem test_lui : readX (after (machine 0xFFFFF2B7#32)) 5#5 = 0xFFFFF000#32 := by decide

theorem test_auipc : readX (after (machine 0xFFFFF297#32)) 5#5 = 0x003FF000#32 := by decide

theorem test_jal : readX (after (machine 0xFFDFF0EF#32)) 1#5 = 0x00400004#32 ∧ (after (machine 0xFFDFF0EF#32)).pc = 0x003FFFFC#32 := by decide

theorem test_jalr_clears_bit0 : readX (after (writeX (machine 0x003280E7#32) 5#5 0x00400100#32)) 1#5 = 0x00400004#32 ∧ (after (writeX (machine 0x003280E7#32) 5#5 0x00400100#32)).pc = 0x00400102#32 := by decide

theorem test_jalr_same_register : readX (after (writeX (machine 0x000282E7#32) 5#5 0x00400100#32)) 5#5 = 0x00400004#32 ∧ (after (writeX (machine 0x000282E7#32) 5#5 0x00400100#32)).pc = 0x00400100#32 := by decide

theorem test_beq_taken : (after (withX 0x00208863#32 0x5#32 0x5#32)).pc = 0x00400010#32 := by decide

theorem test_beq_not_taken : (after (withX 0x00208863#32 0x5#32 0x6#32)).pc = 0x00400004#32 := by decide

theorem test_bne_taken : (after (withX 0x00209863#32 0x5#32 0x6#32)).pc = 0x00400010#32 := by decide

theorem test_bne_not_taken : (after (withX 0x00209863#32 0x5#32 0x5#32)).pc = 0x00400004#32 := by decide

theorem test_blt_back : (after (withX 0xFE20CCE3#32 0xFFFFFFFF#32 0x1#32)).pc = 0x003FFFF8#32 := by decide

theorem test_blt_equal : (after (withX 0xFE20CCE3#32 0x1#32 0x1#32)).pc = 0x00400004#32 := by decide

theorem test_bge_equal : (after (withX 0x0020D863#32 0x1#32 0x1#32)).pc = 0x00400010#32 := by decide

theorem test_bge_signed : (after (withX 0x0020D863#32 0x80000000#32 0x0#32)).pc = 0x00400004#32 := by decide

theorem test_bltu_unsigned : (after (withX 0x0020E863#32 0xFFFFFFFF#32 0x1#32)).pc = 0x00400004#32 := by decide

theorem test_bltu_taken : (after (withX 0x0020E863#32 0x1#32 0xFFFFFFFF#32)).pc = 0x00400010#32 := by decide

theorem test_bgeu_taken : (after (withX 0x0020F863#32 0xFFFFFFFF#32 0x1#32)).pc = 0x00400010#32 := by decide

theorem test_bgeu_not_taken : (after (withX 0x0020F863#32 0x0#32 0x1#32)).pc = 0x00400004#32 := by decide

theorem test_fadd_tie_to_even : readF (after (withF 0x002081D3#32 0x3F800001#32 0x33800000#32)) 3#5 = 0x3F800002#32 := by decide

theorem test_fadd_overflow : readF (after (withF 0x002081D3#32 0x7F7FFFFF#32 0x7F7FFFFF#32)) 3#5 = 0x7F800000#32 := by decide

theorem test_fsub : readF (after (withF 0x082081D3#32 0x3F800000#32 0x40000000#32)) 3#5 = 0xBF800000#32 := by decide

theorem test_fsub_zero : readF (after (withF 0x082081D3#32 0x3F800000#32 0x3F800000#32)) 3#5 = 0x00000000#32 := by decide

theorem test_fmul_subnormal : readF (after (withF 0x102081D3#32 0x00800000#32 0x3F000000#32)) 3#5 = 0x00400000#32 := by decide

theorem test_fmul_sign : readF (after (withF 0x102081D3#32 0xC0000000#32 0x40400000#32)) 3#5 = 0xC0C00000#32 := by decide

theorem test_fdiv_third : readF (after (withF 0x182081D3#32 0x3F800000#32 0x40400000#32)) 3#5 = 0x3EAAAAAB#32 := by decide

theorem test_fdiv_by_negative_zero : readF (after (withF 0x182081D3#32 0x3F800000#32 0x80000000#32)) 3#5 = 0xFF800000#32 := by decide

theorem test_fcvtws_tie : readX (after (withF 0xC00081D3#32 0xC0200000#32 0#32)) 3#5 = 0xFFFFFFFE#32 := by decide

theorem test_fcvtws_truncates : readX (after (withF 0xC0009253#32 0x40700000#32 0#32)) 4#5 = 0x3#32 := by decide

theorem test_fcvtsw_tie : readF (after (withX 0xD00081D3#32 0x01000003#32 0#32)) 3#5 = 0x4B800002#32 := by decide

theorem test_fcvtsw_min : readF (after (withX 0xD00081D3#32 0x80000000#32 0#32)) 3#5 = 0xCF000000#32 := by decide

theorem test_feq_zeros : readX (after (withF 0xA020A1D3#32 0x00000000#32 0x80000000#32)) 3#5 = 1#32 := by decide

theorem test_feq_nan : readX (after (withF 0xA020A1D3#32 0x7FC00000#32 0x7FC00000#32)) 3#5 = 0#32 := by decide

theorem test_flt_infinities : readX (after (withF 0xA0209253#32 0xFF800000#32 0x7F800000#32)) 4#5 = 1#32 := by decide

theorem test_flt_negative : readX (after (withF 0xA0209253#32 0xC0200000#32 0x3F800000#32)) 4#5 = 1#32 := by decide

theorem test_fle_equal : readX (after (withF 0xA02082D3#32 0x3F800000#32 0x3F800000#32)) 5#5 = 1#32 := by decide

theorem test_fle_nan : readX (after (withF 0xA02082D3#32 0x3F800000#32 0x7FC00000#32)) 5#5 = 0#32 := by decide

theorem test_fmvxw_nan : readX (after (withF 0xE00081D3#32 0x7FA00001#32 0#32)) 3#5 = 0x7FA00001#32 := by decide

theorem test_fmvwx_nan : readF (after (withX 0xF00081D3#32 0xFFFFFFFF#32 0#32)) 3#5 = 0xFFFFFFFF#32 := by decide

/-- 45_float.md R208: -2.5 under the three tie rules. -/
theorem test_fcvt_tie_rules :
    nearestMagnitude .even true (5 * 2 ^ 148) = 2 ∧ nearestMagnitude .away true (5 * 2 ^ 148) = 3 ∧
    nearestMagnitude .up true (5 * 2 ^ 148) = 2 ∧ nearestMagnitude .up false (5 * 2 ^ 148) = 3 := by decide

/-! ### System and faults (95_test_vectors.md 2.9) -/

theorem test_ecall_results :
    (after (syscall 93#32 7#32 0#32 0#32)).status = .haltedExit ∧ (after (syscall 93#32 7#32 0#32 0#32)).running = false ∧ (after (syscall 93#32 7#32 0#32 0#32)).pc = 0x00400004#32 ∧
    (after (syscall 1#32 0xFFFFFFFF#32 0#32 0#32)).out = [.printInt (-1)] ∧
    (after (syscall 4#32 0x10010000#32 0#32 0#32)).out = [.printString [0x48#8, 0x69#8, 0x0A#8]] ∧
    readX (after (syscall 64#32 1#32 0x10010000#32 10#32)) 10#5 = 6#32 ∧
    (after (syscall 64#32 1#32 0x10010000#32 2#32)).out = [.write [0x48#8, 0x69#8]] ∧
    (after (syscall 0x1000005D#32 0#32 0#32 0#32)).out = [.unsupported 0x1000005D#32] := by decide

theorem test_ecall_edges :
    after (syscall 4#32 0x10010004#32 0#32 0#32) =
      haltError (syscall 4#32 0x10010004#32 0#32 0#32) (.unmappedMemory 0x10010006#32) ∧
    (after (syscall 4#32 0x10010003#32 0#32 0#32)).out = [.printString []] ∧
    readX (after (syscall 64#32 1#32 0x10010000#32 0xFFFFFFFF#32)) 10#5 = 0#32 ∧
    (after (syscall 64#32 1#32 0x10010006#32 4#32)).out = [.write []] ∧
    readX (after (syscall 64#32 2#32 0#32 0#32)) 10#5 = 0xFFFFFFFF#32 ∧ (after (syscall 64#32 2#32 0#32 0#32)).out = [] := by decide

theorem test_ebreak : after (machine 0x00100073#32) = haltError (machine 0x00100073#32) .breakpoint := by decide

theorem test_fence_faults : after (machine 0x0FF0000F#32) = haltError (machine 0x0FF0000F#32) (.decodeError 0x00400000#32 0x0FF0000F#32) := by decide

theorem test_reset_alone_fetch_faults : after State.reset = haltError State.reset (.fetchError 0#32 0#32) := by decide

/-- 95_test_vectors.md 2.9: a fetch that straddles two words, bytewise. -/
theorem test_misaligned_fetch :
    (after (place { State.reset with pc := 0x00400002#32 } 0x00400000#32
      [0x13#8, 0x00#8, 0x00#8, 0x00#8, 0x13#8, 0x05#8, 0x10#8, 0x00#8])).status =
      .haltedError (.decodeError 0x00400002#32 0x05130000#32) := by decide

/-- 95_test_vectors.md S9 with a ceiling of 3: the run ends there, Idle, with the warning. -/
theorem test_run_ceiling :
    run 3 (machine 0x0000006F#32) =
      .next (.maxStepsExceeded { machine 0x0000006F#32 with instructionCount := 3 }) := by rfl

/-- `run()` without a ceiling has the default of 00_scope.md R5, and so has an iteration of it. -/
theorem test_run_default_ceiling :
    (∀ s, run (s := s) = run 1000000 s) ∧ (.run : HostCall) = .run 1000000 ∧ (.runNext : HostCall) = .runNext 1000000 :=
  ⟨fun _ => rfl, rfl, rfl⟩

/-- The two host interface definitions on the state after reset: ADDI x1, x0, 5 is stored, fetched and run. -/
theorem test_with_fetch_word :
    decodeTableWord 32 0x00500093 = some (.addi 1#5 0#5 5#12) ∧
    readX (after (State.reset.withFetchWord 32 0x00500093)) 1#5 = 5#32 := by decide

/-! ### Witnesses: states and operands that meet the hypotheses of each statement -/

/-- ADDI x0, x0, 0 at the last address whose `pc + 4` is still an address, WRAP false. -/
def highNop : State := noWrap (placeAtPc { State.reset with pc := 0xFFFFFFFB#32 } 0x00000013#32)

theorem reset_inv : CoreInv State.reset := ⟨by decide, by decide, by decide⟩

theorem not_halted {s : State} (h : s.status.isHalted = false) : ¬ Halted s := by
  rintro (e | ⟨f, e⟩) <;> rw [e] at h <;> cases h

theorem witness_DecodeEncodeRoundTrip : (Instr.jal 1#5 0x1FFFFE#21).wellFormed = true := by decide

theorem witness_EncodeDecodeRoundTrip : decodeWord 0x41FF8FB3#32 = .ok (.sub 31#5 31#5 31#5) := by decide

theorem witness_DecoderFollowsOpcodeTable :
    Mnemonic.matchesWord .fcvtWS 0xC000F1D3#32 ∧ ∀ m : Mnemonic, ¬ m.matchesWord 0x0FF0000F#32 :=
  ⟨by decide, fun m => by cases m <;> decide⟩

theorem witness_ImmediateReconstruction :
    (Instr.faddS 1#5 2#5 3#5 0#3).mnemonic.row.format ∈ [Format.r, Format.rFp, Format.rFpCvt, Format.rFpCmp] := by decide

/-- One row of each range, at both ends and one beyond each. -/
theorem witness_EncoderRangeCheck :
    (Mnemonic.addi.row.format, (-2048 : Int), (2047 : Int)) = (Format.i, -2048, 2047) ∧
    (Mnemonic.sw.row.format, (-2048 : Int), (2047 : Int)) = (Format.s, -2048, 2047) ∧
    (Mnemonic.beq.row.format, (-4096 : Int), (4095 : Int)) = (Format.b, -4096, 4095) ∧
    (Mnemonic.lui.row.format, (-524288 : Int), (524287 : Int)) = (Format.u, -524288, 524287) ∧
    (Mnemonic.jal.row.format, (-1048576 : Int), (1048575 : Int)) = (Format.j, -1048576, 1048575) ∧
    (Mnemonic.slli.row.format, (0 : Int), (31 : Int)) = (Format.iShift, 0, 31) ∧
    (-2048 : Int) ≤ -2048 ∧ (2047 : Int) ≤ 2047 ∧ ¬ ((-2048 : Int) ≤ -2049) ∧ ¬ ((2048 : Int) ≤ 2047) := by decide

/-- A word of every format. -/
theorem witness_EncoderImmediateRoundTrip :
    encodeBlock .add 1#5 2#5 3#5 0 0#3 = .ok 0x003100B3#32 ∧
    encodeBlock .fleS 31#5 31#5 31#5 0 0#3 = .ok 0xA1FF8FD3#32 ∧
    encodeBlock .faddS 3#5 1#5 2#5 0 7#3 = .ok 0x0020F1D3#32 ∧
    encodeBlock .fcvtWS 1#5 2#5 0#5 0 1#3 = .ok 0xC00110D3#32 ∧
    encodeBlock .addi 1#5 2#5 0#5 (-2048) 0#3 = .ok 0x80010093#32 ∧
    encodeBlock .slli 1#5 2#5 0#5 31 0#3 = .ok 0x01F11093#32 ∧
    encodeBlock .sw 0#5 1#5 2#5 2047 0#3 = .ok 0x7E20AFA3#32 ∧
    encodeBlock .beq 0#5 1#5 2#5 4095 0#3 = .ok 0x7E208FE3#32 ∧
    encodeBlock .lui 5#5 0#5 0#5 (-524288) 0#3 = .ok 0x800002B7#32 ∧
    encodeBlock .jal 1#5 0#5 0#5 1048575 0#3 = .ok 0x7FFFF0EF#32 ∧
    encodeBlock .ebreak 0#5 0#5 0#5 0 0#3 = .ok 0x00100073#32 := by decide

theorem witness_StepKeepsInvariant : CoreInv (machine 0x00000013#32) ∧ ∃ t, step (machine 0x00000013#32) = .next t :=
  ⟨⟨by decide, by decide, by decide⟩, _, rfl⟩

theorem witness_HostCallsKeepInvariant :
    CoreInv State.reset ∧ ∃ t, hostCall (.loadProgram ⟨[(2#32, 1#8), (0#32, 5#8), (2#32, 7#8)], [], 2#32⟩) State.reset = .next t :=
  ⟨reset_inv, _, rfl⟩

/-- Each size, and the one that crosses the top of the address space. -/
theorem witness_MemoryReadAfterWrite :
    Config.Params.default.wrap = true ∧
    (∃ m, memWrite Config.Params.default Memory.empty 0xFFFFFFFE#32 1 0xAABBCCDD#32 = .ok m) ∧
    (∃ m, memWrite Config.Params.default Memory.empty 0xFFFFFFFE#32 2 0xAABBCCDD#32 = .ok m) ∧
    (∃ m, memWrite Config.Params.default Memory.empty 0xFFFFFFFE#32 4 0xAABBCCDD#32 = .ok m) :=
  ⟨rfl, ⟨_, rfl⟩, ⟨_, rfl⟩, ⟨_, rfl⟩⟩

theorem witness_StepsNeverUnmap :
    (∃ t, step (machine 0x00000013#32) = .next t) ∧ readByte (machine 0x00000013#32).mem 0x00400003#32 ≠ none :=
  ⟨⟨_, rfl⟩, by decide⟩

/-- `PcFits` at its edge with WRAP false, and beyond it with WRAP true; the other hypothesis of these statements, that a
word has a row's fixed bits, is met by every row's own value. -/
theorem witness_pcFits :
    PcFits highNop ∧ ¬ PcFits (noWrap { State.reset with pc := 0xFFFFFFFC#32 }) ∧
    PcFits { State.reset with pc := 0xFFFFFFFC#32 } ∧
    Mnemonic.all.all (fun m => decide (m.row.value &&& m.row.mask = m.row.value)) = true := by decide

theorem witness_IntegerRegisterOperations : PcFits highNop ∧ 0x40000033#32 &&& 0xFE00707F#32 = 0x40000033#32 := by decide
theorem witness_IntegerImmediateOperations :
    PcFits highNop ∧ 0x00000013#32 &&& 0x0000707F#32 = 0x00000013#32 ∧
    (0x02009093#32 &&& 0x0000707F#32 = 0x00001013#32 ∧ funct7Of 0x02009093#32 ≠ 0b0000000#7) ∧
    (0x0200D093#32 &&& 0x0000707F#32 = 0x00005013#32 ∧ funct7Of 0x0200D093#32 ≠ 0b0000000#7 ∧
      funct7Of 0x0200D093#32 ≠ 0b0100000#7) := by decide
theorem witness_Multiplication : PcFits highNop ∧ 0x02000033#32 &&& 0xFE00707F#32 = 0x02000033#32 := by decide
theorem witness_DivisionAndRemainder : PcFits highNop ∧ 0x02004033#32 &&& 0xFE00707F#32 = 0x02004033#32 := by decide

theorem witness_QuotientTimesDivisorPlusRemainder :
    PcFits (withX 0#32 0x80000000#32 0xFFFFFFFF#32) ∧ (3#5 : XReg) ≠ 0#5 ∧
    (∃ t, exec (.div 3#5 1#5 2#5) (withX 0#32 0x80000000#32 0xFFFFFFFF#32) = .next t) ∧
    (∃ t, exec (.rem 3#5 1#5 2#5) (withX 0#32 0x80000000#32 0xFFFFFFFF#32) = .next t) ∧
    (∃ t, exec (.divu 3#5 1#5 2#5) (withX 0#32 0x80000000#32 0xFFFFFFFF#32) = .next t) ∧
    (∃ t, exec (.remu 3#5 1#5 2#5) (withX 0#32 0x80000000#32 0xFFFFFFFF#32) = .next t) :=
  ⟨by decide, by decide, ⟨_, rfl⟩, ⟨_, rfl⟩, ⟨_, rfl⟩, ⟨_, rfl⟩⟩

/-- The last four bytes of the address space mapped, WRAP false: a word load that just fits. -/
def topData : State :=
  noWrap (place (writeX (machine 0#32) 1#5 0xFFFFFFFC#32) 0xFFFFFFFC#32 [0x11#8, 0x22#8, 0x33#8, 0x84#8])

/-- For every load: all its bytes mapped, at the top of the address space; and, at 0x10010000 with two bytes mapped, the
first unmapped byte at an offset from 0 to 3. -/
theorem witness_LoadsReadMemory :
    (PcFits topData ∧ SumFits topData.params (unsigned (readX topData 1#5) + (0#12 : BitVec 12).toInt) ∧
      AccessFits topData.params (ea topData 1#5 0#12) 4 ∧
      (∀ i, i < 4 → readByte topData.mem (wrap32 (unsigned (ea topData 1#5 0#12) + (i : Nat))) =
        some ([0x11#8, 0x22#8, 0x33#8, 0x84#8].getD i 0#8))) ∧
    (∀ j, j < 4 →
      AccessFits (noWrap (withData 0#32 (0x10010004#32 - BitVec.ofNat 32 j) 0#32)).params
        (ea (noWrap (withData 0#32 (0x10010004#32 - BitVec.ofNat 32 j) 0#32)) 1#5 0#12) (j + 1) ∧
      (∀ i, i < j → readByte (withData 0#32 (0x10010004#32 - BitVec.ofNat 32 j) 0#32).mem
        (wrap32 (unsigned (ea (withData 0#32 (0x10010004#32 - BitVec.ofNat 32 j) 0#32) 1#5 0#12) + i)) ≠ none) ∧
      readByte (withData 0#32 (0x10010004#32 - BitVec.ofNat 32 j) 0#32).mem
        (wrap32 (unsigned (ea (withData 0#32 (0x10010004#32 - BitVec.ofNat 32 j) 0#32) 1#5 0#12) + j)) = none) := by
  decide

theorem witness_StoresWriteMemory :
    PcFits topData ∧ SumFits topData.params (unsigned (readX topData 1#5) + (0#12 : BitVec 12).toInt) ∧
    AccessFits topData.params (ea topData 1#5 0#12) 4 ∧ AccessFits topData.params (ea topData 1#5 3#12) 1 ∧
    AccessFits topData.params (ea topData 1#5 2#12) 2 ∧ ¬ AccessFits topData.params (ea topData 1#5 1#12) 4 := by decide

theorem witness_LoadReturnsStoredWord :
    (withX 0#32 0xFFFFFFFE#32 7#32).params.wrap = true ∧ (3#5 : XReg) ≠ 0#5 ∧
    ∃ t, exec (.sw 1#5 2#5 0#12) (withX 0#32 0xFFFFFFFE#32 7#32) = .next t := ⟨by decide, by decide, _, rfl⟩

theorem witness_FetchSeesPrecedingStore :
    PcFits (withX 0#32 0x00400004#32 0x02A00513#32) ∧
    SumFits (withX 0#32 0x00400004#32 0x02A00513#32).params
      (unsigned (readX (withX 0#32 0x00400004#32 0x02A00513#32) 1#5) + (0#12 : BitVec 12).toInt) ∧
    AccessFits (withX 0#32 0x00400004#32 0x02A00513#32).params (ea (withX 0#32 0x00400004#32 0x02A00513#32) 1#5 0#12) 4 ∧
    ea (withX 0#32 0x00400004#32 0x02A00513#32) 1#5 0#12 = nextPc (withX 0#32 0x00400004#32 0x02A00513#32) ∧
    ∃ t, exec (.sw 1#5 2#5 0#12) (withX 0#32 0x00400004#32 0x02A00513#32) = .next t :=
  ⟨by decide, by decide, by decide, by decide, _, rfl⟩

theorem witness_UpperImmediates :
    PcFits highNop ∧ 0x100102B7#32 &&& 0x0000007F#32 = 0x00000037#32 ∧ 0x00001297#32 &&& 0x0000007F#32 = 0x00000017#32 := by
  decide

/-- Both ends of the range of targets, WRAP false. -/
theorem witness_JumpsAndLinks :
    (0x00009067#32 &&& 0x0000007F#32 = 0x00000067#32 ∧ funct3Of 0x00009067#32 ≠ 0b000#3) ∧
    0xFFDFF0EF#32 &&& 0x0000007F#32 = 0x0000006F#32 ∧ 0x003280E7#32 &&& 0x0000707F#32 = 0x00000067#32 ∧ PcFits highNop ∧
    SumFits highNop.params (unsigned highNop.pc + (4#21 : BitVec 21).toInt) ∧
    ¬ SumFits highNop.params (unsigned highNop.pc + (6#21 : BitVec 21).toInt) ∧
    SumFits (noWrap (machine 0#32)).params (unsigned (readX (noWrap (machine 0#32)) 1#5) + (0#12 : BitVec 12).toInt) ∧
    ¬ SumFits (noWrap (machine 0#32)).params (unsigned (readX (noWrap (machine 0#32)) 1#5) + (0xFFF#12 : BitVec 12).toInt) := by
  decide

/-- Each predicate met and not met by some operands; the target and `pc + 4` fit. -/
theorem witness_ConditionalBranches :
    0x00208863#32 &&& 0x0000707F#32 = 0x00000063#32 ∧ 0x0020A063#32 &&& 0x0000707F#32 = 0x00002063#32 ∧
    0x0020B063#32 &&& 0x0000707F#32 = 0x00003063#32 ∧ PcFits highNop ∧
    SumFits highNop.params (unsigned highNop.pc + (4#13 : BitVec 13).toInt) ∧
    readX (withX 0#32 5#32 5#32) 1#5 = readX (withX 0#32 5#32 5#32) 2#5 ∧
    readX (withX 0#32 5#32 6#32) 1#5 ≠ readX (withX 0#32 5#32 6#32) 2#5 ∧
    signed (readX (withX 0#32 0x80000000#32 0#32) 1#5) < signed (readX (withX 0#32 0x80000000#32 0#32) 2#5) ∧
    signed (readX (withX 0#32 1#32 1#32) 1#5) ≥ signed (readX (withX 0#32 1#32 1#32) 2#5) ∧
    unsigned (readX (withX 0#32 1#32 0xFFFFFFFF#32) 1#5) < unsigned (readX (withX 0#32 1#32 0xFFFFFFFF#32) 2#5) ∧
    unsigned (readX (withX 0#32 0xFFFFFFFF#32 1#32) 1#5) ≥ unsigned (readX (withX 0#32 0xFFFFFFFF#32 1#32) 2#5) := by decide

theorem witness_FloatAdd :
    PcFits highNop ∧ 0x002081D3#32 &&& 0xFE00007F#32 = 0x00000053#32 ∧
    (IsFinite 0x7F7FFFFF#32 ∧ IsFinite 0x00000001#32 ∧ value 0x7F7FFFFF#32 + value 0x00000001#32 ≠ 0) ∧
    (IsFinite 0x3F800000#32 ∧ IsFinite 0xBF800000#32 ∧ value 0x3F800000#32 + value 0xBF800000#32 = 0) ∧
    (IsInfinite 0x7F800000#32 ∧ IsFinite 0x80000000#32) ∧ (IsInfinite 0xFF800000#32 ∧ sign 0xFF800000#32 = true) ∧
    (IsNaN 0x7F800001#32 ∧ IsNaN 0xFFFFFFFF#32 ∧ sign 0x7F800000#32 ≠ sign 0xFF800000#32) := by decide

theorem witness_FloatSubtract :
    PcFits highNop ∧ 0x082081D3#32 &&& 0xFE00007F#32 = 0x08000053#32 ∧
    (IsFinite 0x3F800000#32 ∧ IsFinite 0x40000000#32 ∧ value 0x3F800000#32 - value 0x40000000#32 ≠ 0) ∧
    (IsFinite 0x80000000#32 ∧ IsFinite 0x00000000#32 ∧ value 0x80000000#32 - value 0x00000000#32 = 0) ∧
    (IsInfinite 0x7F800000#32 ∧ IsInfinite 0xFF800000#32 ∧ sign 0x7F800000#32 ≠ sign 0xFF800000#32) ∧
    (IsNaN 0x7FC00000#32 ∧ sign 0x7F800000#32 = sign 0x7F800000#32) := by decide

theorem witness_FloatMultiply :
    PcFits highNop ∧ 0x102081D3#32 &&& 0xFE00007F#32 = 0x10000053#32 ∧ IsFinite 0x00000001#32 ∧ IsFinite 0x3F000000#32 ∧
    IsInfinite 0xFF800000#32 ∧ value 0x00000001#32 ≠ 0 ∧ value 0x80000000#32 = 0 ∧ IsNaN 0x7F800001#32 := by decide

theorem witness_FloatDivide :
    PcFits highNop ∧ 0x182081D3#32 &&& 0xFE00007F#32 = 0x18000053#32 ∧ IsFinite 0x3F800000#32 ∧ value 0x40400000#32 ≠ 0 ∧
    IsFinite 0x80000000#32 ∧ value 0x80000000#32 = 0 ∧ IsInfinite 0x7F800000#32 ∧ IsNaN 0xFFC00000#32 := by decide

theorem witness_FloatToInteger :
    PcFits highNop ∧ 0xC00081D3#32 &&& 0xFFF0007F#32 = 0xC0000053#32 ∧
    IsFinite (readF (withF 0#32 0xC0200000#32 0#32) 1#5) ∧ IsNaN (readF (withF 0#32 0x7F800001#32 0#32) 1#5) ∧
    (IsInfinite (readF (withF 0#32 0x7F800000#32 0#32) 1#5) ∧ sign (readF (withF 0#32 0x7F800000#32 0#32) 1#5) = false) ∧
    (IsInfinite (readF (withF 0#32 0xFF800000#32 0#32) 1#5) ∧ sign (readF (withF 0#32 0xFF800000#32 0#32) 1#5) = true) := by
  decide

theorem witness_IntegerToFloat :
    PcFits highNop ∧ 0xD00081D3#32 &&& 0xFFF0007F#32 = 0xD0000053#32 ∧
    (signed (readX (withX 0#32 0xFF000000#32 0#32) 1#5)).natAbs ≤ 2 ^ 24 ∧ readX (withX 0#32 0#32 0#32) 1#5 = 0#32 := by decide

theorem witness_FloatMovesCopyPatterns :
    PcFits highNop ∧ 0xE00081D3#32 &&& 0xFFF0707F#32 = 0xE0000053#32 ∧ 0xF00081D3#32 &&& 0xFFF0707F#32 = 0xF0000053#32 := by
  decide

theorem witness_FloatComparisons : PcFits highNop ∧ 0xA0209253#32 &&& 0xFE00707F#32 = 0xA0001053#32 := by decide

theorem witness_RoundingModeField : (0b000#3 : BitVec 3) ≠ 0b001#3 ∧ (0b111#3 : BitVec 3) ≠ 0b001#3 := by decide

theorem witness_EcallExit : PcFits (syscall 93#32 7#32 0#32 0#32) ∧ readX (syscall 93#32 7#32 0#32 0#32) 17#5 = 93#32 := by
  decide

theorem witness_EcallPrintInt : PcFits (syscall 1#32 7#32 0#32 0#32) ∧ readX (syscall 1#32 7#32 0#32 0#32) 17#5 = 1#32 := by
  decide

/-- A terminated string, and one that ends in an unmapped byte. -/
theorem witness_EcallPrintString :
    (PcFits (syscall 4#32 0x10010000#32 0#32 0#32) ∧ readX (syscall 4#32 0x10010000#32 0#32 0#32) 17#5 = 4#32) ∧
    (PcFits (syscall 4#32 0x10010004#32 0#32 0#32) ∧ readX (syscall 4#32 0x10010004#32 0#32 0#32) 17#5 = 4#32) := by decide

theorem witness_EcallWrite :
    (PcFits (syscall 64#32 1#32 0#32 0xFFFFFFFF#32) ∧ readX (syscall 64#32 1#32 0#32 0xFFFFFFFF#32) 17#5 = 64#32 ∧
      readX (syscall 64#32 1#32 0#32 0xFFFFFFFF#32) 10#5 = 1#32) ∧
    (readX (syscall 64#32 2#32 0#32 0#32) 17#5 = 64#32 ∧ readX (syscall 64#32 2#32 0#32 0#32) 10#5 ≠ 1#32) := by decide

theorem witness_EcallUnsupported :
    PcFits (syscall 0x1000005D#32 0#32 0#32 0#32) ∧
    readX (syscall 0x1000005D#32 0#32 0#32 0#32) 17#5 ∉ [93#32, 1#32, 4#32, 64#32] := by decide

theorem bytesAt_highNop : BytesAt highNop.mem highNop.pc [0x13#8, 0#8, 0#8, 0#8] := by
  unfold BytesAt; decide

theorem witness_StepRunsDecodedInstruction :
    ¬ Halted highNop ∧ AccessFits highNop.params highNop.pc 4 ∧ BytesAt highNop.mem highNop.pc [0x13#8, 0#8, 0#8, 0#8] ∧
    decodeWord (0#8 ++ 0#8 ++ 0#8 ++ 0x13#8) = .ok (.addi 0#5 0#5 0#12) :=
  ⟨not_halted rfl, by decide, bytesAt_highNop, by decide⟩

/-- Each of the four bytes as the first unmapped one; the last stands at 0xFFFFFFFF, WRAP false. -/
theorem witness_UnmappedFetchFaults :
    ¬ Halted (noWrap (place { State.reset with pc := 0xFFFFFFFC#32 } 0xFFFFFFFC#32 [1#8, 2#8, 3#8])) ∧
    AccessFits (noWrap State.reset).params 0xFFFFFFFC#32 4 ∧
    (∀ j, j ≤ 3 →
      (∀ i, i < j →
        readByte (place State.reset 0xFFFFFFFC#32 ([1#8, 2#8, 3#8].take j)).mem (wrap32 (unsigned 0xFFFFFFFC#32 + i)) ≠ none) ∧
      readByte (place State.reset 0xFFFFFFFC#32 ([1#8, 2#8, 3#8].take j)).mem (wrap32 (unsigned 0xFFFFFFFC#32 + j)) = none) :=
  ⟨not_halted rfl, by decide, by decide⟩

theorem bytesAt_fence : BytesAt (machine 0x0FF0000F#32).mem (machine 0x0FF0000F#32).pc [0x0F#8, 0#8, 0xF0#8, 0x0F#8] := by
  unfold BytesAt; decide

/-- FENCE's word, with no extra row and with a row that admits it. -/
theorem witness_UnknownWordFaults :
    ¬ Halted (machine 0x0FF0000F#32) ∧ AccessFits (machine 0x0FF0000F#32).params (machine 0x0FF0000F#32).pc 4 ∧
    BytesAt (machine 0x0FF0000F#32).mem (machine 0x0FF0000F#32).pc [0x0F#8, 0#8, 0xF0#8, 0x0F#8] ∧
    (∀ m : Mnemonic, ¬ m.matchesWord (0x0F#8 ++ 0xF0#8 ++ 0#8 ++ 0x0F#8)) ∧
    (∀ r ∈ (machine 0x0FF0000F#32).params.extraFormatRows, (0x0F#8 ++ 0xF0#8 ++ 0#8 ++ 0x0F#8) &&& r.mask ≠ r.value) ∧
    (∃ r ∈ [(⟨0x0000707F#32, 0x0000000F#32⟩ : Config.FormatRow)], (0x0F#8 ++ 0xF0#8 ++ 0#8 ++ 0x0F#8) &&& r.mask = r.value) :=
  ⟨not_halted rfl, by decide, bytesAt_fence, fun m => by cases m <;> decide, by decide, by decide⟩

theorem witness_FaultsArePrecise :
    ¬ Halted (machine 0x00100073#32) ∧
    step (machine 0x00100073#32) = .next (haltError (machine 0x00100073#32) .breakpoint) ∧
    (haltError (machine 0x00100073#32) .breakpoint).status = .haltedError .breakpoint :=
  ⟨not_halted rfl, rfl, rfl⟩

/-- A step that completes, and one that faults. -/
theorem witness_CountCountsCompletedSteps :
    ¬ Halted highNop ∧ (∃ t, step highNop = .next t ∧ NoFault t) ∧
    ¬ Halted (machine 0x00100073#32) ∧ ∃ t, step (machine 0x00100073#32) = .next t :=
  ⟨not_halted rfl, ⟨_, rfl, fun _ h => Status.noConfusion h⟩, not_halted rfl, _, rfl⟩

theorem witness_OnlyControlInstructionsSignalTargets :
    isControl (.add 1#5 2#5 3#5) = false ∧ ∃ t, exec (.add 1#5 2#5 3#5) State.reset = .next t := ⟨rfl, _, rfl⟩

theorem witness_WhoWritesWhat : ∃ t, exec .ecall (syscall 64#32 2#32 0#32 0#32) = .next t := ⟨_, rfl⟩

theorem witness_WrapTrueNeverOverflows :
    (machine 0x00000013#32).params.wrap = true ∧ (machine 0x00000013#32).status ≠ .haltedError .addressOverflow ∧
    ∃ t, step (machine 0x00000013#32) = .next t := ⟨rfl, by decide, _, rfl⟩

/-- Every clause at the edge of its range. -/
theorem witness_WrapFalseRaisesOverflow :
    (isControl (.add 1#5 2#5 3#5) = false ∧ isLoad (.add 1#5 2#5 3#5) = false ∧ isStore (.add 1#5 2#5 3#5) = false ∧
      Instr.add 1#5 2#5 3#5 ≠ .ecall ∧ Instr.add 1#5 2#5 3#5 ≠ .ebreak ∧
      ¬ PcFits (noWrap { State.reset with pc := 0xFFFFFFFC#32 })) ∧
    ¬ SumFits (noWrap State.reset).params (unsigned (readX (noWrap State.reset) 1#5) + (0xFFF#12 : BitVec 12).toInt) ∧
    ¬ SumFits (noWrap State.reset).params (unsigned (noWrap State.reset).pc + (0x1FFFFE#21 : BitVec 21).toInt) ∧
    ¬ SumFits (noWrap State.reset).params (unsigned (noWrap State.reset).pc + (0x1FFE#13 : BitVec 13).toInt) ∧
    (SumFits topData.params (unsigned (readX topData 1#5) + (1#12 : BitVec 12).toInt) ∧
      ¬ AccessFits topData.params (ea topData 1#5 1#12) 4) := by decide

/-- A halted core that a host call takes out of Halted. -/
theorem witness_HaltedUntilResetOrLoad :
    Halted (haltExit State.reset) ∧ CoreInv (haltExit State.reset) ∧
    hostCall .reset (haltExit State.reset) = .next State.reset ∧ ¬ Halted State.reset :=
  ⟨.inl rfl, ⟨by decide, by decide, by decide⟩, rfl, not_halted rfl⟩

/-- At the ceiling, below it, and a core that is not halted. -/
theorem witness_CeilingAndStopEndARun :
    (runStart State.reset).running = true ∧ 0 ≤ (runStart State.reset).instructionCount ∧
    (runStart State.reset).instructionCount < 1 ∧ ¬ Halted State.reset :=
  ⟨rfl, by decide, by decide, not_halted rfl⟩

theorem witness_RunningStepsAreTheSameSteps : State.reset.status = .idle ∧ State.reset.running = false := ⟨rfl, rfl⟩


end Sys2Proof.Tests
end

section
/-! PROOFS. The integer register file (10_state.md R11). -/

namespace Sys2Proof.Machine

/-- The write half of R11's "hardwired to 0, writes ignored"; the read half is `readX_zero`. -/
@[simp] theorem writeX_zero (s : State) (v : Word) : writeX s 0#5 v = s := rfl

/-- Settles O8: the two halves of R11 for register 0, and read after write for all registers. -/
theorem zeroRegisterAndRegisterWrites : Obligations.ZeroRegisterAndRegisterWrites :=
  fun s r q v => ⟨readX_zero s, writeX_zero s v, readX_writeX s r q v⟩

end Sys2Proof.Machine
end

section
/-! PROOFS. A store and the read of the bytes it wrote (20_memory.md R34, R35, R45). -/

namespace Sys2Proof.Machine

open Sys2Proof.Safety

/-- A write of several bytes that succeeds raised AddressOverflow at none of them. -/
theorem sumFits_of_memWriteFrom {p : Config.Params} {a : Word} {bs : List Byte} :
    ∀ {m m' : Memory} {i : Nat}, memWriteFrom p m a i bs = .ok m' →
      ∀ k, k < bs.length → SumFits p (unsigned a + (i + k : Nat)) := by
  induction bs with
  | nil => intro m m' i _ k hk; cases hk
  | cons b bs ih =>
    intro m m' i e k hk
    rcases addressOf_cases p (unsigned a + i) with ⟨hf, h⟩ | ⟨-, h⟩ <;> simp only [memWriteFrom, h] at e
    · cases k with
      | zero => exact hf
      | succ k =>
        have := ih e k (Nat.lt_of_succ_lt_succ hk)
        rwa [show i + 1 + k = i + (k + 1) by omega] at this
    · cases e

/-- The converse of `memWrite_fits`. -/
theorem accessFits_of_memWrite {p : Config.Params} {m m' : Memory} {a v : Word} {n : Nat} (hn : 0 < n)
    (e : memWrite p m a n v = .ok m') : AccessFits p a n := by
  have hlast := sumFits_of_memWriteFrom e (n - 1) (by rw [lowBytes_length]; omega)
  rwa [show unsigned a + ((0 + (n - 1) : Nat) : Int) = unsigned a + n - 1 by omega] at hlast

theorem leValue_byteOf (v : Word) (n : Nat) : leValue n (byteOf v) = v.toNat % 2 ^ (8 * n) := by
  induction n with
  | zero => simp [leValue, Nat.mod_one]
  | succ n ih =>
    calc leValue (n + 1) (byteOf v)
        = leValue n (byteOf v) + (byteOf v n).toNat * 2 ^ (8 * n) := Finset.sum_range_succ _ n
      _ = v.toNat % 2 ^ (8 * n) + 2 ^ (8 * n) * (v.toNat / 2 ^ (8 * n) % 2 ^ 8) := by
        rw [ih, byteOf, BitVec.toNat_ofNat, Nat.mul_comm (2 ^ (8 * n))]
      _ = v.toNat % 2 ^ (8 * (n + 1)) := by rw [← Nat.mod_mul, ← pow_add]; rfl

/-- Byte `i` of a store, at its address modulo 2^32, reads as byte `i` of the value. -/
theorem readByte_memWrite {p : Config.Params} {m m' : Memory} {a v : Word} {n i : Nat} (hn : n ≤ 4) (hi : i < n)
    (e : memWrite p m a n v = .ok m') : readByte m' (wrap32 (unsigned a + i)) = some (byteOf v i) := by
  have hoffset : (a + BitVec.ofNat 32 i - a).toNat = i := by
    rw [add_sub_cancel_left, BitVec.toNat_ofNat]; omega
  rw [wrap32_add_nat, memWrite_reads hn e, hoffset, if_pos hi]

theorem memRead_memWrite {p : Config.Params} {m m' : Memory} {a v : Word} {n : Nat} (hpos : 0 < n) (hn : n ≤ 4)
    (e : memWrite p m a n v = .ok m') : memRead p m' a n = .ok (v.toNat % 2 ^ (8 * n)) := by
  rw [← leValue_byteOf]
  exact memRead_mapped (accessFits_of_memWrite hpos e) fun i hi => readByte_memWrite hn hi e

/-- Settles O13: under WRAP every address sum fits, a store that succeeds is read back, and `memWrite_reads` gives every
byte, those outside the store included. -/
theorem memoryReadAfterWrite : Obligations.MemoryReadAfterWrite := by
  refine ⟨fun p m a n v hw => memWrite_fits m v (.inl hw), fun p m m' a n v hsize e => ?_⟩
  have hpos : 0 < n := by omega
  have hn : n ≤ 4 := by omega
  exact ⟨memRead_memWrite hpos hn e, memWrite_reads hn e⟩

end Sys2Proof.Machine
end

section
/-! PROOFS. The reconstructed immediates as numbers (30_encoding.md R69). -/

namespace Sys2Proof

theorem toNat_append_eq_add {a b : Nat} (x : BitVec a) (y : BitVec b) :
    (x ++ y).toNat = y.toNat + 2 ^ b * x.toNat := by
  rw [BitVec.toNat_append, ← Nat.shiftLeft_add_eq_or_of_lt y.isLt, Nat.shiftLeft_eq, Nat.mul_comm, Nat.add_comm]

theorem toNat_extractLsb'_eq_div_mod {n : Nat} (x : BitVec n) (start len : Nat) :
    (x.extractLsb' start len).toNat = x.toNat / 2 ^ start % 2 ^ len := by
  rw [BitVec.extractLsb'_toNat, Nat.shiftRight_eq_div_pow]

/-- Two's complement: the top bit `s` weighs `-2^n` where the unsigned reading has `+2^n`. -/
theorem toInt_of_toNat_eq_add {n low s : Nat} {x : BitVec (n + 1)} (h : x.toNat = low + 2 ^ n * s)
    (hlow : low < 2 ^ n) (hs : s < 2) : x.toInt = (low : Int) - 2 ^ n * s := by
  have hpow : 2 ^ (n + 1) = 2 * 2 ^ n := by rw [pow_succ, Nat.mul_comm]
  rw [BitVec.toInt_eq_toNat_cond, h, hpow]
  interval_cases s
  · rw [if_pos (by omega)]; simp
  · rw [if_neg (by omega)]; push_cast; ring

theorem signGroup_lt (w : Word) : w.toNat / 2 ^ 31 < 2 := by omega

theorem toInt_immI (w : Word) :
    (immI w).toInt = ((w.toNat / 2 ^ 20 % 2 ^ 11 : Nat) : Int) - 2 ^ 11 * (w.toNat / 2 ^ 31 : Nat) := by
  refine toInt_of_toNat_eq_add (n := 11) ?_ (by omega) (signGroup_lt w)
  rw [immI, toNat_extractLsb'_eq_div_mod]
  omega

theorem toInt_immS (w : Word) :
    (immS w).toInt =
      ((w.toNat / 2 ^ 7 % 2 ^ 5 + 2 ^ 5 * (w.toNat / 2 ^ 25 % 2 ^ 6) : Nat) : Int) - 2 ^ 11 * (w.toNat / 2 ^ 31 : Nat) := by
  refine toInt_of_toNat_eq_add (n := 11) ?_ (by omega) (signGroup_lt w)
  simp only [immS, toNat_append_eq_add, toNat_extractLsb'_eq_div_mod]
  omega

theorem toInt_immB (w : Word) :
    (immB w).toInt =
      ((2 * (w.toNat / 2 ^ 8 % 2 ^ 4) + 2 ^ 5 * (w.toNat / 2 ^ 25 % 2 ^ 6) + 2 ^ 11 * (w.toNat / 2 ^ 7 % 2) : Nat) : Int) -
        2 ^ 12 * (w.toNat / 2 ^ 31 : Nat) := by
  refine toInt_of_toNat_eq_add (n := 12) ?_ (by omega) (signGroup_lt w)
  simp only [immB, toNat_append_eq_add, toNat_extractLsb'_eq_div_mod, BitVec.toNat_ofNat]
  omega

theorem toNat_immU (w : Word) : (immU w).toNat = w.toNat / 2 ^ 12 * 2 ^ 12 := by
  simp only [immU, toNat_append_eq_add, toNat_extractLsb'_eq_div_mod, BitVec.toNat_ofNat]
  omega

theorem toInt_immJ (w : Word) :
    (immJ w).toInt =
      ((2 * (w.toNat / 2 ^ 21 % 2 ^ 10) + 2 ^ 11 * (w.toNat / 2 ^ 20 % 2) + 2 ^ 12 * (w.toNat / 2 ^ 12 % 2 ^ 8) : Nat) : Int) -
        2 ^ 20 * (w.toNat / 2 ^ 31 : Nat) := by
  refine toInt_of_toNat_eq_add (n := 20) ?_ (by omega) (signGroup_lt w)
  simp only [immJ, toNat_append_eq_add, toNat_extractLsb'_eq_div_mod, BitVec.toNat_ofNat]
  omega

/-- The formats without an immediate field: R and its three float variants (R51). -/
theorem immediate_of_rFormat {i : Instr}
    (h : i.mnemonic.row.format ∈ [Format.r, Format.rFp, Format.rFpCvt, Format.rFpCmp]) : i.immediate = 0 := by
  revert h
  cases i <;> simp [Instr.mnemonic, Mnemonic.row, Instr.immediate]

/-- Settles O4: the bits of each immediate as a sum of groups, and the top group's weight negated by its sign. -/
theorem immediateReconstruction : Obligations.ImmediateReconstruction :=
  ⟨fun w => ⟨toInt_immI w, toNat_extractLsb'_eq_div_mod w 20 5, toInt_immS w, toInt_immB w, toNat_immU w, toInt_immJ w⟩,
    fun _ => immediate_of_rFormat⟩

end Sys2Proof
end

section
/-! PROOFS. The encoder's range checks (30_encoding.md R59, R64). -/

namespace Sys2Proof.Machine

theorem fitsSigned_iff (w : Nat) (v : Int) : fitsSigned w v = true ↔ -(2 ^ (w - 1)) ≤ v ∧ v ≤ 2 ^ (w - 1) - 1 := by
  simp [fitsSigned]

section Formats
variable {m : Mnemonic} {rd rs1 rs2 : BitVec 5} {v : Int} {rm : BitVec 3}

theorem encodeBlock_i (h : m.row.format = .i) : encodeBlock m rd rs1 rs2 v rm =
    if fitsSigned 12 v then .ok (encI (BitVec.ofInt 12 v) rs1 (funct3Of m.row.value) rd (opcodeOf m.row.value))
    else .error .immediateOutOfRange := by
  simp only [encodeBlock, h]

theorem encodeBlock_iShift (h : m.row.format = .iShift) : encodeBlock m rd rs1 rs2 v rm =
    if decide (0 ≤ v) && decide (v ≤ 31) then
      .ok (encR (funct7Of m.row.value) (BitVec.ofInt 5 v) rs1 (funct3Of m.row.value) rd (opcodeOf m.row.value))
    else .error .immediateOutOfRange := by
  simp only [encodeBlock, h]

theorem encodeBlock_s (h : m.row.format = .s) : encodeBlock m rd rs1 rs2 v rm =
    if fitsSigned 12 v then .ok (encS (BitVec.ofInt 12 v) rs2 rs1 (funct3Of m.row.value) (opcodeOf m.row.value))
    else .error .immediateOutOfRange := by
  simp only [encodeBlock, h]

theorem encodeBlock_b (h : m.row.format = .b) : encodeBlock m rd rs1 rs2 v rm =
    if fitsSigned 13 v then .ok (encB (BitVec.ofInt 13 v) rs2 rs1 (funct3Of m.row.value) (opcodeOf m.row.value))
    else .error .immediateOutOfRange := by
  simp only [encodeBlock, h]

theorem encodeBlock_u (h : m.row.format = .u) : encodeBlock m rd rs1 rs2 v rm =
    if fitsSigned 20 v then .ok (encU (BitVec.ofInt 20 v) rd (opcodeOf m.row.value))
    else .error .immediateOutOfRange := by
  simp only [encodeBlock, h]

theorem encodeBlock_j (h : m.row.format = .j) : encodeBlock m rd rs1 rs2 v rm =
    if fitsSigned 21 v then .ok (encJ (BitVec.ofInt 21 v) rd (opcodeOf m.row.value))
    else .error .immediateOutOfRange := by
  simp only [encodeBlock, h]

end Formats

/-- The shape of every range check: a word when the test `b` decides `P` true, ImmediateOutOfRange when false. -/
theorem rangeCheck_spec {r : Except EncodeError Word} {b : Bool} {w : Word} {P : Prop}
    (hr : r = if b then .ok w else .error .immediateOutOfRange) (hb : b = true ↔ P) :
    (P → ∃ w, r = .ok w) ∧ (¬ P → r = .error .immediateOutOfRange) :=
  ⟨fun hP => ⟨w, hr.trans (if_pos (hb.2 hP))⟩, fun hP => hr.trans (if_neg (mt hb.1 hP))⟩

/-- Settles O6: the equation of each format's check, and the range its test decides. -/
theorem encoderRangeCheck : Obligations.EncoderRangeCheck := by
  intro m rd rs1 rs2 v rm lo hi h
  simp only [List.mem_cons, List.not_mem_nil, or_false, Prod.mk.injEq] at h
  obtain ⟨hf, rfl, rfl⟩ | ⟨hf, rfl, rfl⟩ | ⟨hf, rfl, rfl⟩ | ⟨hf, rfl, rfl⟩ | ⟨hf, rfl, rfl⟩ | ⟨hf, rfl, rfl⟩ := h
  · exact rangeCheck_spec (encodeBlock_i hf) (fitsSigned_iff 12 v)
  · exact rangeCheck_spec (encodeBlock_s hf) (fitsSigned_iff 12 v)
  · exact rangeCheck_spec (encodeBlock_b hf) (fitsSigned_iff 13 v)
  · exact rangeCheck_spec (encodeBlock_u hf) (fitsSigned_iff 20 v)
  · exact rangeCheck_spec (encodeBlock_j hf) (fitsSigned_iff 21 v)
  · exact rangeCheck_spec (encodeBlock_iShift hf) (by simp)

end Sys2Proof.Machine
end

section
/-! PROOFS. The words of a row, and what the decoder makes of them (30_encoding.md R68, R72). -/

namespace Sys2Proof

open Sys2Proof.Safety

/-- A word that matches a row fixing funct7, funct3 and the opcode has the row's own three fields. -/
theorem fields_of_maskR {w v : Word} (h : w &&& 0xFE00707F#32 = v) :
    funct7Of w = funct7Of v ∧ funct3Of w = funct3Of v ∧ opcodeOf w = opcodeOf v := by
  subst h
  rw [funct7Of_and, funct3Of_and, opcodeOf_and]
  exact ⟨(and_ones7 _).symm, (and_ones3 _).symm, (and_ones7 _).symm⟩

/-- A word that matches a row fixing funct3 and the opcode has the row's own two fields. -/
theorem fields_of_maskI {w v : Word} (h : w &&& 0x0000707F#32 = v) :
    funct3Of w = funct3Of v ∧ opcodeOf w = opcodeOf v := by
  subst h
  rw [funct3Of_and, opcodeOf_and]
  exact ⟨(and_ones3 _).symm, (and_ones7 _).symm⟩

/-- A row of format R or I-shift decodes as its three selector fields say. -/
theorem decodes3_of_matchRow {v : Word} {c : BitVec 5 → BitVec 5 → BitVec 5 → Instr}
    (h : ∀ w, funct7Of w = funct7Of v → funct3Of w = funct3Of v → opcodeOf w = opcodeOf v →
      matchRow w = some (c (rdOf w) (rs1Of w) (rs2Of w))) : Decodes3 0xFE00707F#32 v c := fun w hw => by
  obtain ⟨h7, h3, ho⟩ := fields_of_maskR hw
  exact decodeWord_some (h w h7 h3 ho)

/-- A row of format I decodes as its two selector fields say. -/
theorem decodesI_of_matchRow {v : Word} {c : BitVec 5 → BitVec 5 → BitVec 12 → Instr}
    (h : ∀ w, funct3Of w = funct3Of v → opcodeOf w = opcodeOf v →
      matchRow w = some (c (rdOf w) (rs1Of w) (immI w))) : DecodesI 0x0000707F#32 v c := fun w hw => by
  obtain ⟨h3, ho⟩ := fields_of_maskI hw
  exact decodeWord_some (h w h3 ho)

/-- The left-shift pattern of OP-IMM has one funct7 (R72). -/
theorem decodeOpImm_shiftLeft {w : Word} (h3 : funct3Of w = 0b001#3) :
    decodeOpImm w = if funct7Of w = 0b0000000#7 then some (.slli (rdOf w) (rs1Of w) (rs2Of w)) else none := by
  rw [decodeOpImm, h3]; rfl

/-- The right-shift pattern of OP-IMM has two (R72). -/
theorem decodeOpImm_shiftRight {w : Word} (h3 : funct3Of w = 0b101#3) :
    decodeOpImm w =
      if funct7Of w = 0b0000000#7 then some (.srli (rdOf w) (rs1Of w) (rs2Of w))
      else if funct7Of w = 0b0100000#7 then some (.srai (rdOf w) (rs1Of w) (rs2Of w))
      else none := by
  rw [decodeOpImm, h3]; rfl

theorem decodeWord_shiftLeft_reject {w : Word} (h : w &&& 0x0000707F#32 = 0x00001013#32)
    (h7 : funct7Of w ≠ 0b0000000#7) : decodeWord w = .error (.noRow w) := by
  obtain ⟨h3, ho⟩ := fields_of_maskI h
  exact decodeWord_none (by rw [matchRow_opImm ho, decodeOpImm_shiftLeft h3, if_neg h7])

theorem decodeWord_shiftRight_reject {w : Word} (h : w &&& 0x0000707F#32 = 0x00005013#32)
    (hsrl : funct7Of w ≠ 0b0000000#7) (hsra : funct7Of w ≠ 0b0100000#7) : decodeWord w = .error (.noRow w) := by
  obtain ⟨h3, ho⟩ := fields_of_maskI h
  exact decodeWord_none (by rw [matchRow_opImm ho, decodeOpImm_shiftRight h3, if_neg hsrl, if_neg hsra])

end Sys2Proof
end

section
/-! PROOFS. The integer register and immediate operations (40_integer_alu.md R110 to R129). -/

namespace Sys2Proof.Machine

open Sys2Proof.Safety

/-! ### The operations of words as the spec's pseudocode has them, on integers -/

theorem add_eq_wrap32 (a b : Word) : a + b = wrap32 (unsigned a + unsigned b) := by
  simp [wrap32, unsigned, BitVec.ofInt_add]

theorem sub_eq_wrap32 (a b : Word) : a - b = wrap32 (unsigned a - unsigned b) := by
  simp [wrap32, unsigned, sub_eq_add_neg, BitVec.ofInt_add, BitVec.ofInt_neg]

theorem shiftLeft_eq_wrap32 (a : Word) (n : Nat) : a <<< n = wrap32 (unsigned a * 2 ^ n) := by
  apply BitVec.eq_of_toNat_eq
  rw [wrap32, unsigned, ← Nat.cast_ofNat (n := 2), ← Nat.cast_pow, ← Nat.cast_mul, BitVec.ofInt_natCast,
    BitVec.toNat_shiftLeft, BitVec.toNat_ofNat, Nat.shiftLeft_eq]

theorem ushiftRight_eq_wrap32 (a : Word) (n : Nat) : a >>> n = wrap32 (unsigned a / 2 ^ n) := by
  apply BitVec.eq_of_toNat_eq
  rw [wrap32, unsigned, ← Nat.cast_ofNat (n := 2), ← Nat.cast_pow, ← Int.natCast_ediv, BitVec.ofInt_natCast,
    BitVec.toNat_ushiftRight, BitVec.toNat_ofNat, Nat.shiftRight_eq_div_pow,
    Nat.mod_eq_of_lt (Nat.lt_of_le_of_lt (Nat.div_le_self _ _) a.isLt)]

theorem sshiftRight_eq_wrap32 (a : Word) (n : Nat) : a.sshiftRight n = wrap32 (signed a / 2 ^ n) := by
  rw [BitVec.sshiftRight, Int.shiftRight_eq_div_pow]; rfl

/-- The low five bits of a register as a remainder (R110). -/
theorem shiftAmount_eq_mod (v : Word) : shiftAmount v = v.toNat % 32 := by
  simp [shiftAmount]

theorem truth_decide (p : Prop) [Decidable p] : truth (decide p) = if p then 1#32 else 0#32 := by
  simp [truth]

theorem truth_lessSigned (a b : Word) : truth (lessSigned a b) = if signed a < signed b then 1#32 else 0#32 :=
  truth_decide (signed a < signed b)

theorem truth_lessUnsigned (a b : Word) :
    truth (lessUnsigned a b) = if unsigned a < unsigned b then 1#32 else 0#32 := by
  rw [← truth_decide, lessUnsigned, BitVec.ult, unsigned, unsigned]
  simp only [Nat.cast_lt]

theorem immWord_eq_wrap32 (imm : BitVec 12) : immWord imm = wrap32 imm.toInt := rfl

/-- Sign extension keeps the value (R121). -/
theorem signed_immWord (imm : BitVec 12) : signed (immWord imm) = imm.toInt :=
  BitVec.toInt_signExtend_of_le (by decide)

theorem add_immWord_eq_wrap32 (a : Word) (imm : BitVec 12) : a + immWord imm = wrap32 (unsigned a + imm.toInt) := by
  rw [immWord_eq_wrap32, wrap32, wrap32, BitVec.ofInt_add]
  congr 1
  exact (wrap32_unsigned a).symm

/-! ### Row, result and frame -/

/-- An instruction whose whole effect is `x[rd] <- v` computes `v`, in whatever words the spec says `v`. -/
theorem exec_onlyX {i : Instr} {s : State} {rd : XReg} {v result : Word} (hexec : exec i s = completeX s rd v)
    (hv : v = result) (hp : PcFits s) : ∃ t, exec i s = .next t ∧ OnlyX s t rd result (nextPc s) := by
  rw [hexec, ← hv]
  exact completeX_fits rd v hp

/-- Settles O15: funct7 and funct3 single out the row, and each result is its operation of words read on integers. -/
theorem integerRegisterOperations : Obligations.IntegerRegisterOperations := by
  refine ⟨⟨?_, fun _ _ _ _ => exec_onlyX rfl (add_eq_wrap32 _ _)⟩,
    ⟨?_, fun _ _ _ _ => exec_onlyX rfl (sub_eq_wrap32 _ _)⟩,
    ⟨?_, fun _ _ _ _ => exec_onlyX rfl rfl⟩,
    ⟨?_, fun _ _ _ _ => exec_onlyX rfl rfl⟩,
    ⟨?_, fun _ _ _ _ => exec_onlyX rfl rfl⟩,
    ⟨?_, fun _ _ _ _ => exec_onlyX rfl (shiftAmount_eq_mod _ ▸ shiftLeft_eq_wrap32 _ _)⟩,
    ⟨?_, fun _ _ _ _ => exec_onlyX rfl (shiftAmount_eq_mod _ ▸ ushiftRight_eq_wrap32 _ _)⟩,
    ⟨?_, fun _ _ _ _ => exec_onlyX rfl (shiftAmount_eq_mod _ ▸ sshiftRight_eq_wrap32 _ _)⟩,
    ⟨?_, fun _ _ _ _ => exec_onlyX rfl (truth_lessSigned _ _)⟩,
    ⟨?_, fun _ _ _ _ => exec_onlyX rfl (truth_lessUnsigned _ _)⟩⟩
  all_goals exact decodes3_of_matchRow fun w h7 h3 ho => by rw [matchRow_op ho, decodeOp, h7, h3]; rfl

/-- The rows of format I under OP-IMM, which funct3 alone singles out. -/
theorem integerImmediateRows_decode :
    DecodesI 0x0000707F#32 0x00000013#32 Instr.addi ∧ DecodesI 0x0000707F#32 0x00007013#32 Instr.andi ∧
    DecodesI 0x0000707F#32 0x00006013#32 Instr.ori ∧ DecodesI 0x0000707F#32 0x00004013#32 Instr.xori ∧
    DecodesI 0x0000707F#32 0x00002013#32 Instr.slti ∧ DecodesI 0x0000707F#32 0x00003013#32 Instr.sltiu := by
  refine ⟨?_, ?_, ?_, ?_, ?_, ?_⟩
  all_goals exact decodesI_of_matchRow fun w h3 ho => by rw [matchRow_opImm ho, decodeOpImm, h3]; rfl

/-- The rows of format I-shift, which share their funct3 with words of no row. -/
theorem shiftImmediateRows_decode :
    Decodes3 0xFE00707F#32 0x00001013#32 Instr.slli ∧ Decodes3 0xFE00707F#32 0x00005013#32 Instr.srli ∧
    Decodes3 0xFE00707F#32 0x40005013#32 Instr.srai := by
  refine ⟨decodes3_of_matchRow fun w h7 h3 ho => ?_, decodes3_of_matchRow fun w h7 h3 ho => ?_,
    decodes3_of_matchRow fun w h7 h3 ho => ?_⟩
  · rw [matchRow_opImm ho, decodeOpImm_shiftLeft h3, h7]; rfl
  · rw [matchRow_opImm ho, decodeOpImm_shiftRight h3, h7]; rfl
  · rw [matchRow_opImm ho, decodeOpImm_shiftRight h3, h7]; rfl

/-- Settles O16: as for the register forms, with the sign-extended immediate for the second operand; a shift pattern with
another funct7 fails every funct7 test under its funct3. -/
theorem integerImmediateOperations : Obligations.IntegerImmediateOperations := by
  obtain ⟨haddi, handi, hori, hxori, hslti, hsltiu⟩ := integerImmediateRows_decode
  obtain ⟨hslli, hsrli, hsrai⟩ := shiftImmediateRows_decode
  exact ⟨⟨haddi, fun _ _ _ _ => exec_onlyX rfl (add_immWord_eq_wrap32 _ _)⟩,
    ⟨handi, fun _ _ _ _ => exec_onlyX rfl rfl⟩,
    ⟨hori, fun _ _ _ _ => exec_onlyX rfl rfl⟩,
    ⟨hxori, fun _ _ _ _ => exec_onlyX rfl rfl⟩,
    ⟨hslli, fun _ _ _ _ => exec_onlyX rfl (shiftLeft_eq_wrap32 _ _)⟩,
    ⟨hsrli, fun _ _ _ _ => exec_onlyX rfl (ushiftRight_eq_wrap32 _ _)⟩,
    ⟨hsrai, fun _ _ _ _ => exec_onlyX rfl (sshiftRight_eq_wrap32 _ _)⟩,
    ⟨hslti, fun _ _ _ _ => exec_onlyX rfl (signed_immWord _ ▸ truth_lessSigned _ _)⟩,
    ⟨hsltiu, fun _ _ _ _ => exec_onlyX rfl (truth_lessUnsigned _ _)⟩,
    fun _ => decodeWord_shiftLeft_reject, fun _ => decodeWord_shiftRight_reject⟩

end Sys2Proof.Machine
end

section
/-! PROOFS. Multiplication and division (41_muldiv.md R141 to R148). -/

namespace Sys2Proof.Machine

open Sys2Proof.Safety

/-! ### The operations of words as the spec's pseudocode has them, on integers -/

theorem mulLow_eq_wrap32 (a b : Word) : mulLow a b = wrap32 (signed a * signed b) := by
  simp [mulLow, wrap32, signed, BitVec.ofInt_mul]

/-- Sign extension represents the signed integer, `setWidth64_eq_ofInt` the unsigned one; `mulHigh_ofInt` speaks of both. -/
theorem signExtend64_eq_ofInt (a : Word) : a.signExtend 64 = BitVec.ofInt 64 (signed a) := rfl

theorem setWidth64_eq_ofInt (a : Word) : a.setWidth 64 = BitVec.ofInt 64 (unsigned a) := by
  rw [unsigned, BitVec.ofInt_natCast, BitVec.ofNat_toNat]

/-- Bits 63:32 of the two's complement of any integer are its floor over 2^32, modulo 2^32. -/
theorem extractHigh_ofInt (n : Int) : (BitVec.ofInt 64 n).extractLsb' 32 32 = wrap32 (n / 2 ^ 32) := by
  apply BitVec.eq_of_toNat_eq
  rw [BitVec.extractLsb'_toNat, Nat.shiftRight_eq_div_pow, BitVec.toNat_ofInt, wrap32, BitVec.toNat_ofInt]
  omega

/-- The high half of a product of 64-bit words is that of the integers they represent (R142 to R144). -/
theorem mulHigh_ofInt (x y : Int) : mulHigh (BitVec.ofInt 64 x) (BitVec.ofInt 64 y) = wrap32 (x * y / 2 ^ 32) := by
  rw [mulHigh, ← BitVec.ofInt_mul, extractHigh_ofInt]

theorem mulHigh_signed_signed (a b : Word) :
    mulHigh (a.signExtend 64) (b.signExtend 64) = wrap32 (signed a * signed b / 2 ^ 32) := by
  rw [signExtend64_eq_ofInt, signExtend64_eq_ofInt, mulHigh_ofInt]

theorem mulHigh_signed_unsigned (a b : Word) :
    mulHigh (a.signExtend 64) (b.setWidth 64) = wrap32 (signed a * unsigned b / 2 ^ 32) := by
  rw [signExtend64_eq_ofInt, setWidth64_eq_ofInt, mulHigh_ofInt]

theorem mulHigh_unsigned_unsigned (a b : Word) :
    mulHigh (a.setWidth 64) (b.setWidth 64) = wrap32 (unsigned a * unsigned b / 2 ^ 32) := by
  rw [setWidth64_eq_ofInt, setWidth64_eq_ofInt, mulHigh_ofInt]

theorem sdiv_eq_wrap32 (a b : Word) : a.sdiv b = wrap32 (Int.tdiv (signed a) (signed b)) := by
  apply BitVec.eq_of_toInt_eq
  rw [BitVec.toInt_sdiv, wrap32, BitVec.toInt_ofInt]; rfl

/-- The remainder of the division toward zero, as R147 computes it from the quotient. -/
theorem srem_eq_wrap32 (a b : Word) :
    a.srem b = wrap32 (signed a - signed b * Int.tdiv (signed a) (signed b)) := by
  rw [← Int.tmod_def, signed, signed, ← BitVec.toInt_srem, wrap32, BitVec.ofInt_toInt]

theorem udiv_eq_wrap32 (a b : Word) : a / b = wrap32 (unsigned a / unsigned b) := by
  rw [← wrap32_unsigned (a / b), unsigned, BitVec.toNat_udiv, Int.natCast_ediv]; rfl

theorem umod_eq_wrap32 (a b : Word) : a % b = wrap32 (unsigned a % unsigned b) := by
  rw [← wrap32_unsigned (a % b), unsigned, BitVec.toNat_umod, Int.natCast_emod]; rfl

/-! ### The results at every operand -/

/-- R145. At INT32_MIN over -1 the quotient 2^31 wraps to INT32_MIN. -/
theorem divSigned_cases (a b : Word) :
    divSigned a b =
      if b = 0#32 then 0xFFFFFFFF#32
      else if a = 0x80000000#32 ∧ b = 0xFFFFFFFF#32 then 0x80000000#32
      else wrap32 (Int.tdiv (signed a) (signed b)) := by
  rw [divSigned, sdiv_eq_wrap32]
  split_ifs with hzero hoverflow
  · rfl
  · obtain ⟨rfl, rfl⟩ := hoverflow
    decide
  · rfl

/-- R147. At INT32_MIN over -1 the division is exact. -/
theorem remSigned_cases (a b : Word) :
    remSigned a b =
      if b = 0#32 then a
      else if a = 0x80000000#32 ∧ b = 0xFFFFFFFF#32 then 0#32
      else wrap32 (signed a - signed b * Int.tdiv (signed a) (signed b)) := by
  rw [remSigned, srem_eq_wrap32]
  split_ifs with hzero hoverflow
  · rfl
  · obtain ⟨rfl, rfl⟩ := hoverflow
    decide
  · rfl

theorem divUnsigned_cases (a b : Word) :
    divUnsigned a b = if b = 0#32 then 0xFFFFFFFF#32 else wrap32 (unsigned a / unsigned b) := by
  rw [divUnsigned, udiv_eq_wrap32]

theorem remUnsigned_cases (a b : Word) :
    remUnsigned a b = if b = 0#32 then a else wrap32 (unsigned a % unsigned b) := by
  rw [remUnsigned, umod_eq_wrap32]

/-! ### Row, result and frame -/

/-- The rows of the third funct7 under OP, which funct3 tells apart (R72). -/
theorem mulDivRows_decode :
    (Decodes3 0xFE00707F#32 0x02000033#32 Instr.mul ∧ Decodes3 0xFE00707F#32 0x02001033#32 Instr.mulh ∧
      Decodes3 0xFE00707F#32 0x02002033#32 Instr.mulhsu ∧ Decodes3 0xFE00707F#32 0x02003033#32 Instr.mulhu) ∧
    Decodes3 0xFE00707F#32 0x02004033#32 Instr.div ∧ Decodes3 0xFE00707F#32 0x02005033#32 Instr.divu ∧
    Decodes3 0xFE00707F#32 0x02006033#32 Instr.rem ∧ Decodes3 0xFE00707F#32 0x02007033#32 Instr.remu := by
  refine ⟨⟨?_, ?_, ?_, ?_⟩, ?_, ?_, ?_, ?_⟩
  all_goals exact decodes3_of_matchRow fun w h7 h3 ho => by rw [matchRow_op ho, decodeOp, h7, h3]; rfl

/-- Settles O17: both extensions represent the operands' integers, so the 64-bit product's high half is the floor of the
exact product over 2^32. -/
theorem multiplication : Obligations.Multiplication := by
  obtain ⟨⟨hmul, hmulh, hmulhsu, hmulhu⟩, -⟩ := mulDivRows_decode
  exact ⟨⟨hmul, fun _ _ _ _ => exec_onlyX rfl (mulLow_eq_wrap32 _ _)⟩,
    ⟨hmulh, fun _ _ _ _ => exec_onlyX rfl (mulHigh_signed_signed _ _)⟩,
    ⟨hmulhsu, fun _ _ _ _ => exec_onlyX rfl (mulHigh_signed_unsigned _ _)⟩,
    ⟨hmulhu, fun _ _ _ _ => exec_onlyX rfl (mulHigh_unsigned_unsigned _ _)⟩⟩

/-- Settles O18: the word operations are the integer ones modulo 2^32, which at INT32_MIN over -1 agree with the results
the spec lists. -/
theorem divisionAndRemainder : Obligations.DivisionAndRemainder := by
  obtain ⟨-, hdiv, hdivu, hrem, hremu⟩ := mulDivRows_decode
  exact ⟨⟨hdiv, fun _ _ _ _ => exec_onlyX rfl (divSigned_cases _ _)⟩,
    ⟨hdivu, fun _ _ _ _ => exec_onlyX rfl (divUnsigned_cases _ _)⟩,
    ⟨hrem, fun _ _ _ _ => exec_onlyX rfl (remSigned_cases _ _)⟩,
    ⟨hremu, fun _ _ _ _ => exec_onlyX rfl (remUnsigned_cases _ _)⟩⟩

end Sys2Proof.Machine
end

section
/-! PROOFS. Loads and stores (42_load_store.md R160 to R168). -/

namespace Sys2Proof.Machine

open Sys2Proof.Safety

/-! ### The rows -/

/-- A row of format S decodes as its two selector fields say. -/
theorem decodesS_of_matchRow {v : Word} {c : BitVec 5 → BitVec 5 → BitVec 12 → Instr}
    (h : ∀ w, funct3Of w = funct3Of v → opcodeOf w = opcodeOf v →
      matchRow w = some (c (rs1Of w) (rs2Of w) (immS w))) : DecodesS 0x0000707F#32 v c := fun w hw => by
  obtain ⟨h3, ho⟩ := fields_of_maskI hw
  exact decodeWord_some (h w h3 ho)

/-- The rows of LOAD, which funct3 tells apart (R73). -/
theorem loadRows_decode :
    DecodesI 0x0000707F#32 0x00000003#32 Instr.lb ∧ DecodesI 0x0000707F#32 0x00001003#32 Instr.lh ∧
    DecodesI 0x0000707F#32 0x00002003#32 Instr.lw ∧ DecodesI 0x0000707F#32 0x00004003#32 Instr.lbu ∧
    DecodesI 0x0000707F#32 0x00005003#32 Instr.lhu := by
  refine ⟨?_, ?_, ?_, ?_, ?_⟩
  all_goals exact decodesI_of_matchRow fun w h3 ho => by rw [matchRow_load ho, decodeLoad, h3]; rfl

/-- The rows of STORE, which funct3 tells apart (R73). -/
theorem storeRows_decode :
    DecodesS 0x0000707F#32 0x00000023#32 Instr.sb ∧ DecodesS 0x0000707F#32 0x00001023#32 Instr.sh ∧
    DecodesS 0x0000707F#32 0x00002023#32 Instr.sw := by
  refine ⟨?_, ?_, ?_⟩
  all_goals exact decodesS_of_matchRow fun w h3 ho => by rw [matchRow_store ho, decodeStore, h3]; rfl

/-! ### The extensions, on integers -/

theorem leValue_lt (n : Nat) (b : Nat → Byte) : leValue n b < 2 ^ (8 * n) := by
  induction n generalizing b with
  | zero => simp [leValue]
  | succ n ih =>
    have hrest := ih fun i => b (i + 1)
    have hfirst := (b 0).isLt
    rw [leValue_succ, Nat.mul_succ, pow_add]
    omega

/-- Sign extension of an `n`-bit value is `sext_n` (00_scope.md R8). -/
theorem signExtend_ofNat_eq_wrap32 {n v : Nat} (hn : 0 < n) (hv : v < 2 ^ n) :
    (BitVec.ofNat n v).signExtend 32 = wrap32 (sextInt n v) := by
  have htoInt : (BitVec.ofNat n v).toInt = sextInt n v := by
    obtain ⟨n, rfl⟩ := Nat.exists_eq_succ_of_ne_zero hn.ne'
    rw [BitVec.toInt_eq_toNat_cond, BitVec.toNat_ofNat, Nat.mod_eq_of_lt hv, sextInt, Nat.succ_sub_one, pow_succ]
    split_ifs <;> push_cast <;> omega
  rw [BitVec.signExtend, htoInt, wrap32]

theorem zext_eq_wrap32 (v : Nat) : zext v = wrap32 v := (BitVec.ofInt_natCast 32 v).symm

/-! ### What a load and a store answer -/

theorem loadValue_mapped {s : State} {rs1 : XReg} {imm : BitVec 12} {n : Nat} {b : Nat → Byte}
    (hsum : SumFits s.params (unsigned (readX s rs1) + imm.toInt)) (hacc : AccessFits s.params (ea s rs1 imm) n)
    (hb : ∀ i, i < n → readByte s.mem (wrap32 (unsigned (ea s rs1 imm) + i)) = some (b i)) :
    loadValue s rs1 imm n = .ok (leValue n b) := by
  simp only [loadValue, effectiveAddress_fits hsum, memRead_mapped hacc hb]

theorem loadValue_unmapped {s : State} {rs1 : XReg} {imm : BitVec 12} {n j : Nat} (hj : j < n)
    (hsum : SumFits s.params (unsigned (readX s rs1) + imm.toInt)) (hacc : AccessFits s.params (ea s rs1 imm) (j + 1))
    (hb : ∀ i, i < j → readByte s.mem (wrap32 (unsigned (ea s rs1 imm) + i)) ≠ none)
    (hnone : readByte s.mem (wrap32 (unsigned (ea s rs1 imm) + j)) = none) :
    loadValue s rs1 imm n = .error (.unmappedMemory (wrap32 (unsigned (ea s rs1 imm) + j))) := by
  simp only [loadValue, effectiveAddress_fits hsum, memRead_unmapped hj hacc hb hnone]

theorem storedMemory_eq_memWrite {s : State} {rs1 : XReg} {imm : BitVec 12} (rs2 : XReg) (n : Nat)
    (hsum : SumFits s.params (unsigned (readX s rs1) + imm.toInt)) :
    storedMemory s rs1 rs2 imm n = memWrite s.params s.mem (ea s rs1 imm) n (readX s rs2) := by
  simp only [storedMemory, effectiveAddress_fits hsum]

/-! ### Result, frame and fault -/

section
variable {c : XReg → XReg → BitVec 12 → Instr} {n : Nat}

/-- An instruction that loads `n` bytes through an extension `g` writes them extended, in whatever words the spec says
the extension. -/
theorem loads_of_exec {g : Nat → Word} {ext : Nat → Int}
    (hexec : ∀ s rd rs1 imm, exec (c rd rs1 imm) s = completeLoad s rd g (loadValue s rs1 imm n))
    (hext : ∀ v, v < 2 ^ (8 * n) → g v = wrap32 (ext v)) : Loads c n ext := by
  intro s rd rs1 imm b hpc hsum hacc hb
  rw [hexec, loadValue_mapped hsum hacc hb, ← hext _ (leValue_lt n b)]
  exact completeX_fits rd _ hpc

/-- The fault of a load does not look at `rd`, so it is the same for `rd = 0` (R169). -/
theorem loadFaults_of_exec {g : Nat → Word}
    (hexec : ∀ s rd rs1 imm, exec (c rd rs1 imm) s = completeLoad s rd g (loadValue s rs1 imm n)) :
    LoadFaults c n := by
  intro s rd rs1 imm j hj hsum hacc hb hnone
  rw [hexec, loadValue_unmapped hj hsum hacc hb hnone]
  exact ⟨_, raise_next s _, haltError_faulted s _⟩

theorem stores_of_exec (hn : n ≤ 4)
    (hexec : ∀ s rs1 rs2 imm, exec (c rs1 rs2 imm) s = completeStore s (storedMemory s rs1 rs2 imm n)) :
    Stores c n := by
  intro s rs1 rs2 imm hpc hsum hacc
  obtain ⟨m, hm⟩ := memWrite_fits s.mem (readX s rs2) hacc
  rw [hexec, storedMemory_eq_memWrite rs2 n hsum, hm]
  exact ⟨_, complete_fits _ hpc, retire_setMem_onlyMem hn hm⟩

end

/-- Settles O20: each load is one read of memory through one extension, and the read fails at the first unmapped byte. -/
theorem loadsReadMemory : Obligations.LoadsReadMemory := by
  obtain ⟨hlb, hlh, hlw, hlbu, hlhu⟩ := loadRows_decode
  exact ⟨
    ⟨hlb, loads_of_exec (fun _ _ _ _ => rfl) fun _ => signExtend_ofNat_eq_wrap32 (by decide),
      loadFaults_of_exec fun _ _ _ _ => rfl⟩,
    ⟨hlh, loads_of_exec (fun _ _ _ _ => rfl) fun _ => signExtend_ofNat_eq_wrap32 (by decide),
      loadFaults_of_exec fun _ _ _ _ => rfl⟩,
    ⟨hlw, loads_of_exec (fun _ _ _ _ => rfl) fun v _ => zext_eq_wrap32 v,
      loadFaults_of_exec fun _ _ _ _ => rfl⟩,
    ⟨hlbu, loads_of_exec (fun _ _ _ _ => rfl) fun v _ => zext_eq_wrap32 v,
      loadFaults_of_exec fun _ _ _ _ => rfl⟩,
    ⟨hlhu, loads_of_exec (fun _ _ _ _ => rfl) fun v _ => zext_eq_wrap32 v,
      loadFaults_of_exec fun _ _ _ _ => rfl⟩⟩

/-- Settles O21: each store is one write of memory, which succeeds where the address sums fit and leaves the rest alone. -/
theorem storesWriteMemory : Obligations.StoresWriteMemory := by
  obtain ⟨hsb, hsh, hsw⟩ := storeRows_decode
  exact ⟨⟨hsb, stores_of_exec (by decide) fun _ _ _ _ => rfl⟩,
    ⟨hsh, stores_of_exec (by decide) fun _ _ _ _ => rfl⟩,
    ⟨hsw, stores_of_exec (by decide) fun _ _ _ _ => rfl⟩⟩

end Sys2Proof.Machine
end

section
/-! PROOFS. Upper immediates and jumps (43_upper_and_jumps.md R180 to R184). -/

namespace Sys2Proof.Machine

open Sys2Proof.Safety

/-! ### The rows -/

/-- A word that matches a row fixing the opcode alone (formats U and J) has the row's own opcode. -/
theorem opcode_of_maskU {w v : Word} (h : w &&& 0x0000007F#32 = v) : opcodeOf w = opcodeOf v := by
  subst h
  rw [opcodeOf_and]
  exact (and_ones7 _).symm

theorem matchRow_lui {w : Word} (h : opcodeOf w = opLui) : matchRow w = some (.lui (rdOf w) (immU w)) := by
  rw [matchRow, h]; rfl

theorem matchRow_auipc {w : Word} (h : opcodeOf w = opAuipc) : matchRow w = some (.auipc (rdOf w) (immU w)) := by
  rw [matchRow, h]; rfl

theorem matchRow_jal {w : Word} (h : opcodeOf w = opJal) : matchRow w = some (.jal (rdOf w) (immJ w)) := by
  rw [matchRow, h]; rfl

/-- The JALR opcode has one funct3 (R71). -/
theorem matchRow_jalr {w : Word} (h : opcodeOf w = opJalr) :
    matchRow w = if funct3Of w = 0b000#3 then some (.jalr (rdOf w) (rs1Of w) (immI w)) else none := by
  rw [matchRow, h]; rfl

/-! ### Target and link -/

theorem jalTarget_fits {s : State} {off : BitVec 21} (h : SumFits s.params (unsigned s.pc + off.toInt)) :
    jalTarget s off = .ok (wrap32 (unsigned s.pc + off.toInt)) :=
  addressOf_fits h

theorem jalrTarget_fits {s : State} {rs1 : XReg} {imm : BitVec 12}
    (h : SumFits s.params (unsigned (readX s rs1) + imm.toInt)) :
    jalrTarget s rs1 imm = .ok (wrap32 (unsigned (readX s rs1) + imm.toInt) &&& 0xFFFFFFFE#32) := by
  simp only [jalrTarget, addressOf_fits h]

/-- A jump whose two sums fit writes the link, takes the target and changes nothing else. The target is given before the
link is written, so `rd = rs1` is no special case (R183, R184). -/
theorem exec_jump_onlyX {i : Instr} {s : State} {rd : XReg} {target : Except Fault Word} {a : Word}
    (hexec : exec i s = completeJump s rd target) (htarget : target = .ok a) (hp : PcFits s) :
    ∃ t, exec i s = .next t ∧ OnlyX s t rd (nextPc s) a := by
  have hend : completeJump s rd (.ok a) = .next (retire (writeX s rd (nextPc s)) a) := by
    simp only [completeJump, pcPlus4_fits hp, completeAt]
  exact ⟨_, by rw [hexec, htarget, hend], retire_writeX_onlyX s rd _ a⟩

/-- Settles O24: the opcode singles out each row, and the sum of AUIPC is the sum of words. -/
theorem upperImmediates : Obligations.UpperImmediates :=
  ⟨fun _ hw => decodeWord_some (matchRow_lui (opcode_of_maskU hw)),
    fun _ hw => decodeWord_some (matchRow_auipc (opcode_of_maskU hw)),
    fun _ _ _ hp => ⟨exec_onlyX rfl rfl hp, exec_onlyX rfl (add_eq_wrap32 _ _) hp⟩⟩

/-- Settles O25: both jumps are one link and one target, and a JALR word with another funct3 fails the one funct3 test
under its opcode. -/
theorem jumpsAndLinks : Obligations.JumpsAndLinks := by
  refine ⟨fun _ hw => decodeWord_some (matchRow_jal (opcode_of_maskU hw)),
    decodesI_of_matchRow fun w h3 ho => ?_, fun w hw h3 => ?_,
    fun s rd off hp hsum => exec_jump_onlyX rfl (jalTarget_fits hsum) hp,
    fun s rd rs1 imm hp hsum => exec_jump_onlyX rfl (jalrTarget_fits hsum) hp⟩
  · rw [matchRow_jalr ho, h3]; rfl
  · exact decodeWord_none (by rw [matchRow_jalr (opcode_of_maskU hw), if_neg h3])

end Sys2Proof.Machine
end

section
/-! PROOFS. Conditional branches (44_branches.md R190 to R196). -/

namespace Sys2Proof.Machine

open Sys2Proof.Safety

/-! ### The rows -/

/-- A row of format B decodes as its two selector fields say. -/
theorem decodesB_of_matchRow {v : Word} {c : BitVec 5 → BitVec 5 → BitVec 13 → Instr}
    (h : ∀ w, funct3Of w = funct3Of v → opcodeOf w = opcodeOf v →
      matchRow w = some (c (rs1Of w) (rs2Of w) (immB w))) : DecodesB 0x0000707F#32 v c := fun w hw => by
  obtain ⟨h3, ho⟩ := fields_of_maskI hw
  exact decodeWord_some (h w h3 ho)

/-- The rows of BRANCH, which funct3 tells apart (R73). -/
theorem branchRows_decode :
    DecodesB 0x0000707F#32 0x00000063#32 Instr.beq ∧ DecodesB 0x0000707F#32 0x00001063#32 Instr.bne ∧
    DecodesB 0x0000707F#32 0x00004063#32 Instr.blt ∧ DecodesB 0x0000707F#32 0x00005063#32 Instr.bge ∧
    DecodesB 0x0000707F#32 0x00006063#32 Instr.bltu ∧ DecodesB 0x0000707F#32 0x00007063#32 Instr.bgeu := by
  refine ⟨?_, ?_, ?_, ?_, ?_, ?_⟩
  all_goals exact decodesB_of_matchRow fun w h3 ho => by rw [matchRow_branch ho, decodeBranch, h3]; rfl

/-- The two funct3 values under BRANCH that no row has (R190). -/
theorem decodeWord_branch_reject {w : Word}
    (h : w &&& 0x0000707F#32 = 0x00002063#32 ∨ w &&& 0x0000707F#32 = 0x00003063#32) :
    decodeWord w = .error (.noRow w) := by
  apply decodeWord_none
  rcases h with h | h
  all_goals
    obtain ⟨h3, ho⟩ := fields_of_maskI h
    rw [matchRow_branch ho, decodeBranch, h3]; rfl

/-! ### The predicates, on integers -/

theorem lessSigned_iff (a b : Word) : lessSigned a b = true ↔ signed a < signed b := decide_eq_true_iff

theorem lessUnsigned_iff (a b : Word) : lessUnsigned a b = true ↔ unsigned a < unsigned b := by
  rw [lessUnsigned, BitVec.ult, decide_eq_true_iff, unsigned, unsigned, Nat.cast_lt]

/-- BGE and BGEU test the negation of BLT and BLTU, which on integers is `≥`. -/
theorem not_eq_true_iff_ge {t : Bool} {m n : Int} (h : t = true ↔ m < n) : (!t) = true ↔ m ≥ n := by
  rw [Bool.not_eq_true', ← Bool.not_eq_true, h, not_lt]

/-! ### Target and frame -/

theorem branchTarget_fits {s : State} {off : BitVec 13} (h : SumFits s.params (unsigned s.pc + off.toInt)) :
    branchTarget s off = .ok (wrap32 (unsigned s.pc + off.toInt)) :=
  addressOf_fits h

theorem branchIf_taken {s : State} {off : BitVec 13} (h : SumFits s.params (unsigned s.pc + off.toInt)) :
    branchIf s true off = .next (retire s (wrap32 (unsigned s.pc + off.toInt))) := by
  rw [branchIf, if_pos rfl, branchTarget_fits h, completeAt]

theorem branchIf_notTaken {s : State} (off : BitVec 13) (h : PcFits s) :
    branchIf s false off = .next (retire s (nextPc s)) :=
  complete_fits s h

/-- An instruction that branches on a test of its two registers branches on the predicate the test decides. Only the sum
of the way it goes has to fit. -/
theorem branches_of_exec {c : XReg → XReg → BitVec 13 → Instr} {test : Word → Word → Bool} {P : Word → Word → Prop}
    (hexec : ∀ s rs1 rs2 off, exec (c rs1 rs2 off) s = branchIf s (test (readX s rs1) (readX s rs2)) off)
    (htest : ∀ a b, test a b = true ↔ P a b) : Branches c P := by
  refine fun s rs1 rs2 off => ⟨fun hP hsum => ?taken, fun hP hpc => ?notTaken⟩
  case taken =>
    rw [hexec, (htest _ _).2 hP, branchIf_taken hsum]
    exact ⟨_, rfl, retire_onlyPc s _⟩
  case notTaken =>
    rw [hexec, Bool.eq_false_iff.2 (mt (htest _ _).1 hP), branchIf_notTaken off hpc]
    exact ⟨_, rfl, retire_onlyPc s _⟩

/-- Settles O26: each branch is one test of its two registers, and the test decides the spec's predicate. -/
theorem conditionalBranches : Obligations.ConditionalBranches := by
  obtain ⟨hbeq, hbne, hblt, hbge, hbltu, hbgeu⟩ := branchRows_decode
  exact ⟨⟨hbeq, branches_of_exec (fun _ _ _ _ => rfl) fun _ _ => beq_iff_eq⟩,
    ⟨hbne, branches_of_exec (fun _ _ _ _ => rfl) fun _ _ => bne_iff_ne⟩,
    ⟨hblt, branches_of_exec (fun _ _ _ _ => rfl) lessSigned_iff⟩,
    ⟨hbge, branches_of_exec (fun _ _ _ _ => rfl) fun a b => not_eq_true_iff_ge (lessSigned_iff a b)⟩,
    ⟨hbltu, branches_of_exec (fun _ _ _ _ => rfl) lessUnsigned_iff⟩,
    ⟨hbgeu, branches_of_exec (fun _ _ _ _ => rfl) fun a b => not_eq_true_iff_ge (lessUnsigned_iff a b)⟩,
    fun _ => decodeWord_branch_reject⟩

end Sys2Proof.Machine
end

section
/-! PROOFS. The rows of OP-FP (30_encoding.md R74). -/

namespace Sys2Proof

open Sys2Proof.Safety

/-- A word that matches a row fixing funct7 and the opcode has the row's own two fields. -/
theorem fields_of_maskFp {w v : Word} (h : w &&& 0xFE00007F#32 = v) :
    funct7Of w = funct7Of v ∧ opcodeOf w = opcodeOf v := by
  subst h
  rw [funct7Of_and, opcodeOf_and]
  exact ⟨(and_ones7 _).symm, (and_ones7 _).symm⟩

/-- A word that matches a row fixing the rs2 field too has that field as well. -/
theorem fields_of_maskCvt {w v : Word} (h : w &&& 0xFFF0007F#32 = v) :
    funct7Of w = funct7Of v ∧ rs2Of w = rs2Of v ∧ opcodeOf w = opcodeOf v := by
  subst h
  rw [funct7Of_and, rs2Of_and, opcodeOf_and]
  exact ⟨(and_ones7 _).symm, (and_ones5 _).symm, (and_ones7 _).symm⟩

/-- A word that matches a row fixing all but rs1 and rd has the row's own four fields. -/
theorem fields_of_maskMv {w v : Word} (h : w &&& 0xFFF0707F#32 = v) :
    funct7Of w = funct7Of v ∧ rs2Of w = rs2Of v ∧ funct3Of w = funct3Of v ∧ opcodeOf w = opcodeOf v := by
  subst h
  rw [funct7Of_and, rs2Of_and, funct3Of_and, opcodeOf_and]
  exact ⟨(and_ones7 _).symm, (and_ones5 _).symm, (and_ones3 _).symm, (and_ones7 _).symm⟩

/-- A row of format R-FP decodes as funct7 says; the `rm` field is free (R68). -/
theorem decodesFp_of_decodeFp {v : Word} {c : BitVec 5 → BitVec 5 → BitVec 5 → BitVec 3 → Instr}
    (hv : opcodeOf v = opFp)
    (h : ∀ w, funct7Of w = funct7Of v → decodeFp w = some (c (rdOf w) (rs1Of w) (rs2Of w) (funct3Of w))) :
    DecodesFp 0xFE00007F#32 v c := fun w hw => by
  obtain ⟨h7, ho⟩ := fields_of_maskFp hw
  exact decodeWord_some ((matchRow_fp (ho.trans hv)).trans (h w h7))

/-- A row of format R-FP-CVT with an `rm` field decodes as funct7 and rs2 say. -/
theorem decodesCvt_of_decodeFp {v : Word} {c : BitVec 5 → BitVec 5 → BitVec 3 → Instr} (hv : opcodeOf v = opFp)
    (h : ∀ w, funct7Of w = funct7Of v → rs2Of w = rs2Of v → decodeFp w = some (c (rdOf w) (rs1Of w) (funct3Of w))) :
    DecodesCvt 0xFFF0007F#32 v c := fun w hw => by
  obtain ⟨h7, h2, ho⟩ := fields_of_maskCvt hw
  exact decodeWord_some ((matchRow_fp (ho.trans hv)).trans (h w h7 h2))

/-- A row of format R-FP-CVT without one decodes as its four selector fields say. -/
theorem decodesMv_of_decodeFp {v : Word} {c : BitVec 5 → BitVec 5 → Instr} (hv : opcodeOf v = opFp)
    (h : ∀ w, funct7Of w = funct7Of v → rs2Of w = rs2Of v → funct3Of w = funct3Of v →
      decodeFp w = some (c (rdOf w) (rs1Of w))) : DecodesMv 0xFFF0707F#32 v c := fun w hw => by
  obtain ⟨h7, h2, h3, ho⟩ := fields_of_maskMv hw
  exact decodeWord_some ((matchRow_fp (ho.trans hv)).trans (h w h7 h2 h3))

/-- The rows of format R-FP, which funct7 tells apart. -/
theorem floatArithmeticRows_decode :
    DecodesFp 0xFE00007F#32 0x00000053#32 Instr.faddS ∧ DecodesFp 0xFE00007F#32 0x08000053#32 Instr.fsubS ∧
    DecodesFp 0xFE00007F#32 0x10000053#32 Instr.fmulS ∧ DecodesFp 0xFE00007F#32 0x18000053#32 Instr.fdivS := by
  refine ⟨?_, ?_, ?_, ?_⟩
  all_goals exact decodesFp_of_decodeFp rfl fun w h7 => by rw [decodeFp, h7]; rfl

/-- The rows of format R-FP-CVT with an `rm` field. -/
theorem floatConversionRows_decode :
    DecodesCvt 0xFFF0007F#32 0xC0000053#32 Instr.fcvtWS ∧ DecodesCvt 0xFFF0007F#32 0xD0000053#32 Instr.fcvtSW := by
  refine ⟨?_, ?_⟩
  all_goals exact decodesCvt_of_decodeFp rfl fun w h7 h2 => by rw [decodeFp, h7, h2]; rfl

/-- The rows of format R-FP-CVT without one. -/
theorem floatMoveRows_decode :
    DecodesMv 0xFFF0707F#32 0xE0000053#32 Instr.fmvXW ∧ DecodesMv 0xFFF0707F#32 0xF0000053#32 Instr.fmvWX := by
  refine ⟨?_, ?_⟩
  all_goals exact decodesMv_of_decodeFp rfl fun w h7 h2 h3 => by rw [decodeFp, h7, h2, h3]; rfl

/-- The rows of format R-FP-CMP, which funct3 tells apart. -/
theorem floatComparisonRows_decode :
    Decodes3 0xFE00707F#32 0xA0002053#32 Instr.feqS ∧ Decodes3 0xFE00707F#32 0xA0001053#32 Instr.fltS ∧
    Decodes3 0xFE00707F#32 0xA0000053#32 Instr.fleS := by
  refine ⟨?_, ?_, ?_⟩
  all_goals exact decodes3_of_matchRow fun w h7 h3 ho => by rw [matchRow_fp ho, decodeFp, h7, h3]; rfl

end Sys2Proof
end

section
/-! PROOFS. Float moves and comparisons (45_float.md R210 to R214). -/

namespace Sys2Proof.Machine

open Sys2Proof.Safety

/-! ### Moves -/

/-- An instruction whose whole effect is `f[rd] <- v`. -/
theorem exec_onlyF {i : Instr} {s : State} {rd : FReg} {v : Word} (hexec : exec i s = completeF s rd v)
    (hp : PcFits s) : ∃ t, exec i s = .next t ∧ OnlyF s t rd v 0 := by
  rw [hexec]
  exact completeF_fits rd v hp

/-- Settles O33: each move is one write of the pattern read, to the other register file. -/
theorem floatMovesCopyPatterns : Obligations.FloatMovesCopyPatterns := by
  obtain ⟨hfmvXW, hfmvWX⟩ := floatMoveRows_decode
  exact ⟨hfmvXW, hfmvWX, fun _ _ _ hp => ⟨exec_onlyX rfl rfl hp, exec_onlyF rfl hp⟩⟩

/-! ### Comparisons -/

/-- Every finite value is below 2^128 in magnitude (R200). -/
theorem value_bounds_of_finite {v : Word} (h : IsFinite v) :
    -(2 ^ 149 * 2 ^ 128) < value v ∧ value v < 2 ^ 149 * 2 ^ 128 := by
  have htop : unitsOf (magnitude v) < 2 ^ 149 * 2 ^ 128 :=
    (unitsOf_strictMono h).trans_eq (show unitsOf 0x7F800000 = 2 ^ 149 * 2 ^ 128 by decide)
  unfold value
  split <;> omega

/-- What has a rank is finite, with its value for rank, or an infinity, with a rank beyond all of those. -/
theorem rank_eq_some_cases {v : Word} {x : Int} (h : rank v = some x) :
    (∃ neg units, datum v = .finite neg units ∧ x = signedUnits neg units ∧
      -(2 ^ 149 * 2 ^ 128) < x ∧ x < 2 ^ 149 * 2 ^ 128) ∨
    (∃ neg, datum v = .inf neg ∧ x = if neg then -(2 ^ 149 * 2 ^ 128) else 2 ^ 149 * 2 ^ 128) := by
  rcases datum_cases v with hfin | hinf | hnan
  · rw [rank, if_pos hfin] at h
    obtain rfl := Option.some.inj h
    exact .inl ⟨_, _, datum_finite hfin, rfl, value_bounds_of_finite hfin⟩
  · rw [rank, if_neg (by omega), if_pos hinf] at h
    exact .inr ⟨_, datum_infinite hinf, (Option.some.inj h).symm⟩
  · rw [rank, if_neg (by omega), if_neg (by omega)] at h
    cases h

/-- What has no rank is a NaN. -/
theorem datum_of_rank_eq_none {v : Word} (h : rank v = none) : datum v = .nan := by
  unfold rank at h
  split_ifs at h with hfin hinf
  exact datum_nan (((datum_cases v).resolve_left hfin).resolve_left hinf)

@[simp] theorem floatEq_nan_right (d : Datum) : floatEq d .nan = false := by cases d <;> rfl

@[simp] theorem floatLt_nan_right (d : Datum) : floatLt d .nan = false := by cases d <;> rfl

theorem floatEq_of_ranks {a b : Word} {x y : Int} (ha : rank a = some x) (hb : rank b = some y) :
    floatEq (datum a) (datum b) = decide (x = y) := by
  obtain ⟨n, u, hda, hx, hx'⟩ | ⟨n, hda, hx⟩ := rank_eq_some_cases ha <;>
    obtain ⟨m, w, hdb, hy, hy'⟩ | ⟨m, hdb, hy⟩ := rank_eq_some_cases hb <;> rw [hda, hdb]
  · rw [hx, hy]; rfl
  · cases m <;> simp [floatEq] at hy ⊢ <;> omega
  · cases n <;> simp [floatEq] at hx ⊢ <;> omega
  · cases n <;> cases m <;> simp [floatEq, hx, hy]

theorem floatLt_of_ranks {a b : Word} {x y : Int} (ha : rank a = some x) (hb : rank b = some y) :
    floatLt (datum a) (datum b) = decide (x < y) := by
  obtain ⟨n, u, hda, hx, hx'⟩ | ⟨n, hda, hx⟩ := rank_eq_some_cases ha <;>
    obtain ⟨m, w, hdb, hy, hy'⟩ | ⟨m, hdb, hy⟩ := rank_eq_some_cases hb <;> rw [hda, hdb]
  · rw [hx, hy]; rfl
  · cases m <;> simp [floatLt] at hy ⊢ <;> omega
  · cases n <;> simp [floatLt] at hx ⊢ <;> omega
  · cases n <;> cases m <;> simp [floatLt, hx, hy]

theorem floatLe_of_ranks {a b : Word} {x y : Int} (ha : rank a = some x) (hb : rank b = some y) :
    floatLe (datum a) (datum b) = decide (x ≤ y) := by
  rw [floatLe, floatLt_of_ranks ha hb, floatEq_of_ranks ha hb, ← Bool.decide_or]
  simp only [le_iff_lt_or_eq]

/-- An instruction that writes the truth of a test of two data, false of a NaN and `R` of the ranks of any others. -/
theorem compares_of_exec {c : XReg → FReg → FReg → Instr} {test : Datum → Datum → Bool} {R : Int → Int → Bool}
    (hexec : ∀ s rd rs1 rs2,
      exec (c rd rs1 rs2) s = completeX s rd (truth (test (datum (readF s rs1)) (datum (readF s rs2)))))
    (hnan : ∀ d, test .nan d = false ∧ test d .nan = false)
    (hrank : ∀ {a b x y}, rank a = some x → rank b = some y → test (datum a) (datum b) = R x y) : Compares c R := by
  intro s rd rs1 rs2
  refine exec_onlyX (hexec s rd rs1 rs2) ?_
  cases ha : rank (readF s rs1) with
  | none => rw [datum_of_rank_eq_none ha, (hnan _).1]; rfl
  | some x =>
    cases hb : rank (readF s rs2) with
    | none => rw [datum_of_rank_eq_none hb, (hnan _).2]; rfl
    | some y => rw [hrank ha hb]; rfl

/-- Settles O34: each comparison is false of a NaN, and of other data the comparison of their ranks. -/
theorem floatComparisons : Obligations.FloatComparisons := by
  obtain ⟨hfeq, hflt, hfle⟩ := floatComparisonRows_decode
  exact ⟨
    ⟨hfeq, compares_of_exec (fun _ _ _ _ => rfl) (fun d => ⟨rfl, floatEq_nan_right d⟩) floatEq_of_ranks⟩,
    ⟨hflt, compares_of_exec (fun _ _ _ _ => rfl) (fun d => ⟨rfl, floatLt_nan_right d⟩) floatLt_of_ranks⟩,
    ⟨hfle, compares_of_exec (fun _ _ _ _ => rfl) (fun d => ⟨rfl, by simp [floatLe]⟩) floatLe_of_ranks⟩⟩

end Sys2Proof.Machine
end

section
/-! PROOFS. Float arithmetic (45_float.md R203 to R207). -/

namespace Sys2Proof.Machine

open Sys2Proof.Safety

/-! ### From the result of an operation to the register written -/

/-- `c` is the arithmetic instruction that writes what `op` answers of the patterns of its operands, whatever `rm` is. -/
def Evaluates (c : FReg → FReg → FReg → BitVec 3 → Instr) (op : Word → Word → Option Word) : Prop :=
  ∀ s rd rs1 rs2 rm, exec (c rd rs1 rs2 rm) s = completeArith s rd (op (readF s rs1) (readF s rs2))

section
variable {c : FReg → FReg → FReg → BitVec 3 → Instr} {op : Word → Word → Option Word} {P : Word → Word → Prop}

/-- A pattern answered is written and no NaN is drawn. -/
theorem arithmetic_of_some {Q : Word → Word → Word → Prop} (hc : Evaluates c op)
    (hop : ∀ a b, P a b → ∃ v, op a b = some v ∧ Q a b v) : Arithmetic c P Q 0 := by
  intro s rd rs1 rs2 rm hpc hP
  obtain ⟨v, hv, hQ⟩ := hop _ _ hP
  refine ⟨_, v, ?_, retire_writeF_onlyF s rd v, hQ⟩
  rw [hc, hv]
  exact complete_fits _ hpc

/-- Where there is no pattern to answer, a drawn NaN is written (R203). -/
theorem arithmetic_of_none (hc : Evaluates c op) (hop : ∀ a b, P a b → op a b = none) :
    Arithmetic c P (fun _ _ v => IsNaN v) 1 := by
  intro s rd rs1 rs2 rm hpc hP
  refine ⟨_, nanPattern s.nanDraws, ?_, retire_countNan_onlyF s rd _, nanPattern_isNaN _⟩
  rw [hc, hop _ _ hP]
  exact complete_fits _ hpc

end

/-! ### Sums -/

theorem addData_finite_nonzero {n m : Bool} {a b : Nat} (h : signedUnits n a + signedUnits m b ≠ 0) :
    ∃ v, addData (.finite n a) (.finite m b) = some v ∧
      Rounded (decide (signedUnits n a + signedUnits m b < 0)) (signedUnits n a + signedUnits m b).natAbs 1 v :=
  ⟨_, if_neg h, pack_rounded Nat.one_pos⟩

theorem addData_finite_zero {n m : Bool} {a b : Nat} (h : signedUnits n a + signedUnits m b = 0) :
    addData (.finite n a) (.finite m b) = some (zero (n && m)) := by
  rw [← pack_zero]
  exact if_pos h

theorem addData_inf_finite (n m : Bool) (b : Nat) : addData (.inf n) (.finite m b) = some (infinity n) := by
  rw [addData, pack_infinity]

theorem addData_finite_inf (n m : Bool) (a : Nat) : addData (.finite n a) (.inf m) = some (infinity m) := by
  rw [addData, pack_infinity]

theorem addData_inf_inf (n m : Bool) :
    addData (.inf n) (.inf m) = if n = m then some (infinity n) else none := by
  rw [addData, pack_infinity]

theorem addData_nan_right (d : Datum) : addData d .nan = none := by cases d <;> rfl

/-- What `addData` gives on each class of operands, for an instruction that adds `g b` to `a`. -/
theorem sums_of_evaluates {c : FReg → FReg → FReg → BitVec 3 → Instr} {g : Word → Word}
    (hc : Evaluates c fun a b => addData (datum a) (datum (g b))) :
    Arithmetic c (fun a b => IsFinite a ∧ IsFinite (g b) ∧ value a + value (g b) ≠ 0)
      (fun a b v => Rounded (decide (value a + value (g b) < 0)) (value a + value (g b)).natAbs 1 v) 0 ∧
    Arithmetic c (fun a b => IsFinite a ∧ IsFinite (g b) ∧ value a + value (g b) = 0)
      (fun a b v => v = zero (sign a && sign (g b))) 0 ∧
    Arithmetic c (fun a b => IsInfinite a ∧ (IsFinite (g b) ∨ (IsInfinite (g b) ∧ sign a = sign (g b))))
      (fun a _ v => v = infinity (sign a)) 0 ∧
    Arithmetic c (fun a b => IsFinite a ∧ IsInfinite (g b)) (fun _ b v => v = infinity (sign (g b))) 0 ∧
    Arithmetic c (fun a b => IsNaN a ∨ IsNaN (g b) ∨ (IsInfinite a ∧ IsInfinite (g b) ∧ sign a ≠ sign (g b)))
      (fun _ _ v => IsNaN v) 1 := by
  refine ⟨arithmetic_of_some hc ?nonzero, arithmetic_of_some hc ?zero, arithmetic_of_some hc ?infLeft,
    arithmetic_of_some hc ?infRight, arithmetic_of_none hc ?nan⟩
  case nonzero =>
    rintro a b ⟨ha, hb, hsum⟩
    rw [datum_finite ha, datum_finite hb]
    exact addData_finite_nonzero hsum
  case zero =>
    rintro a b ⟨ha, hb, hsum⟩
    rw [datum_finite ha, datum_finite hb]
    exact ⟨_, addData_finite_zero hsum, rfl⟩
  case infLeft =>
    rintro a b ⟨ha, hb | ⟨hb, hsign⟩⟩
    · rw [datum_infinite ha, datum_finite hb]
      exact ⟨_, addData_inf_finite .., rfl⟩
    · rw [datum_infinite ha, datum_infinite hb, addData_inf_inf, if_pos hsign]
      exact ⟨_, rfl, rfl⟩
  case infRight =>
    rintro a b ⟨ha, hb⟩
    rw [datum_finite ha, datum_infinite hb]
    exact ⟨_, addData_finite_inf .., rfl⟩
  case nan =>
    rintro a b (ha | hb | ⟨ha, hb, hsign⟩)
    · rw [datum_nan ha]; rfl
    · rw [datum_nan hb]; exact addData_nan_right _
    · rw [datum_infinite ha, datum_infinite hb, addData_inf_inf, if_neg hsign]

theorem faddS_evaluates : Evaluates Instr.faddS fun a b => addData (datum a) (datum b) := fun _ _ _ _ _ => rfl

/-- Settles O27: the row, and `addData` class by class. -/
theorem floatAdd : Obligations.FloatAdd :=
  ⟨floatArithmeticRows_decode.1, sums_of_evaluates (g := id) faddS_evaluates⟩

/-! ### Differences: the sum with the second operand's sign changed (R205) -/

/-- The pattern with its sign bit changed. -/
def opposite (v : Word) : Word := pack (!sign v) (magnitude v)

theorem magnitude_lt (v : Word) : magnitude v < 2147483648 := Nat.mod_lt _ (by decide)

@[simp] theorem magnitude_opposite (v : Word) : magnitude (opposite v) = magnitude v := magnitude_pack (magnitude_lt v)

@[simp] theorem sign_opposite (v : Word) : sign (opposite v) = !sign v := sign_pack (magnitude_lt v)

@[simp] theorem value_opposite (v : Word) : value (opposite v) = -value v := by
  unfold value
  rw [magnitude_opposite, sign_opposite]
  cases sign v <;> simp

theorem isFinite_opposite (v : Word) : IsFinite (opposite v) ↔ IsFinite v := by rw [IsFinite, magnitude_opposite]

theorem isInfinite_opposite (v : Word) : IsInfinite (opposite v) ↔ IsInfinite v := by rw [IsInfinite, magnitude_opposite]

theorem isNaN_opposite (v : Word) : IsNaN (opposite v) ↔ IsNaN v := by rw [IsNaN, magnitude_opposite]

/-- The pattern of the datum `negate` answers. -/
theorem datum_opposite (v : Word) : datum (opposite v) = negate (datum v) := by
  rcases datum_cases v with h | h | h
  · rw [datum_finite h, datum_finite ((isFinite_opposite v).2 h), sign_opposite, magnitude_opposite]; rfl
  · rw [datum_infinite h, datum_infinite ((isInfinite_opposite v).2 h), sign_opposite]; rfl
  · rw [datum_nan h, datum_nan ((isNaN_opposite v).2 h)]; rfl

theorem fsubS_evaluates : Evaluates Instr.fsubS fun a b => addData (datum a) (datum (opposite b)) := by
  intro s rd rs1 rs2 rm
  simp only [datum_opposite]
  rfl

/-- Settles O28: `a - b` is `a + (-b)`, and infinities of one sign are those whose sum with the second one's sign changed
is invalid. -/
theorem floatSubtract : Obligations.FloatSubtract := by
  refine ⟨floatArithmeticRows_decode.2.1, ?_⟩
  simpa only [isFinite_opposite, isInfinite_opposite, isNaN_opposite, value_opposite, sign_opposite, ← sub_eq_add_neg,
    Bool.eq_not, Bool.ne_not] using sums_of_evaluates fsubS_evaluates

/-! ### Products -/

theorem natAbs_value (v : Word) : (value v).natAbs = unitsOf (magnitude v) := by
  unfold value
  split <;> simp

theorem value_eq_zero_iff (v : Word) : value v = 0 ↔ unitsOf (magnitude v) = 0 := by
  rw [← natAbs_value, Int.natAbs_eq_zero]

theorem mulData_nan_right (d : Datum) : mulData d .nan = none := by cases d <;> rfl

theorem mulData_finite (n m : Bool) (a b : Nat) :
    ∃ v, mulData (.finite n a) (.finite m b) = some v ∧ Rounded (n != m) (a * b) (2 ^ 149) v :=
  ⟨_, rfl, pack_rounded (Nat.two_pow_pos 149)⟩

theorem mulData_inf_inf (n m : Bool) : mulData (.inf n) (.inf m) = some (infinity (n != m)) := by
  rw [mulData, pack_infinity]

theorem mulData_inf_finite (n m : Bool) (b : Nat) :
    mulData (.inf n) (.finite m b) = if b = 0 then none else some (infinity (n != m)) := by
  rw [mulData, pack_infinity]

theorem mulData_finite_inf (n m : Bool) (a : Nat) :
    mulData (.finite n a) (.inf m) = if a = 0 then none else some (infinity (n != m)) := by
  rw [mulData, pack_infinity]

theorem fmulS_evaluates : Evaluates Instr.fmulS fun a b => mulData (datum a) (datum b) := fun _ _ _ _ _ => rfl

/-- Settles O29: the row, and `mulData` class by class. -/
theorem floatMultiply : Obligations.FloatMultiply := by
  obtain ⟨-, -, hrow, -⟩ := floatArithmeticRows_decode
  refine ⟨hrow, arithmetic_of_some fmulS_evaluates ?finite, arithmetic_of_some fmulS_evaluates ?infinite,
    arithmetic_of_none fmulS_evaluates ?nan⟩
  case finite =>
    rintro a b ⟨ha, hb⟩
    rw [datum_finite ha, datum_finite hb, natAbs_value, natAbs_value]
    exact mulData_finite ..
  case infinite =>
    rintro a b (⟨ha, hb | ⟨hb, hne⟩⟩ | ⟨hb, ha, hne⟩)
    · rw [datum_infinite ha, datum_infinite hb]
      exact ⟨_, mulData_inf_inf .., rfl⟩
    · rw [datum_infinite ha, datum_finite hb, mulData_inf_finite, if_neg (mt (value_eq_zero_iff b).2 hne)]
      exact ⟨_, rfl, rfl⟩
    · rw [datum_finite ha, datum_infinite hb, mulData_finite_inf, if_neg (mt (value_eq_zero_iff a).2 hne)]
      exact ⟨_, rfl, rfl⟩
  case nan =>
    rintro a b (ha | hb | ⟨ha, hb, hzero⟩ | ⟨hb, ha, hzero⟩)
    · rw [datum_nan ha]; rfl
    · rw [datum_nan hb]; exact mulData_nan_right _
    · rw [datum_infinite ha, datum_finite hb, mulData_inf_finite, if_pos ((value_eq_zero_iff b).1 hzero)]
    · rw [datum_finite ha, datum_infinite hb, mulData_finite_inf, if_pos ((value_eq_zero_iff a).1 hzero)]

/-! ### Quotients -/

theorem divData_nan_right (d : Datum) : divData d .nan = none := by cases d <;> rfl

theorem divData_finite {b : Nat} (n m : Bool) (a : Nat) (hb : b ≠ 0) :
    ∃ v, divData (.finite n a) (.finite m b) = some v ∧ Rounded (n != m) (a * 2 ^ 149) b v :=
  ⟨_, if_neg hb, pack_rounded (Nat.pos_of_ne_zero hb)⟩

/-- R207: over a zero, a zero is invalid and anything else gives an infinity. -/
theorem divData_finite_zero (n m : Bool) (a : Nat) :
    divData (.finite n a) (.finite m 0) = if a = 0 then none else some (infinity (n != m)) := by
  rw [divData, if_pos rfl, pack_infinity]

theorem divData_inf_finite (n m : Bool) (b : Nat) :
    divData (.inf n) (.finite m b) = some (infinity (n != m)) := by
  rw [divData, pack_infinity]

theorem divData_finite_inf (n m : Bool) (a : Nat) :
    divData (.finite n a) (.inf m) = some (zero (n != m)) := by
  rw [divData, pack_zero]

theorem fdivS_evaluates : Evaluates Instr.fdivS fun a b => divData (datum a) (datum b) := fun _ _ _ _ _ => rfl

/-- Settles O30: the row, and `divData` class by class. -/
theorem floatDivide : Obligations.FloatDivide := by
  obtain ⟨-, -, -, hrow⟩ := floatArithmeticRows_decode
  refine ⟨hrow, arithmetic_of_some fdivS_evaluates ?finite, arithmetic_of_some fdivS_evaluates ?infinite,
    arithmetic_of_some fdivS_evaluates ?zero, arithmetic_of_none fdivS_evaluates ?nan⟩
  case finite =>
    rintro a b ⟨ha, hb, hne⟩
    rw [datum_finite ha, datum_finite hb, natAbs_value, natAbs_value]
    exact divData_finite _ _ _ (mt (value_eq_zero_iff b).2 hne)
  case infinite =>
    rintro a b ⟨hb, ha | ⟨ha, hne, hzero⟩⟩
    · rw [datum_infinite ha, datum_finite hb]
      exact ⟨_, divData_inf_finite .., rfl⟩
    · rw [datum_finite ha, datum_finite hb, (value_eq_zero_iff b).1 hzero, divData_finite_zero,
        if_neg (mt (value_eq_zero_iff a).2 hne)]
      exact ⟨_, rfl, rfl⟩
  case zero =>
    rintro a b ⟨ha, hb⟩
    rw [datum_finite ha, datum_infinite hb]
    exact ⟨_, divData_finite_inf .., rfl⟩
  case nan =>
    rintro a b (ha | hb | ⟨ha, hb⟩ | ⟨ha, hb, hza, hzb⟩)
    · rw [datum_nan ha]; rfl
    · rw [datum_nan hb]; exact divData_nan_right _
    · rw [datum_infinite ha, datum_infinite hb]; rfl
    · rw [datum_finite ha, datum_finite hb, (value_eq_zero_iff b).1 hzb, divData_finite_zero,
        if_pos ((value_eq_zero_iff a).1 hza)]

end Sys2Proof.Machine
end

section
/-! PROOFS. Float conversions (45_float.md R208, R209). -/

namespace Sys2Proof.Machine

open Sys2Proof.Safety

/-! ### To an integer -/

theorem floatToInt_finite {v : Word} (p : Config.Params) (rm : BitVec 3) (h : IsFinite v) :
    floatToInt p rm (datum v) =
      min (max (toInteger p rm (sign v) (unitsOf (magnitude v))) (-2147483648)) 2147483647 := by
  rw [datum_finite h]; rfl

/-- Truncation of the magnitude is truncation toward zero of the signed value. -/
theorem toInteger_truncates (p : Config.Params) (neg : Bool) (units : Nat) :
    toInteger p 0b001#3 neg units = Int.tdiv (signedUnits neg units) (2 ^ 149) := by
  rw [toInteger, if_pos rfl]
  cases neg with
  | false => exact (Int.ofNat_tdiv units (2 ^ 149)).symm
  | true =>
    simp only [signedUnits, if_pos, Int.neg_tdiv]
    rfl

theorem toInteger_nearest {rm : BitVec 3} (p : Config.Params) (neg : Bool) (units : Nat) (h : rm ≠ 0b001#3) :
    toInteger p rm neg units = signedUnits neg (nearestMagnitude p.fcvtTie neg units) := by
  rw [toInteger, if_neg h]

/-! Off the half-way point the nearest number is one of two; on it (`units % 2^149` is half of 2^149) the tie rule says. -/

section
variable {neg : Bool} {units : Nat}

theorem nearestMagnitude_below (tie : Config.FcvtTie) (h : 2 * (units % 2 ^ 149) < 2 ^ 149) :
    nearestMagnitude tie neg units = units / 2 ^ 149 := if_pos h

theorem nearestMagnitude_above (tie : Config.FcvtTie) (h : 2 ^ 149 < 2 * (units % 2 ^ 149)) :
    nearestMagnitude tie neg units = units / 2 ^ 149 + 1 :=
  (if_neg (by omega)).trans (if_pos h)

theorem nearestMagnitude_even (h : 2 * (units % 2 ^ 149) = 2 ^ 149) :
    nearestMagnitude .even neg units = units / 2 ^ 149 + units / 2 ^ 149 % 2 := by
  rw [nearestMagnitude, if_neg (by omega), if_neg (by omega)]

theorem nearestMagnitude_away (h : 2 * (units % 2 ^ 149) = 2 ^ 149) :
    nearestMagnitude .away neg units = units / 2 ^ 149 + 1 := by
  rw [nearestMagnitude, if_neg (by omega), if_neg (by omega)]

theorem nearestMagnitude_up (h : 2 * (units % 2 ^ 149) = 2 ^ 149) :
    nearestMagnitude .up neg units = if neg then units / 2 ^ 149 else units / 2 ^ 149 + 1 := by
  rw [nearestMagnitude, if_neg (by omega), if_neg (by omega)]

/-- On the half-way point every tie rule chooses one of the two neighbours. -/
theorem nearestMagnitude_tie (tie : Config.FcvtTie) (h : 2 * (units % 2 ^ 149) = 2 ^ 149) :
    nearestMagnitude tie neg units = units / 2 ^ 149 ∨ nearestMagnitude tie neg units = units / 2 ^ 149 + 1 := by
  cases tie with
  | even => rw [nearestMagnitude_even h]; omega
  | away => exact .inr (nearestMagnitude_away h)
  | up => rw [nearestMagnitude_up h]; exact ite_eq_or_eq ..

/-- The nearest number is at most half a unit away, and half a unit only from the half-way point. -/
theorem nearestMagnitude_distance (tie : Config.FcvtTie) (neg : Bool) (units : Nat) :
    2 * |(nearestMagnitude tie neg units : Int) * 2 ^ 149 - units| ≤ 2 ^ 149 ∧
    (2 * |(nearestMagnitude tie neg units : Int) * 2 ^ 149 - units| = 2 ^ 149 → 2 * (units % 2 ^ 149) = 2 ^ 149) := by
  rw [Int.abs_eq_natAbs]
  rcases Nat.lt_trichotomy (2 * (units % 2 ^ 149)) (2 ^ 149) with h | h | h
  · rw [nearestMagnitude_below tie h]; omega
  · have := nearestMagnitude_tie (neg := neg) tie h
    omega
  · rw [nearestMagnitude_above tie h]; omega

/-- The distance of two signed numbers of one sign is that of their magnitudes. -/
theorem abs_signedUnits_sub (neg : Bool) (m n : Nat) (c : Int) :
    |signedUnits neg m * c - signedUnits neg n| = |(m : Int) * c - n| := by
  cases neg with
  | false => rfl
  | true =>
    rw [← abs_neg]
    congr 1
    simp only [signedUnits, if_pos]
    ring

theorem tieEven_emod_two (h : 2 * (units % 2 ^ 149) = 2 ^ 149) :
    signedUnits neg (nearestMagnitude .even neg units) % 2 = 0 := by
  rw [nearestMagnitude_even h, signedUnits]
  split <;> omega

theorem tieAway_abs_lt (h : 2 * (units % 2 ^ 149) = 2 ^ 149) :
    |signedUnits neg units| < |signedUnits neg (nearestMagnitude .away neg units) * 2 ^ 149| := by
  rw [nearestMagnitude_away h, Int.abs_eq_natAbs, Int.abs_eq_natAbs, signedUnits, signedUnits]
  split <;> omega

theorem tieUp_lt (h : 2 * (units % 2 ^ 149) = 2 ^ 149) :
    signedUnits neg units < signedUnits neg (nearestMagnitude .up neg units) * 2 ^ 149 := by
  rw [nearestMagnitude_up h, signedUnits, signedUnits]
  split <;> omega

end

/-- Settles O31: truncation is `Int.tdiv`, the nearest magnitude is near on either side of zero, and a distance of half a
unit comes from the half-way point, where the tie rule in force says what it chose. -/
theorem floatToInteger : Obligations.FloatToInteger := by
  obtain ⟨hrow, -⟩ := floatConversionRows_decode
  refine ⟨hrow, fun s rd rs1 rm hp hfin => ?finite, fun s rd rs1 rm hp h => ?top,
    fun s rd rs1 rm hp hinf hneg => ?bottom⟩
  case finite =>
    obtain ⟨t, ht, hframe⟩ :=
      exec_onlyX (i := .fcvtWS rd rs1 rm) rfl (congrArg wrap32 (floatToInt_finite s.params rm hfin)) hp
    refine ⟨t, _, ht, hframe, fun hrm => ?_, fun hrm => ?_⟩
    · rw [hrm, toInteger_truncates, signedUnits_value]
    · rw [toInteger_nearest _ _ _ hrm, ← signedUnits_value, abs_signedUnits_sub]
      obtain ⟨hnear, hhalf⟩ := nearestMagnitude_distance s.params.fcvtTie _ _
      refine ⟨hnear, fun h => ?_⟩
      cases s.params.fcvtTie with
      | even => exact tieEven_emod_two (hhalf h)
      | away => exact tieAway_abs_lt (hhalf h)
      | up => exact tieUp_lt (hhalf h)
  case top =>
    refine exec_onlyX rfl ?_ hp
    rcases h with hnan | ⟨hinf, hpos⟩
    · rw [datum_nan hnan]; rfl
    · rw [datum_infinite hinf, hpos]; rfl
  case bottom =>
    refine exec_onlyX rfl ?_ hp
    rw [datum_infinite hinf, hneg]; rfl

/-! ### From an integer -/

/-- A number up to 2^24 is shifted left into the 24 bits of a significand. -/
theorem exists_significand {n : Nat} (hpos : 0 < n) (h : n ≤ 2 ^ 24) :
    ∃ j ≤ 23, 8388608 ≤ n * 2 ^ j ∧ n * 2 ^ j ≤ 16777216 := by
  rcases h.eq_or_lt with rfl | hlt
  · exact ⟨0, by decide⟩
  obtain ⟨j, hj⟩ := Nat.exists_eq_add_of_le (Nat.le_of_lt_succ ((Nat.log2_lt hpos.ne').2 hlt))
  refine ⟨j, by omega, ?_, ?_⟩
  · calc 8388608 = 2 ^ Nat.log2 n * 2 ^ j := by rw [← pow_add, ← hj]; rfl
      _ ≤ n * 2 ^ j := Nat.mul_le_mul_right _ (Nat.log2_self_le hpos.ne')
  · calc n * 2 ^ j ≤ 2 ^ (Nat.log2 n + 1) * 2 ^ j := Nat.mul_le_mul_right _ Nat.lt_log2_self.le
      _ = 16777216 := by rw [← pow_add, Nat.add_right_comm, ← hj]; rfl

/-- A whole number of magnitude up to 2^24 is the value of a pattern (R209). -/
theorem exists_unitsOf_eq {n : Nat} (h : n ≤ 2 ^ 24) : ∃ m < 0x7F800000, unitsOf m = n * 2 ^ 149 := by
  rcases Nat.eq_zero_or_pos n with rfl | hpos
  · exact ⟨0, by decide, by decide⟩
  obtain ⟨j, hj, hlow, hhigh⟩ := exists_significand hpos h
  refine ⟨(149 - j) * 8388608 + n * 2 ^ j, by omega, ?_⟩
  rw [unitsOf_index (.inr hlow) hhigh, Nat.mul_assoc, ← pow_add, Nat.add_sub_cancel' (by omega)]

/-- A rounded value short of the overflow threshold is finite. -/
theorem isFinite_of_rounded {neg : Bool} {n : Nat} {v : Word} (h : Rounded neg n 1 v) (hn : n < (2 ^ 25 - 1) * 2 ^ 252) :
    IsFinite v := by
  obtain ⟨-, hr⟩ := h
  rw [RoundsTo, if_neg (by omega)] at hr
  exact hr.1

/-- A value that has a pattern is not changed by rounding. -/
theorem value_of_rounded {neg : Bool} {n m : Nat} {v : Word} (h : Rounded neg n 1 v) (hm : m < 0x7F800000)
    (hn : unitsOf m = n) : value v = signedUnits neg n := by
  obtain ⟨hs, hr⟩ := h
  subst hn
  rw [← signedUnits_value, hs, roundsTo_exact hm hr]

theorem signedUnits_natAbs (n : Int) : signedUnits (decide (n < 0)) n.natAbs = n := by
  unfold signedUnits
  split_ifs with h <;> rw [decide_eq_true_eq] at h <;> omega

theorem signedUnits_mul (neg : Bool) (m n : Nat) : signedUnits neg (m * n) = signedUnits neg m * n := by
  cases neg <;> simp [signedUnits]

/-- Settles O32: the one rounding of `intToFloat` stays below the infinity for 32 bits and is exact for a value that has a
pattern. -/
theorem integerToFloat : Obligations.IntegerToFloat := by
  obtain ⟨-, hrow⟩ := floatConversionRows_decode
  refine ⟨hrow, fun s rd rs1 rm hp => ?_⟩
  obtain ⟨t, ht, hframe⟩ := exec_onlyF (i := .fcvtSW rd rs1 rm) (s := s) rfl hp
  have hround : Rounded _ _ _ (intToFloat (signed (readX s rs1))) := pack_rounded Nat.one_pos
  refine ⟨t, _, ht, hframe, hround, isFinite_of_rounded hround ?_, fun hsmall => ?_, fun hzero => ?_⟩
  · have := BitVec.le_toInt (readX s rs1)
    have := BitVec.toInt_lt (x := readX s rs1)
    rw [signed]
    omega
  · obtain ⟨m, hm, hunits⟩ := exists_unitsOf_eq hsmall
    rw [value_of_rounded hround hm hunits, signedUnits_mul, signedUnits_natAbs]
    rfl
  · rw [hzero]; rfl

end Sys2Proof.Machine
end

section
/-! PROOFS. System instructions (46_system.md R230 to R237). -/

namespace Sys2Proof.Machine

open Sys2Proof.Safety

/-! ### The syscall each id selects (R231) -/

section
variable {s : State}

theorem exec_ecall_exit (h : readX s 17#5 = 93#32) : exec .ecall s = sysExit s := if_pos h

theorem exec_ecall_printInt (h : readX s 17#5 = 1#32) : exec .ecall s = sysPrintInt s := by
  simp [exec, execEcall, regA7, h]

theorem exec_ecall_printString (h : readX s 17#5 = 4#32) : exec .ecall s = sysPrintString s := by
  simp [exec, execEcall, regA7, h]

theorem exec_ecall_write (h : readX s 17#5 = 64#32) : exec .ecall s = sysWrite s := by
  simp [exec, execEcall, regA7, h]

theorem exec_ecall_unsupported (h : readX s 17#5 ∉ [93#32, 1#32, 4#32, 64#32]) :
    exec .ecall s = sysUnsupported s := by
  obtain ⟨hexit, hint, hstring, hwrite⟩ : readX s 17#5 ≠ 93#32 ∧ readX s 17#5 ≠ 1#32 ∧ readX s 17#5 ≠ 4#32 ∧
    readX s 17#5 ≠ 64#32 := by simpa using h
  simp [exec, execEcall, regA7, hexit, hint, hstring, hwrite]

end

/-! ### The frame of a serviced call -/

/-- Writing nothing is writing a register its own value. -/
theorem onlyX_of_onlyPc {s t : State} {pc : Word} (h : OnlyPc s t pc) (rd : XReg) : OnlyX s t rd (readX s rd) pc where
  x r := by rw [h.x]; split_ifs with hr <;> simp [hr]
  f := h.f
  mem := h.mem
  pc := h.pc
  quiet := h.quiet

/-- A serviced call is a write of `a0` alone, seen from the state whose stream already holds the events. -/
theorem serviced_of_onlyX {s t : State} {a0 : Word} {events : List OutEvent}
    (h : OnlyX { s with out := s.out ++ events } t 10#5 a0 (nextPc s)) : Serviced s t a0 events where
  x r := (h.x r).trans (by simp [readX])
  f := h.f
  mem := h.mem
  pc := h.pc
  count := h.quiet.count
  running := h.quiet.running
  status := h.quiet.status
  out := h.quiet.out
  params := h.quiet.params
  nanDraws := h.quiet.nanDraws

theorem retire_emit_serviced (s : State) (e : OutEvent) :
    Serviced s (retire (emit s e) (nextPc s)) (readX s 10#5) [e] :=
  serviced_of_onlyX (onlyX_of_onlyPc (retire_onlyPc (emit s e) (nextPc s)) 10#5)

theorem retire_writeX_emit_serviced (s : State) (e : OutEvent) (v : Word) :
    Serviced s (retire (writeX (emit s e) 10#5 v) (nextPc s)) v [e] :=
  serviced_of_onlyX (retire_writeX_onlyX (emit s e) 10#5 v (nextPc s))

theorem retire_writeX_serviced (s : State) (v : Word) : Serviced s (retire (writeX s 10#5 v) (nextPc s)) v [] :=
  serviced_of_onlyX (by simpa using retire_writeX_onlyX s 10#5 v (nextPc s))

/-- A call whose whole effect is one event. -/
theorem complete_emit_serviced {s : State} (e : OutEvent) (hp : PcFits s) :
    ∃ t, complete s (emit s e) = .next t ∧ Serviced s t (readX s 10#5) [e] :=
  ⟨_, complete_fits _ hp, retire_emit_serviced s e⟩

/-! ### The bytes a call reads -/

theorem wrap32_succ_add (a : Word) (k : Nat) :
    wrap32 (unsigned (a + 1#32) + k) = wrap32 (unsigned a + (k + 1 : Nat)) := by
  rw [wrap32_add_nat, wrap32_add_nat, add_assoc, Nat.add_comm k, BitVec.ofNat_add]

theorem bytesAt_nil (m : Memory) (a : Word) : BytesAt m a [] := fun _ h => nomatch h

theorem bytesAt_cons {m : Memory} {a : Word} {b : Byte} {bs : List Byte} (hb : readByte m a = some b)
    (hbs : BytesAt m (a + 1#32) bs) : BytesAt m a (b :: bs) := by
  intro i hi
  cases i with
  | zero => simpa [wrap32_unsigned] using hb
  | succ i => rw [← wrap32_succ_add]; exact hbs i (Nat.lt_of_succ_lt_succ hi)

/-- What print_string reads ends at the cap or a zero byte and is answered, or ends at an unmapped byte and is the fault
there. -/
theorem stringBytes_cases (m : Memory) (cap : Nat) (a : Word) :
    ∃ bs, BytesAt m a bs ∧ 0#8 ∉ bs ∧
      (((bs.length = cap ∨ (bs.length < cap ∧ readByte m (wrap32 (unsigned a + bs.length)) = some 0#8)) ∧
          stringBytes m cap a = .ok bs) ∨
        (bs.length < cap ∧ readByte m (wrap32 (unsigned a + bs.length)) = none ∧
          stringBytes m cap a = .error (.unmappedMemory (wrap32 (unsigned a + bs.length))))) := by
  induction cap generalizing a with
  | zero => exact ⟨[], bytesAt_nil m a, by simp, .inl ⟨.inl rfl, rfl⟩⟩
  | succ cap ih =>
    cases hb : readByte m a with
    | none =>
      exact ⟨[], bytesAt_nil m a, by simp, .inr (by simp [wrap32_unsigned, hb, stringBytes])⟩
    | some b =>
      by_cases hzero : b = 0#8
      · exact ⟨[], bytesAt_nil m a, by simp, .inl (by simp [wrap32_unsigned, hb, hzero, stringBytes])⟩
      · obtain ⟨bs, hat, hbs, hend⟩ := ih (a + 1#32)
        refine ⟨b :: bs, bytesAt_cons hb hat, by simp [hbs, Ne.symm hzero], ?_⟩
        rw [List.length_cons, ← wrap32_succ_add]
        refine hend.imp (fun ⟨hstop, e⟩ => ⟨?_, ?_⟩) fun ⟨hlt, hnone, e⟩ => ⟨?_, hnone, ?_⟩
        · simpa using hstop
        · simp [stringBytes, hb, hzero, e]
        · simpa using hlt
        · simp [stringBytes, hb, hzero, e]

theorem readableBytes_none {m : Memory} {a : Word} (n : Nat) (hb : readByte m a = none) :
    readableBytes m n a = [] := by
  cases n <;> simp [readableBytes, hb]

theorem readableBytes_some {m : Memory} {a : Word} {b : Byte} (n : Nat) (hb : readByte m a = some b) :
    readableBytes m (n + 1) a = b :: readableBytes m n (a + 1#32) := by
  simp [readableBytes, hb]

/-- What write reads stands at its address, is at most `n` bytes long, and is shorter only before an unmapped byte. -/
theorem readableBytes_spec (m : Memory) (n : Nat) (a : Word) :
    BytesAt m a (readableBytes m n a) ∧ (readableBytes m n a).length ≤ n ∧
      ((readableBytes m n a).length = n ∨
        readByte m (wrap32 (unsigned a + (readableBytes m n a).length)) = none) := by
  induction n generalizing a with
  | zero => exact ⟨bytesAt_nil m a, Nat.le_refl 0, .inl rfl⟩
  | succ n ih =>
    cases hb : readByte m a with
    | none =>
      rw [readableBytes_none _ hb]
      exact ⟨bytesAt_nil m a, Nat.zero_le _, .inr (by simpa [wrap32_unsigned] using hb)⟩
    | some b =>
      obtain ⟨hat, hle, hend⟩ := ih (a + 1#32)
      rw [readableBytes_some n hb, List.length_cons, ← wrap32_succ_add]
      exact ⟨bytesAt_cons hb hat, Nat.succ_le_succ hle, hend.imp_left (congrArg Nat.succ)⟩

/-! ### The obligations -/

/-- A halted core stays as it is (60_exceptions.md R263). -/
theorem step_halted {s : State} (h : s.status.isHalted = true) : step s = .next s := if_pos h

/-- Settles O38: the two ends of the read are the two ends of the call. -/
theorem ecallPrintString : Obligations.EcallPrintString := by
  intro s hp hid
  obtain ⟨bs, hat, hbs, ⟨hstop, e⟩ | ⟨hlt, hnone, e⟩⟩ :=
    stringBytes_cases s.mem s.params.printStringCap (readX s regA0)
  · obtain ⟨t, ht, hserviced⟩ := complete_emit_serviced (.printString bs) hp
    refine .inl ⟨bs, t, hat, hbs, hstop, ?_, hserviced⟩
    simpa only [exec_ecall_printString hid, sysPrintString, e] using ht
  · refine .inr ⟨bs, _, hat, hbs, hlt, hnone, ?_, haltError_faulted s _⟩
    simp only [exec_ecall_printString hid, sysPrintString, e]
    exact raise_next s _

/-- Settles O39: the limit `max(0, s(a2))` is the natural number the read counts down from, and neither fd can fault. -/
theorem ecallWrite : Obligations.EcallWrite := by
  refine ⟨fun s hp hid hfd => ?stdout, fun s hp hid hfd => ?other⟩
  case stdout =>
    obtain ⟨hat, hle, hend⟩ := readableBytes_spec s.mem (signed (readX s 12#5)).toNat (readX s 11#5)
    refine ⟨_, _, hat, by omega, hend.imp_left fun h => by omega, ?_, retire_writeX_emit_serviced s _ _⟩
    rw [exec_ecall_write hid, sysWrite, regA0, if_pos hfd]
    exact complete_fits _ hp
  case other =>
    refine ⟨_, ?_, retire_writeX_serviced s _⟩
    rw [exec_ecall_write hid, sysWrite, regA0, if_neg hfd]
    exact complete_fits _ hp

/-- Settles O36: the core retires halted, and a halted core's step has no effect (R263). -/
theorem ecallExit : Obligations.EcallExit := by
  intro s hp hid
  have hexec : exec .ecall s = .next (retire (haltExit s) (nextPc s)) := by
    rw [exec_ecall_exit hid]
    exact complete_fits _ hp
  exact ⟨_, hexec, rfl, rfl, fun r => by simp, fun r => by simp, fun a => rfl, rfl, rfl, rfl, rfl, rfl,
    step_halted rfl⟩

/-- Settles O37: one event. -/
theorem ecallPrintInt : Obligations.EcallPrintInt := by
  intro s hp hid
  rw [exec_ecall_printInt hid]
  exact complete_emit_serviced _ hp

/-- Settles O40: the four ids compared are the four excluded. -/
theorem ecallUnsupported : Obligations.EcallUnsupported := by
  intro s hp hid
  rw [exec_ecall_unsupported hid]
  exact complete_emit_serviced _ hp

/-- Settles O41: EBREAK is the fault itself, taken before any sum of the pc. -/
theorem ebreakHalts : Obligations.EbreakHalts :=
  ⟨by decide, by decide, fun s => ⟨_, raise_next s _, haltError_faulted s _, step_halted rfl⟩⟩

end Sys2Proof.Machine
end

section
/-! PROOFS. What the decoder answers has its row (30_encoding.md R68, R76). -/

namespace Sys2Proof

/-! ### A word under each mask keeps its selector fields -/

section
variable (w : Word)

theorem mask_funct7_funct3 : w &&& 0xFE00707F#32 = encR (funct7Of w) 0#5 0#5 (funct3Of w) 0#5 (opcodeOf w) := by
  simpa only [encR_fields] using encR_maskR (funct7Of w) (rs2Of w) (rs1Of w) (funct3Of w) (rdOf w) (opcodeOf w)

theorem mask_funct7 : w &&& 0xFE00007F#32 = encR (funct7Of w) 0#5 0#5 0#3 0#5 (opcodeOf w) := by
  simpa only [encR_fields] using encR_maskFp (funct7Of w) (rs2Of w) (rs1Of w) (funct3Of w) (rdOf w) (opcodeOf w)

theorem mask_funct7_rs2 : w &&& 0xFFF0007F#32 = encR (funct7Of w) (rs2Of w) 0#5 0#3 0#5 (opcodeOf w) := by
  simpa only [encR_fields] using encR_maskCvt (funct7Of w) (rs2Of w) (rs1Of w) (funct3Of w) (rdOf w) (opcodeOf w)

theorem mask_funct7_rs2_funct3 :
    w &&& 0xFFF0707F#32 = encR (funct7Of w) (rs2Of w) 0#5 (funct3Of w) 0#5 (opcodeOf w) := by
  simpa only [encR_fields] using encR_maskMv (funct7Of w) (rs2Of w) (rs1Of w) (funct3Of w) (rdOf w) (opcodeOf w)

end

/-! ### Each major opcode: every test on the way to an answer is of a field the answer's row fixes -/

/-- What a part of the matching answers for `w`, if anything, is of a row `w` matches. -/
def AnswersRowOf (w : Word) (o : Option Instr) : Prop := ∀ i, o = some i → i.mnemonic.matchesWord w

section
variable {w : Word}

theorem AnswersRowOf.none : AnswersRowOf w none := fun _ h => nomatch h

theorem AnswersRowOf.some {i : Instr} (h : i.mnemonic.matchesWord w) : AnswersRowOf w (some i) :=
  fun _ hi => Option.some.inj hi ▸ h

theorem AnswersRowOf.ite {c : Prop} [Decidable c] {a b : Option Instr} (ha : c → AnswersRowOf w a)
    (hb : AnswersRowOf w b) : AnswersRowOf w (if c then a else b) := by
  split
  case isTrue h => exact ha h
  case isFalse => exact hb

variable {i : Instr} {f7 : BitVec 7} {r2 : BitVec 5} {f3 : BitVec 3} {op : BitVec 7}

theorem answersRowOf_funct7_funct3 (hmask : i.mnemonic.row.mask = 0xFE00707F#32)
    (hvalue : i.mnemonic.row.value = encR f7 0#5 0#5 f3 0#5 op) (h7 : funct7Of w = f7) (h3 : funct3Of w = f3)
    (ho : opcodeOf w = op) : AnswersRowOf w (some i) :=
  .some (by rw [Mnemonic.matchesWord, hmask, hvalue, mask_funct7_funct3, h7, h3, ho])

theorem answersRowOf_funct3 (hmask : i.mnemonic.row.mask = 0x0000707F#32)
    (hvalue : i.mnemonic.row.value = encR 0#7 0#5 0#5 f3 0#5 op) (h3 : funct3Of w = f3)
    (ho : opcodeOf w = op) : AnswersRowOf w (some i) :=
  .some (by rw [Mnemonic.matchesWord, hmask, hvalue, mask_funct3, h3, ho])

theorem answersRowOf_opcode (hmask : i.mnemonic.row.mask = 0x0000007F#32)
    (hvalue : i.mnemonic.row.value = encR 0#7 0#5 0#5 0#3 0#5 op) (ho : opcodeOf w = op) :
    AnswersRowOf w (some i) :=
  .some (by rw [Mnemonic.matchesWord, hmask, hvalue, mask_opcode, ho])

theorem answersRowOf_funct7 (hmask : i.mnemonic.row.mask = 0xFE00007F#32)
    (hvalue : i.mnemonic.row.value = encR f7 0#5 0#5 0#3 0#5 op) (h7 : funct7Of w = f7)
    (ho : opcodeOf w = op) : AnswersRowOf w (some i) :=
  .some (by rw [Mnemonic.matchesWord, hmask, hvalue, mask_funct7, h7, ho])

theorem answersRowOf_funct7_rs2 (hmask : i.mnemonic.row.mask = 0xFFF0007F#32)
    (hvalue : i.mnemonic.row.value = encR f7 r2 0#5 0#3 0#5 op) (h7 : funct7Of w = f7) (h2 : rs2Of w = r2)
    (ho : opcodeOf w = op) : AnswersRowOf w (some i) :=
  .some (by rw [Mnemonic.matchesWord, hmask, hvalue, mask_funct7_rs2, h7, h2, ho])

theorem answersRowOf_funct7_rs2_funct3 (hmask : i.mnemonic.row.mask = 0xFFF0707F#32)
    (hvalue : i.mnemonic.row.value = encR f7 r2 0#5 f3 0#5 op) (h7 : funct7Of w = f7)
    (h23 : rs2Of w = r2 ∧ funct3Of w = f3) (ho : opcodeOf w = op) : AnswersRowOf w (some i) :=
  .some (by rw [Mnemonic.matchesWord, hmask, hvalue, mask_funct7_rs2_funct3, h7, h23.1, h23.2, ho])

theorem decodeOp_answersRowOf (ho : opcodeOf w = opOp) : AnswersRowOf w (decodeOp w) := by
  refine .ite (fun h7 => ?_) (.ite (fun h7 => ?_) (.ite (fun h7 => ?_) .none))
  all_goals
    repeat refine .ite (fun h3 => answersRowOf_funct7_funct3 rfl rfl h7 h3 ho) ?_
    exact .none

theorem decodeOpImm_answersRowOf (ho : opcodeOf w = opOpImm) : AnswersRowOf w (decodeOpImm w) :=
  .ite (fun h3 => answersRowOf_funct3 rfl rfl h3 ho) <|
  .ite (fun h3 => .ite (fun h7 => answersRowOf_funct7_funct3 rfl rfl h7 h3 ho) .none) <|
  .ite (fun h3 => answersRowOf_funct3 rfl rfl h3 ho) <|
  .ite (fun h3 => answersRowOf_funct3 rfl rfl h3 ho) <|
  .ite (fun h3 => answersRowOf_funct3 rfl rfl h3 ho) <|
  .ite (fun h3 => .ite (fun h7 => answersRowOf_funct7_funct3 rfl rfl h7 h3 ho) <|
    .ite (fun h7 => answersRowOf_funct7_funct3 rfl rfl h7 h3 ho) .none) <|
  .ite (fun h3 => answersRowOf_funct3 rfl rfl h3 ho) <|
  .ite (fun h3 => answersRowOf_funct3 rfl rfl h3 ho) .none

theorem decodeLoad_answersRowOf (ho : opcodeOf w = opLoad) : AnswersRowOf w (decodeLoad w) := by
  repeat refine .ite (fun h3 => answersRowOf_funct3 rfl rfl h3 ho) ?_
  exact .none

theorem decodeStore_answersRowOf (ho : opcodeOf w = opStore) : AnswersRowOf w (decodeStore w) := by
  repeat refine .ite (fun h3 => answersRowOf_funct3 rfl rfl h3 ho) ?_
  exact .none

theorem decodeBranch_answersRowOf (ho : opcodeOf w = opBranch) : AnswersRowOf w (decodeBranch w) := by
  repeat refine .ite (fun h3 => answersRowOf_funct3 rfl rfl h3 ho) ?_
  exact .none

theorem decodeFp_answersRowOf (ho : opcodeOf w = opFp) : AnswersRowOf w (decodeFp w) := by
  iterate 4 refine .ite (fun h7 => answersRowOf_funct7 rfl rfl h7 ho) ?_
  iterate 2 refine .ite (fun h7 => .ite (fun h2 => answersRowOf_funct7_rs2 rfl rfl h7 h2 ho) .none) ?_
  iterate 2 refine .ite (fun h7 => .ite (fun h23 => answersRowOf_funct7_rs2_funct3 rfl rfl h7 h23 ho) .none) ?_
  refine .ite (fun h7 => ?_) .none
  iterate 3 refine .ite (fun h3 => answersRowOf_funct7_funct3 rfl rfl h7 h3 ho) ?_
  exact .none

theorem decodeSystem_answersRowOf (w : Word) : AnswersRowOf w (decodeSystem w) :=
  .ite (fun h => h ▸ .some rfl) <| .ite (fun h => h ▸ .some rfl) .none

theorem matchRow_answersRowOf (w : Word) : AnswersRowOf w (matchRow w) :=
  .ite decodeOp_answersRowOf <| .ite decodeOpImm_answersRowOf <| .ite decodeLoad_answersRowOf <|
  .ite decodeStore_answersRowOf <| .ite decodeBranch_answersRowOf <| .ite decodeFp_answersRowOf <|
  .ite (fun _ => decodeSystem_answersRowOf w) <|
  .ite (answersRowOf_opcode rfl rfl) <| .ite (answersRowOf_opcode rfl rfl) <|
  .ite (answersRowOf_opcode rfl rfl) <|
  .ite (fun ho => .ite (fun h3 => answersRowOf_funct3 rfl rfl h3 ho) .none) .none

end

/-- A word that matches no row is rejected by name (R76). -/
theorem decodeWord_noRow {w : Word} (h : ∀ m : Mnemonic, ¬ m.matchesWord w) : decodeWord w = .error (.noRow w) := by
  cases hrow : matchRow w with
  | none => exact decodeWord_none hrow
  | some i => exact absurd (matchRow_answersRowOf w i hrow) (h i.mnemonic)

end Sys2Proof
end

section
/-! PROOFS. Fetch, decode and the faults of a step (60_exceptions.md R252 to R255). -/

namespace Sys2Proof.Machine

open Sys2Proof.Safety

/-! ### Halted cores -/

/-- The gate of `step` and of the host's operations tests the spec's `Halted`. -/
theorem isHalted_iff (s : State) : s.status.isHalted = true ↔ Halted s := by
  cases h : s.status <;> simp [Halted, Status.isHalted, h]

/-! ### What the fetch and the decoder raise -/

section
variable {s : State}

/-- A fault of the fetch or the decoder is taken by the step. -/
theorem step_faulted {e : Fault} (hs : ¬ Halted s) (he : fetchDecode s = .error e) :
    ∃ t, step s = .next t ∧ Faulted s t e := by
  refine ⟨haltError s e, ?_, haltError_faulted s e⟩
  rw [step, if_neg (mt (isHalted_iff s).1 hs), he]
  exact raise_next s e

theorem fetchDecode_fetchFault {e : Fault} (h : fetchWord s = .error e) : fetchDecode s = .error e := by
  rw [fetchDecode, h]

theorem fetchDecode_fetched {w : Word} (h : fetchWord s = .ok w) : fetchDecode s = decodeFetched s w := by
  rw [fetchDecode, h]

/-- The fetch of four listed bytes is their word, the last byte highest (20_memory.md R38). -/
theorem fetchWord_bytesAt {b0 b1 b2 b3 : Byte} (hf : AccessFits s.params s.pc 4)
    (hb : BytesAt s.mem s.pc [b0, b1, b2, b3]) : fetchWord s = .ok (b3 ++ b2 ++ b1 ++ b0) :=
  fetchWord_mapped (b := ([b0, b1, b2, b3].getD · 0#8)) hf fun i hi => by
    rw [hb i hi, List.getD_eq_getElem _ _ hi]

theorem matchesExtra_iff (p : Config.Params) (w : Word) :
    matchesExtra p w = true ↔ ∃ r ∈ p.extraFormatRows, w &&& r.mask = r.value := by
  simp [matchesExtra]

/-- A rejected word raises UnimplementedInstruction when an extra row admits it, else DecodeError (R254, R255). -/
theorem decodeFetched_rejected {w : Word} {r : DecodeReject} (h : decodeWord w = .error r) :
    decodeFetched s w =
      if matchesExtra s.params w then .error (.unimplementedInstruction w) else .error (.decodeError s.pc w) := by
  rw [decodeFetched, h]

end

/-! ### What a step that began in a core not halted leaves in `status` -/

/-- The only control state an instruction writes is that of the exit syscall. -/
theorem Effect.status_cases {i : Instr} {s s' : State} (h : Effect i s s') :
    s'.status = s.status ∨ s'.status = .haltedExit := by
  cases h with
  | exit => exact .inr rfl
  | _ => exact .inl (by simp)

/-- Every step answers, and if it began in a core not halted, with the state its fault leaves or with one that records no
fault. -/
theorem step_next_cases (s : State) :
    ∃ t, step s = .next t ∧ (¬ Halted s → (∃ e, t = haltError s e) ∨ NoFault t) := by
  rcases step_cases s with ⟨hs, h⟩ | ⟨-, e, -, h⟩ | ⟨-, i, -, h⟩ <;> rw [h]
  · exact ⟨s, rfl, fun hn => absurd ((isHalted_iff s).1 hs) hn⟩
  · exact ⟨_, rfl, fun _ => .inl ⟨e, rfl⟩⟩
  · rcases exec_ends i s with ⟨e, h⟩ | ⟨s', a, h, heffect, -⟩ <;> rw [h]
    · exact ⟨_, rfl, fun _ => .inl ⟨e, rfl⟩⟩
    · refine ⟨_, rfl, fun hn => .inr fun e he => ?_⟩
      rcases heffect.status_cases with hkept | hexit
      · exact hn (.inr ⟨e, hkept ▸ he⟩)
      · exact Status.noConfusion (hexit.symm.trans he)

/-! ### The obligations -/

/-- Settles O43: the read of memory stops at the first unmapped byte, and the fetch names the pc beside it. -/
theorem unmappedFetchFaults : Obligations.UnmappedFetchFaults :=
  fun _ _ hs hj hf hmapped hnone => step_faulted hs (fetchDecode_fetchFault (fetchWord_unmapped hj hf hmapped hnone))

/-- Settles O44: the decoder rejects the word, and the two faults are the two answers of the search of the extra rows. -/
theorem unknownWordFaults : Obligations.UnknownWordFaults := by
  intro s b0 b1 b2 b3 hs hf hb hrow
  have hdecode := (fetchDecode_fetched (fetchWord_bytesAt hf hb)).trans (decodeFetched_rejected (decodeWord_noRow hrow))
  refine ⟨fun hnone => step_faulted hs ?_, fun hextra => step_faulted hs ?_⟩
  · rw [hdecode, if_neg]
    rw [matchesExtra_iff]
    exact fun ⟨r, hr, hmatch⟩ => hnone r hr hmatch
  · rw [hdecode, if_pos ((matchesExtra_iff _ _).2 hextra)]

/-- Settles O45: a core not halted records a fault only by taking it, and the core is then halted. -/
theorem faultsArePrecise : Obligations.FaultsArePrecise := by
  intro s t e hs hstep hstatus
  obtain ⟨u, hu, hcases⟩ := step_next_cases s
  obtain rfl : t = u := Host.Outcome.next.inj (hstep.symm.trans hu)
  rcases hcases hs with ⟨e', rfl⟩ | hnone
  · obtain rfl : e' = e := Status.haltedError.inj hstatus
    exact ⟨haltError_faulted s e', step_halted rfl⟩
  · exact absurd hstatus (hnone e)

end Sys2Proof.Machine
end

section
/-! PROOFS. The host's operations on halted and on running cores (60_exceptions.md R259 to R266). -/

namespace Sys2Proof.Machine

open Sys2Proof.Safety

section
variable {s : State} (maxSteps : Nat)

/-! ### A halted core -/

theorem run_halted (h : Halted s) : run maxSteps s = .next (.returned s) := if_pos ((isHalted_iff s).2 h)

theorem runStart_halted (h : Halted s) : runStart s = s := if_pos ((isHalted_iff s).2 h)

theorem hostStop_halted (h : Halted s) : hostStop s = s := if_pos ((isHalted_iff s).2 h)

theorem hostStop_not_halted (h : ¬ Halted s) : hostStop s = { s with running := false, status := .idle } :=
  if_neg (mt (isHalted_iff s).1 h)

theorem running_of_halted (hinv : CoreInv s) (h : Halted s) : s.running = false := by
  rw [← Bool.not_eq_true, hinv.running]
  rcases h with h | ⟨e, h⟩ <;> simp [h]

/-! ### One iteration of a run (R264) -/

theorem runIteration_stopped (h : s.running = false) : runIteration maxSteps s = .next (.returned s) := if_pos h

theorem runIteration_ceiling (h : s.running = true) (hceiling : maxSteps ≤ s.instructionCount) :
    runIteration maxSteps s = .next (.maxStepsExceeded { s with running := false, status := .idle }) := by
  rw [runIteration, if_neg (by simp [h]), if_pos hceiling]

theorem runIteration_step {t : State} (h : s.running = true) (hbelow : s.instructionCount < maxSteps)
    (hstep : step s = .next t) : runIteration maxSteps s = .next (.yielded t) := by
  rw [runIteration, if_neg (by simp [h]), if_neg (Nat.not_le.2 hbelow), hstep]

end

/-! ### The host's calls (R260) -/

/-- Of the host's calls only `reset` and `loadProgram` do anything to a halted core. -/
theorem hostCall_halted {c : HostCall} {s : State} (hinv : CoreInv s) (h : Halted s) :
    c = .reset ∨ (∃ p, c = .loadProgram p) ∨ hostCall c s = .next s := by
  cases c with
  | reset => exact .inl rfl
  | loadProgram p => exact .inr (.inl ⟨p, rfl⟩)
  | step => exact .inr (.inr (step_halted ((isHalted_iff s).2 h)))
  | run maxSteps => exact .inr (.inr (by rw [hostCall, run_halted maxSteps h]; rfl))
  | runStart => exact .inr (.inr (by rw [hostCall, runStart_halted h]))
  | runNext maxSteps =>
    exact .inr (.inr (by rw [hostCall, runIteration_stopped maxSteps (running_of_halted hinv h)]; rfl))
  | stop => exact .inr (.inr (by rw [hostCall, hostStop_halted h]))

/-! ### The obligations -/

/-- Settles O56: each of the other calls leaves the halted core as it is, so a call that ends its halt is one of the two. -/
theorem haltedUntilResetOrLoad : Obligations.HaltedUntilResetOrLoad := by
  refine ⟨fun s maxSteps h => ⟨step_halted ((isHalted_iff s).2 h), run_halted maxSteps h, hostStop_halted h⟩,
    fun c s t hinv h hcall hleft => ?_, fun s p => ⟨rfl, rfl⟩⟩
  rcases hostCall_halted hinv h with hreset | hload | hsame
  · exact .inl hreset
  · exact .inr hload
  · obtain rfl : s = t := Host.Outcome.next.inj (hsame.symm.trans hcall)
    exact absurd h hleft

/-- Settles O57: the ceiling is looked at before the step, and every step answers. -/
theorem ceilingAndStopEndARun : Obligations.CeilingAndStopEndARun := by
  refine ⟨fun maxSteps s hrunning => ⟨runIteration_ceiling maxSteps hrunning, fun hbelow => ?_⟩,
    fun _ => hostStop_not_halted⟩
  obtain ⟨t, hstep, -⟩ := step_next_cases s
  exact ⟨t, hstep, runIteration_step maxSteps hrunning hbelow hstep⟩

end Sys2Proof.Machine
end

section
/-! PROOFS. The opcode table, the decoder and the encoder of instructions agree (30_encoding.md R66 to R69, R79). -/

namespace Sys2Proof

/-! ### The instruction a row and a word make -/

/-- The instruction of mnemonic `m` whose operands are read from the fields of `w` its format has
(30_encoding.md R67, R69). -/
def Mnemonic.readOperands (m : Mnemonic) (w : Word) : Instr :=
  match m with
  | .add => .add (rdOf w) (rs1Of w) (rs2Of w)
  | .sub => .sub (rdOf w) (rs1Of w) (rs2Of w)
  | .and => .and (rdOf w) (rs1Of w) (rs2Of w)
  | .or => .or (rdOf w) (rs1Of w) (rs2Of w)
  | .xor => .xor (rdOf w) (rs1Of w) (rs2Of w)
  | .sll => .sll (rdOf w) (rs1Of w) (rs2Of w)
  | .srl => .srl (rdOf w) (rs1Of w) (rs2Of w)
  | .sra => .sra (rdOf w) (rs1Of w) (rs2Of w)
  | .slt => .slt (rdOf w) (rs1Of w) (rs2Of w)
  | .sltu => .sltu (rdOf w) (rs1Of w) (rs2Of w)
  | .addi => .addi (rdOf w) (rs1Of w) (immI w)
  | .andi => .andi (rdOf w) (rs1Of w) (immI w)
  | .ori => .ori (rdOf w) (rs1Of w) (immI w)
  | .xori => .xori (rdOf w) (rs1Of w) (immI w)
  | .slli => .slli (rdOf w) (rs1Of w) (rs2Of w)
  | .srli => .srli (rdOf w) (rs1Of w) (rs2Of w)
  | .srai => .srai (rdOf w) (rs1Of w) (rs2Of w)
  | .slti => .slti (rdOf w) (rs1Of w) (immI w)
  | .sltiu => .sltiu (rdOf w) (rs1Of w) (immI w)
  | .mul => .mul (rdOf w) (rs1Of w) (rs2Of w)
  | .mulh => .mulh (rdOf w) (rs1Of w) (rs2Of w)
  | .mulhsu => .mulhsu (rdOf w) (rs1Of w) (rs2Of w)
  | .mulhu => .mulhu (rdOf w) (rs1Of w) (rs2Of w)
  | .div => .div (rdOf w) (rs1Of w) (rs2Of w)
  | .divu => .divu (rdOf w) (rs1Of w) (rs2Of w)
  | .rem => .rem (rdOf w) (rs1Of w) (rs2Of w)
  | .remu => .remu (rdOf w) (rs1Of w) (rs2Of w)
  | .lb => .lb (rdOf w) (rs1Of w) (immI w)
  | .lh => .lh (rdOf w) (rs1Of w) (immI w)
  | .lw => .lw (rdOf w) (rs1Of w) (immI w)
  | .lbu => .lbu (rdOf w) (rs1Of w) (immI w)
  | .lhu => .lhu (rdOf w) (rs1Of w) (immI w)
  | .sb => .sb (rs1Of w) (rs2Of w) (immS w)
  | .sh => .sh (rs1Of w) (rs2Of w) (immS w)
  | .sw => .sw (rs1Of w) (rs2Of w) (immS w)
  | .lui => .lui (rdOf w) (immU w)
  | .auipc => .auipc (rdOf w) (immU w)
  | .jal => .jal (rdOf w) (immJ w)
  | .jalr => .jalr (rdOf w) (rs1Of w) (immI w)
  | .beq => .beq (rs1Of w) (rs2Of w) (immB w)
  | .bne => .bne (rs1Of w) (rs2Of w) (immB w)
  | .blt => .blt (rs1Of w) (rs2Of w) (immB w)
  | .bge => .bge (rs1Of w) (rs2Of w) (immB w)
  | .bltu => .bltu (rs1Of w) (rs2Of w) (immB w)
  | .bgeu => .bgeu (rs1Of w) (rs2Of w) (immB w)
  | .faddS => .faddS (rdOf w) (rs1Of w) (rs2Of w) (funct3Of w)
  | .fsubS => .fsubS (rdOf w) (rs1Of w) (rs2Of w) (funct3Of w)
  | .fmulS => .fmulS (rdOf w) (rs1Of w) (rs2Of w) (funct3Of w)
  | .fdivS => .fdivS (rdOf w) (rs1Of w) (rs2Of w) (funct3Of w)
  | .fcvtWS => .fcvtWS (rdOf w) (rs1Of w) (funct3Of w)
  | .fcvtSW => .fcvtSW (rdOf w) (rs1Of w) (funct3Of w)
  | .feqS => .feqS (rdOf w) (rs1Of w) (rs2Of w)
  | .fltS => .fltS (rdOf w) (rs1Of w) (rs2Of w)
  | .fleS => .fleS (rdOf w) (rs1Of w) (rs2Of w)
  | .fmvXW => .fmvXW (rdOf w) (rs1Of w)
  | .fmvWX => .fmvWX (rdOf w) (rs1Of w)
  | .ecall => .ecall
  | .ebreak => .ebreak

section
variable {m : Mnemonic} {i : Instr} {w v : Word}

@[simp] theorem mnemonic_readOperands (m : Mnemonic) (w : Word) : (m.readOperands w).mnemonic = m := by
  cases m <;> rfl

/-- The decoder, on a word that matches a row, reads the operands of that row's format. -/
theorem decodeWord_of_matchesWord (h : m.matchesWord w) : decodeWord w = .ok (m.readOperands w) := by
  obtain ⟨⟨hadd, -⟩, ⟨hsub, -⟩, ⟨hand, -⟩, ⟨hor, -⟩, ⟨hxor, -⟩, ⟨hsll, -⟩, ⟨hsrl, -⟩, ⟨hsra, -⟩, ⟨hslt, -⟩,
    ⟨hsltu, -⟩⟩ := Machine.integerRegisterOperations
  obtain ⟨haddi, handi, hori, hxori, hslti, hsltiu⟩ := Machine.integerImmediateRows_decode
  obtain ⟨hslli, hsrli, hsrai⟩ := Machine.shiftImmediateRows_decode
  obtain ⟨⟨hmul, hmulh, hmulhsu, hmulhu⟩, hdiv, hdivu, hrem, hremu⟩ := Machine.mulDivRows_decode
  obtain ⟨hlb, hlh, hlw, hlbu, hlhu⟩ := Machine.loadRows_decode
  obtain ⟨hsb, hsh, hsw⟩ := Machine.storeRows_decode
  obtain ⟨hlui, hauipc, -⟩ := Machine.upperImmediates
  obtain ⟨hjal, hjalr, -⟩ := Machine.jumpsAndLinks
  obtain ⟨hbeq, hbne, hblt, hbge, hbltu, hbgeu⟩ := Machine.branchRows_decode
  obtain ⟨hfadd, hfsub, hfmul, hfdiv⟩ := floatArithmeticRows_decode
  obtain ⟨hfcvtWS, hfcvtSW⟩ := floatConversionRows_decode
  obtain ⟨hfeq, hflt, hfle⟩ := floatComparisonRows_decode
  obtain ⟨hfmvXW, hfmvWX⟩ := floatMoveRows_decode
  cases m
  case ecall =>
    obtain rfl : w = 0x00000073#32 := BitVec.and_allOnes.symm.trans h
    rfl
  case ebreak =>
    obtain rfl : w = 0x00100073#32 := BitVec.and_allOnes.symm.trans h
    rfl
  exacts [hadd w h, hsub w h, hand w h, hor w h, hxor w h, hsll w h, hsrl w h, hsra w h, hslt w h, hsltu w h,
    haddi w h, handi w h, hori w h, hxori w h, hslli w h, hsrli w h, hsrai w h, hslti w h, hsltiu w h,
    hmul w h, hmulh w h, hmulhsu w h, hmulhu w h, hdiv w h, hdivu w h, hrem w h, hremu w h,
    hlb w h, hlh w h, hlw w h, hlbu w h, hlhu w h, hsb w h, hsh w h, hsw w h,
    hlui w h, hauipc w h, hjal w h, hjalr w h, hbeq w h, hbne w h, hblt w h, hbge w h, hbltu w h, hbgeu w h,
    hfadd w h, hfsub w h, hfmul w h, hfdiv w h, hfcvtWS w h, hfcvtSW w h, hfeq w h, hflt w h, hfle w h,
    hfmvXW w h, hfmvWX w h]

open Laws in
/-- The family EncodesRow, gathered. -/
theorem encode_matchesWord (i : Instr) : i.mnemonic.matchesWord (encode i) := by
  cases i
  exacts [EncodesRow.add _ _ _, EncodesRow.sub _ _ _, EncodesRow.and _ _ _, EncodesRow.or _ _ _,
    EncodesRow.xor _ _ _, EncodesRow.sll _ _ _, EncodesRow.srl _ _ _, EncodesRow.sra _ _ _,
    EncodesRow.slt _ _ _, EncodesRow.sltu _ _ _, EncodesRow.addi _ _ _, EncodesRow.andi _ _ _,
    EncodesRow.ori _ _ _, EncodesRow.xori _ _ _, EncodesRow.slli _ _ _, EncodesRow.srli _ _ _,
    EncodesRow.srai _ _ _, EncodesRow.slti _ _ _, EncodesRow.sltiu _ _ _, EncodesRow.mul _ _ _,
    EncodesRow.mulh _ _ _, EncodesRow.mulhsu _ _ _, EncodesRow.mulhu _ _ _, EncodesRow.div _ _ _,
    EncodesRow.divu _ _ _, EncodesRow.rem _ _ _, EncodesRow.remu _ _ _, EncodesRow.lb _ _ _,
    EncodesRow.lh _ _ _, EncodesRow.lw _ _ _, EncodesRow.lbu _ _ _, EncodesRow.lhu _ _ _,
    EncodesRow.sb _ _ _, EncodesRow.sh _ _ _, EncodesRow.sw _ _ _, EncodesRow.lui _ _,
    EncodesRow.auipc _ _, EncodesRow.jal _ _, EncodesRow.jalr _ _ _, EncodesRow.beq _ _ _,
    EncodesRow.bne _ _ _, EncodesRow.blt _ _ _, EncodesRow.bge _ _ _, EncodesRow.bltu _ _ _,
    EncodesRow.bgeu _ _ _, EncodesRow.faddS _ _ _ _, EncodesRow.fsubS _ _ _ _, EncodesRow.fmulS _ _ _ _,
    EncodesRow.fdivS _ _ _ _, EncodesRow.fcvtWS _ _ _, EncodesRow.fcvtSW _ _ _, EncodesRow.feqS _ _ _,
    EncodesRow.fltS _ _ _, EncodesRow.fleS _ _ _, EncodesRow.fmvXW _ _, EncodesRow.fmvWX _ _,
    EncodesRow.ecall, EncodesRow.ebreak]

/-- The operands an encoding carries are read back from it. -/
theorem readOperands_encode (h : i.wellFormed = true) : i.mnemonic.readOperands (encode i) = i := by
  cases i with
  | lui | auipc =>
    simp only [Instr.mnemonic, encode, Mnemonic.readOperands, rdOf_encU, immU_encU _ _ (of_decide_eq_true h)]
  | jal =>
    simp only [Instr.mnemonic, encode, Mnemonic.readOperands, rdOf_encJ, immJ_encJ _ _ (of_decide_eq_true h)]
  | beq | bne | blt | bge | bltu | bgeu =>
    simp only [Instr.mnemonic, encode, Mnemonic.readOperands, rs1Of_encB, rs2Of_encB,
      immB_encB _ _ _ _ (of_decide_eq_true h)]
  | _ => simp only [Instr.mnemonic, encode, Mnemonic.readOperands, rdOf_encR, rs1Of_encR, rs2Of_encR, funct3Of_encR,
      rdOf_encI, rs1Of_encI, immI_encI, rs1Of_encS, rs2Of_encS, immS_encS]

theorem wellFormed_readOperands (m : Mnemonic) (w : Word) : (m.readOperands w).wellFormed = true := by
  cases m with
  | lui | auipc => exact decide_eq_true (upperU_immU w)
  | jal => exact decide_eq_true (evenJ_immJ w)
  | beq | bne | blt | bge | bltu | bgeu => exact decide_eq_true (evenB_immB w)
  | _ => rfl

/-! ### A word of a row is the row's selectors and the word's operands, in the layout of the format -/

theorem encR_of_maskR (h : w &&& 0xFE00707F#32 = v) :
    encR (funct7Of v) (rs2Of w) (rs1Of w) (funct3Of v) (rdOf w) (opcodeOf v) = w := by
  obtain ⟨h7, h3, ho⟩ := fields_of_maskR h
  rw [← h7, ← h3, ← ho, encR_fields]

theorem encR_of_maskFp (h : w &&& 0xFE00007F#32 = v) :
    encR (funct7Of v) (rs2Of w) (rs1Of w) (funct3Of w) (rdOf w) (opcodeOf v) = w := by
  obtain ⟨h7, ho⟩ := fields_of_maskFp h
  rw [← h7, ← ho, encR_fields]

theorem encR_of_maskCvt (h : w &&& 0xFFF0007F#32 = v) :
    encR (funct7Of v) (rs2Of v) (rs1Of w) (funct3Of w) (rdOf w) (opcodeOf v) = w := by
  obtain ⟨h7, h2, ho⟩ := fields_of_maskCvt h
  rw [← h7, ← h2, ← ho, encR_fields]

theorem encR_of_maskMv (h : w &&& 0xFFF0707F#32 = v) :
    encR (funct7Of v) (rs2Of v) (rs1Of w) (funct3Of v) (rdOf w) (opcodeOf v) = w := by
  obtain ⟨h7, h2, h3, ho⟩ := fields_of_maskMv h
  rw [← h7, ← h2, ← h3, ← ho, encR_fields]

theorem encI_of_maskI (h : w &&& 0x0000707F#32 = v) :
    encI (immI w) (rs1Of w) (funct3Of v) (rdOf w) (opcodeOf v) = w := by
  obtain ⟨h3, ho⟩ := fields_of_maskI h
  rw [← h3, ← ho, encI_fields]

theorem encS_of_maskI (h : w &&& 0x0000707F#32 = v) :
    encS (immS w) (rs2Of w) (rs1Of w) (funct3Of v) (opcodeOf v) = w := by
  obtain ⟨h3, ho⟩ := fields_of_maskI h
  rw [← h3, ← ho, encS_fields]

theorem encB_of_maskI (h : w &&& 0x0000707F#32 = v) :
    encB (immB w) (rs2Of w) (rs1Of w) (funct3Of v) (opcodeOf v) = w := by
  obtain ⟨h3, ho⟩ := fields_of_maskI h
  rw [← h3, ← ho, encB_fields]

theorem encU_of_maskU (h : w &&& 0x0000007F#32 = v) :
    encU ((immU w).extractLsb' 12 20) (rdOf w) (opcodeOf v) = w := by
  rw [← Machine.opcode_of_maskU h, encU_fields]

theorem encJ_of_maskU (h : w &&& 0x0000007F#32 = v) : encJ (immJ w) (rdOf w) (opcodeOf v) = w := by
  rw [← Machine.opcode_of_maskU h, encJ_fields]

/-- The encoder, on the operands read from a word of the row, gives the word. -/
theorem encode_readOperands (h : m.matchesWord w) : encode (m.readOperands w) = w := by
  cases m with
  | add | sub | and | or | xor | sll | srl | sra | slt | sltu | slli | srli | srai
  | mul | mulh | mulhsu | mulhu | div | divu | rem | remu | feqS | fltS | fleS => exact (encR_of_maskR h :)
  | addi | andi | ori | xori | slti | sltiu | lb | lh | lw | lbu | lhu | jalr => exact (encI_of_maskI h :)
  | sb | sh | sw => exact (encS_of_maskI h :)
  | beq | bne | blt | bge | bltu | bgeu => exact (encB_of_maskI h :)
  | lui | auipc => exact (encU_of_maskU h :)
  | jal => exact (encJ_of_maskU h :)
  | faddS | fsubS | fmulS | fdivS => exact (encR_of_maskFp h :)
  | fcvtWS | fcvtSW => exact (encR_of_maskCvt h :)
  | fmvXW | fmvWX => exact (encR_of_maskMv h :)
  | ecall | ebreak => exact h.symm.trans BitVec.and_allOnes

/-! ### The obligations -/

/-- Settles O1: the word of an instruction matches the instruction's row, and the operands read from it are those
encoded. -/
theorem decodeEncodeRoundTrip : Obligations.DecodeEncodeRoundTrip := fun i h => by
  rw [decodeWord_of_matchesWord (encode_matchesWord i), readOperands_encode h]

/-- What the decoder answers, in full: an instruction of a row the word matches, with the word's operands. -/
theorem decodeWord_ok_iff : decodeWord w = .ok i ↔ i.mnemonic.matchesWord w ∧ i = i.mnemonic.readOperands w := by
  constructor
  · intro h
    have hrow : i.mnemonic.matchesWord w := by
      cases hm : matchRow w with
      | none => rw [decodeWord_none hm] at h; cases h
      | some j =>
        rw [decodeWord_some hm] at h
        obtain rfl := Except.ok.inj h
        exact matchRow_answersRowOf w j hm
    exact ⟨hrow, Except.ok.inj (h.symm.trans (decodeWord_of_matchesWord hrow))⟩
  · rintro ⟨hrow, hi⟩
    rw [hi]
    exact decodeWord_of_matchesWord hrow

/-- Settles O2: the encoder puts the operands the decoder read back where they stood, beside the row's selectors. -/
theorem encodeDecodeRoundTrip : Obligations.EncodeDecodeRoundTrip := fun w i h => by
  obtain ⟨hrow, hi⟩ := decodeWord_ok_iff.1 h
  rw [hi]
  exact ⟨encode_readOperands hrow, wellFormed_readOperands _ w⟩

/-- Settles O3: one way is the decoder on the words of a row, the other that what it answers has a row the
word matches. -/
theorem decoderFollowsOpcodeTable : Obligations.DecoderFollowsOpcodeTable := by
  refine ⟨fun w m => ⟨fun h => ⟨_, decodeWord_of_matchesWord h, mnemonic_readOperands m w⟩, ?_⟩,
    fun _ => decodeWord_noRow⟩
  rintro ⟨i, h, rfl⟩
  exact (decodeWord_ok_iff.1 h).1

end

end Sys2Proof
end

section
/-! PROOFS. The words the encoder unit answers (30_encoding.md R58 to R65). -/

namespace Sys2Proof

/-! ### When a word has the selectors of a row -/

/-- A row's mask covers its value. -/
theorem row_value_and_mask (m : Mnemonic) : m.row.value &&& m.row.mask = m.row.value := by
  cases m <;> rfl

section
variable {m : Mnemonic} {w : Word}

theorem matchesWord_of_masked (h : w &&& m.row.mask = m.row.value &&& m.row.mask) : m.matchesWord w :=
  h.trans (row_value_and_mask m)

theorem matchesWord_of_funct7_funct3 (hmask : m.row.mask = 0xFE00707F#32) (h7 : funct7Of w = funct7Of m.row.value)
    (h3 : funct3Of w = funct3Of m.row.value) (ho : opcodeOf w = opcodeOf m.row.value) : m.matchesWord w :=
  matchesWord_of_masked (by rw [hmask, mask_funct7_funct3, h7, h3, ho, ← mask_funct7_funct3])

theorem matchesWord_of_funct3 (hmask : m.row.mask = 0x0000707F#32) (h3 : funct3Of w = funct3Of m.row.value)
    (ho : opcodeOf w = opcodeOf m.row.value) : m.matchesWord w :=
  matchesWord_of_masked (by rw [hmask, mask_funct3, h3, ho, ← mask_funct3])

theorem matchesWord_of_opcode (hmask : m.row.mask = 0x0000007F#32) (ho : opcodeOf w = opcodeOf m.row.value) :
    m.matchesWord w :=
  matchesWord_of_masked (by rw [hmask, mask_opcode, ho, ← mask_opcode])

theorem matchesWord_of_funct7 (hmask : m.row.mask = 0xFE00007F#32) (h7 : funct7Of w = funct7Of m.row.value)
    (ho : opcodeOf w = opcodeOf m.row.value) : m.matchesWord w :=
  matchesWord_of_masked (by rw [hmask, mask_funct7, h7, ho, ← mask_funct7])

theorem matchesWord_of_funct7_rs2 (hmask : m.row.mask = 0xFFF0007F#32) (h7 : funct7Of w = funct7Of m.row.value)
    (h2 : rs2Of w = rs2Of m.row.value) (ho : opcodeOf w = opcodeOf m.row.value) : m.matchesWord w :=
  matchesWord_of_masked (by rw [hmask, mask_funct7_rs2, h7, h2, ho, ← mask_funct7_rs2])

theorem matchesWord_of_funct7_rs2_funct3 (hmask : m.row.mask = 0xFFF0707F#32)
    (h7 : funct7Of w = funct7Of m.row.value) (h2 : rs2Of w = rs2Of m.row.value)
    (h3 : funct3Of w = funct3Of m.row.value) (ho : opcodeOf w = opcodeOf m.row.value) : m.matchesWord w :=
  matchesWord_of_masked (by rw [hmask, mask_funct7_rs2_funct3, h7, h2, h3, ho, ← mask_funct7_rs2_funct3])

end

/-! ### The immediates of the words of formats B, J and U, for every field -/

theorem immB_encB_clears (off : BitVec 13) (r2 r1 : BitVec 5) (f3 : BitVec 3) (op : BitVec 7) :
    immB (encB off r2 r1 f3 op) = off.extractLsb' 1 12 ++ 0b0#1 := by
  simp (disch := omega) only [immB, encB, extract_append_low, extract_append_high, extract_all, Nat.reduceSub]
  apply BitVec.eq_of_getLsbD_eq
  intro i hi
  simp only [BitVec.getLsbD_append, BitVec.getLsbD_extractLsb']
  interval_cases i <;> simp

theorem immJ_encJ_clears (off : BitVec 21) (rd : BitVec 5) (op : BitVec 7) :
    immJ (encJ off rd op) = off.extractLsb' 1 20 ++ 0b0#1 := by
  simp (disch := omega) only [immJ, encJ, extract_append_low, extract_append_high, extract_all, Nat.reduceSub]
  apply BitVec.eq_of_getLsbD_eq
  intro i hi
  simp only [BitVec.getLsbD_append, BitVec.getLsbD_extractLsb']
  interval_cases i <;> simp

theorem immU_encU_field (field : BitVec 20) (rd : BitVec 5) (op : BitVec 7) :
    immU (encU field rd op) = field ++ 0#12 := by
  simp (disch := omega) only [immU, encU, extract_append_high, extract_all, Nat.reduceSub]

namespace Machine

/-- The folding `v mod 2^w` loses nothing of an integer in the signed range (R60). -/
theorem toInt_ofInt_of_fitsSigned {n : Nat} {v : Int} (hn : 0 < n) (h : fitsSigned n v = true) :
    (BitVec.ofInt n v).toInt = v := by
  rw [fitsSigned_iff] at h
  rw [BitVec.toInt_ofInt, Int.bmod_eq_of_le_mul_two]
  all_goals
    have hpow : (2 : Int) ^ n = 2 ^ (n - 1) * 2 := by rw [← pow_succ, Nat.sub_add_cancel hn]
    push_cast
    omega

/-- Dropping bit 0 rounds down to an even integer (R55, R57). -/
theorem toInt_clear_bit0 {n : Nat} (hn : 0 < n) (x : BitVec (n + 1)) :
    (x.extractLsb' 1 n ++ 0b0#1).toInt = x.toInt - x.toInt % 2 := by
  have hx := x.isLt
  have hpow : 2 ^ (n + 1) = 2 * 2 ^ n := by rw [pow_succ, Nat.mul_comm]
  have heven : 2 ^ n % 2 = 0 := Nat.mod_eq_zero_of_dvd (dvd_pow_self 2 hn.ne')
  have hmod : x.toNat / 2 % 2 ^ n = x.toNat / 2 := Nat.mod_eq_of_lt (by omega)
  simp only [BitVec.toInt_eq_toNat_cond, toNat_append_eq_add, toNat_extractLsb'_eq_div_mod, BitVec.toNat_ofNat, pow_one,
    hmod, hpow]
  generalize 2 ^ n = half at heven
  split_ifs <;> push_cast <;> omega

theorem toInt_shift12 (field : BitVec 20) : (field ++ 0#12).toInt = field.toInt * 4096 := by
  have := field.isLt
  simp only [BitVec.toInt_eq_toNat_cond, toNat_append_eq_add, BitVec.toNat_ofNat]
  split_ifs <;> push_cast <;> omega

/-! ### The block of R58, format by format -/

section
variable {m : Mnemonic} {rd rs1 rs2 : BitVec 5} {v : Int} {rm : BitVec 3} {w : Word}

theorem encodeBlock_r (h : m.row.format = .r ∨ m.row.format = .rFpCmp) : encodeBlock m rd rs1 rs2 v rm =
    .ok (encR (funct7Of m.row.value) rs2 rs1 (funct3Of m.row.value) rd (opcodeOf m.row.value)) := by
  rcases h with h | h <;> simp only [encodeBlock, h]

theorem encodeBlock_rFp (h : m.row.format = .rFp) : encodeBlock m rd rs1 rs2 v rm =
    .ok (encR (funct7Of m.row.value) rs2 rs1 rm rd (opcodeOf m.row.value)) := by
  simp only [encodeBlock, h]

theorem encodeBlock_rFpCvt (h : m.row.format = .rFpCvt) : encodeBlock m rd rs1 rs2 v rm =
    .ok (encR (funct7Of m.row.value) (rs2Of m.row.value) rs1 (if fixesFunct3 m.row then funct3Of m.row.value else rm) rd
      (opcodeOf m.row.value)) := by
  simp only [encodeBlock, h]

theorem encodeBlock_fixed (h : m.row.format = .fixed) : encodeBlock m rd rs1 rs2 v rm = .ok m.row.value := by
  simp only [encodeBlock, h]

/-- A range check that answers a word has passed. -/
theorem of_rangeCheck_eq_ok {b : Bool} {w w' : Word}
    (h : (if b then .ok w' else .error EncodeError.immediateOutOfRange) = Except.ok w) : b = true ∧ w = w' := by
  cases b with
  | true => exact ⟨rfl, (Except.ok.inj h).symm⟩
  | false => cases h

/-- The mask of each format's rows. -/
theorem row_mask (m : Mnemonic) : m.row.mask =
    match m.row.format with
    | .r | .iShift | .rFpCmp => 0xFE00707F#32
    | .i | .s | .b => 0x0000707F#32
    | .u | .j => 0x0000007F#32
    | .rFp => 0xFE00007F#32
    | .rFpCvt => if fixesFunct3 m.row then 0xFFF0707F#32 else 0xFFF0007F#32
    | .fixed => 0xFFFFFFFF#32 := by
  cases m <;> rfl

/-- The immediate of the instruction a word makes, by format (R69). -/
theorem immediate_readOperands (w : Word) : (m.readOperands w).immediate =
    match m.row.format with
    | .i => (immI w).toInt
    | .iShift => ((rs2Of w).toNat : Int)
    | .s => (immS w).toInt
    | .b => (immB w).toInt
    | .u => (immU w).toInt
    | .j => (immJ w).toInt
    | .r | .rFp | .rFpCvt | .rFpCmp => 0
    | .fixed => (immI m.row.value).toInt := by
  cases m <;> rfl

end

/-- A word of a row has an answer, and what is said of it is said of the word's operands. -/
theorem answers_of_matchesWord {m : Mnemonic} {w : Word} {P : Instr → Prop} (hrow : m.matchesWord w)
    (hP : P (m.readOperands w)) : ∃ i, decodeWord w = .ok i ∧ i.mnemonic = m ∧ P i :=
  ⟨_, decodeWord_of_matchesWord hrow, mnemonic_readOperands m w, hP⟩

/-- Settles O7: in every format the word has the row's selectors, so it decodes to the row's mnemonic with the operands
read back; the immediates that lose bits in the encoding are computed for every field. -/
theorem encoderImmediateRoundTrip : Obligations.EncoderImmediateRoundTrip := by
  intro m rd rs1 rs2 v rm w h
  have hmask := row_mask m
  have himm := immediate_readOperands (m := m) w
  cases hf : m.row.format <;> simp only [hf] at hmask himm ⊢
  case r =>
    obtain rfl := Except.ok.inj ((encodeBlock_r (.inl hf)).symm.trans h)
    exact answers_of_matchesWord (matchesWord_of_funct7_funct3 hmask (by simp) (by simp) (by simp)) (by simp)
  case rFpCmp =>
    obtain rfl := Except.ok.inj ((encodeBlock_r (.inr hf)).symm.trans h)
    exact answers_of_matchesWord (matchesWord_of_funct7_funct3 hmask (by simp) (by simp) (by simp)) (by simp)
  case rFp =>
    obtain rfl := Except.ok.inj ((encodeBlock_rFp hf).symm.trans h)
    exact answers_of_matchesWord (matchesWord_of_funct7 hmask (by simp) (by simp)) (by simp)
  case rFpCvt =>
    obtain rfl := Except.ok.inj ((encodeBlock_rFpCvt hf).symm.trans h)
    refine answers_of_matchesWord ?_ (by simp)
    split at hmask
    case isTrue hfix =>
      exact matchesWord_of_funct7_rs2_funct3 hmask (by simp) (by simp) (by simp [hfix]) (by simp)
    case isFalse => exact matchesWord_of_funct7_rs2 hmask (by simp) (by simp) (by simp)
  case i =>
    obtain ⟨hfits, rfl⟩ := of_rangeCheck_eq_ok ((encodeBlock_i hf).symm.trans h)
    refine answers_of_matchesWord (matchesWord_of_funct3 hmask (by simp) (by simp)) ⟨by simp, by simp, ?_⟩
    rw [himm, immI_encI, toInt_ofInt_of_fitsSigned (by decide) hfits]
  case iShift =>
    obtain ⟨hfits, rfl⟩ := of_rangeCheck_eq_ok ((encodeBlock_iShift hf).symm.trans h)
    refine answers_of_matchesWord (matchesWord_of_funct7_funct3 hmask (by simp) (by simp) (by simp))
      ⟨by simp, by simp, ?_⟩
    simp only [Bool.and_eq_true, decide_eq_true_eq] at hfits
    rw [himm, rs2Of_encR, BitVec.toNat_ofInt]
    omega
  case s =>
    obtain ⟨hfits, rfl⟩ := of_rangeCheck_eq_ok ((encodeBlock_s hf).symm.trans h)
    refine answers_of_matchesWord (matchesWord_of_funct3 hmask (by simp) (by simp)) ⟨by simp, by simp, ?_⟩
    rw [himm, immS_encS, toInt_ofInt_of_fitsSigned (by decide) hfits]
  case b =>
    obtain ⟨hfits, rfl⟩ := of_rangeCheck_eq_ok ((encodeBlock_b hf).symm.trans h)
    refine answers_of_matchesWord (matchesWord_of_funct3 hmask (by simp) (by simp)) ⟨by simp, by simp, ?_⟩
    rw [himm, immB_encB_clears, toInt_clear_bit0 (by decide), toInt_ofInt_of_fitsSigned (by decide) hfits]
  case u =>
    obtain ⟨hfits, rfl⟩ := of_rangeCheck_eq_ok ((encodeBlock_u hf).symm.trans h)
    refine answers_of_matchesWord (matchesWord_of_opcode hmask (by simp)) ⟨by simp, ?_⟩
    rw [himm, immU_encU_field, toInt_shift12, toInt_ofInt_of_fitsSigned (by decide) hfits]
  case j =>
    obtain ⟨hfits, rfl⟩ := of_rangeCheck_eq_ok ((encodeBlock_j hf).symm.trans h)
    refine answers_of_matchesWord (matchesWord_of_opcode hmask (by simp)) ⟨by simp, ?_⟩
    rw [himm, immJ_encJ_clears, toInt_clear_bit0 (by decide), toInt_ofInt_of_fitsSigned (by decide) hfits]
  case fixed =>
    obtain rfl := Except.ok.inj ((encodeBlock_fixed hf).symm.trans h)
    exact answers_of_matchesWord (row_value_and_mask m) rfl

end Machine

/-- Settles O5: the decoder, run on each word. -/
theorem sampleWordsDecode : Obligations.SampleWordsDecode := by
  unfold Obligations.SampleWordsDecode
  decide

end Sys2Proof
end

section
/-! PROOFS. What a step keeps and who writes what (10_state.md R10 to R23, 60_exceptions.md R252 to R262). -/

namespace Sys2Proof.Machine

open Sys2Proof.Safety

/-! ### What each effect writes -/

namespace Effect

section
variable {i : Instr} {s s' : State} (h : Effect i s s')
include h

theorem instructionCount : s'.instructionCount = s.instructionCount := by cases h <;> simp

theorem params : s'.params = s.params := by cases h <;> simp

theorem x_zero : s'.x[0] = s.x[0] := by cases h <;> simp

/-- The control state is kept, or it is that of the exit syscall. -/
theorem control_cases : (s'.running = s.running ∧ s'.status = s.status) ∨
    (i = .ecall ∧ s'.running = false ∧ s'.status = .haltedExit) := by
  cases h with
  | exit hi => exact .inr ⟨hi, rfl, rfl⟩
  | _ => exact .inl (by simp)

/-- Memory is kept, or it is that of a store that succeeded. -/
theorem mem_cases : s'.mem = s.mem ∨
    (isStore i = true ∧ ∃ a v n, memWrite s.params s.mem a n v = .ok s'.mem) := by
  cases h with
  | mem a v n m hi _ hm => exact .inr ⟨hi, a, v, n, hm⟩
  | _ => exact .inl (by simp)

theorem f_of_ne (hne : s'.f ≠ s.f) : writesFloat i = true := by
  cases h with
  | f _ _ hi | nan _ hi => exact hi
  | _ => exact absurd (by simp) hne

theorem readX_of_ne {r : XReg} (hne : readX s' r ≠ readX s r) : r = destX i := by
  cases h with
  | x | write =>
    rw [readX_writeX] at hne
    by_contra hr
    simp [hr] at hne
  | f | nan | nothing | mem | exit | emit => exact absurd (readX_congr rfl r) hne

theorem out_of_ne (hne : s'.out ≠ s.out) : i = .ecall := by
  cases h with
  | emit _ hi | write _ _ hi => exact hi
  | _ => exact absurd (by simp) hne

theorem nanDraws_of_ne (hne : s'.nanDraws ≠ s.nanDraws) : isArithmetic i = true := by
  cases h with
  | nan _ _ hi => exact hi
  | _ => exact absurd (by simp) hne

end

end Effect

/-! ### The two ends of an instruction and of a step that answer a given state -/

theorem exec_inversion {i : Instr} {s t : State} (h : exec i s = .next t) :
    (∃ e, t = haltError s e) ∨ ∃ s' a, Effect i s s' ∧ Target i s a ∧ t = retire s' a := by
  rcases exec_ends i s with ⟨e, h'⟩ | ⟨s', a, h', heffect, htarget⟩
  · exact .inl ⟨e, Host.Outcome.next.inj (h.symm.trans h')⟩
  · exact .inr ⟨s', a, heffect, htarget, Host.Outcome.next.inj (h.symm.trans h')⟩

/-- A step leaves a halted core, takes a fault, or retires an effect of some instruction. -/
theorem step_inversion {s t : State} (h : step s = .next t) :
    (Halted s ∧ t = s) ∨ (∃ e, t = haltError s e) ∨ ∃ i s' a, Effect i s s' ∧ t = retire s' a := by
  rcases step_cases s with ⟨hs, h'⟩ | ⟨-, e, -, h'⟩ | ⟨-, i, -, h'⟩ <;> rw [h'] at h
  · exact .inl ⟨(isHalted_iff s).1 hs, (Host.Outcome.next.inj h).symm⟩
  · exact .inr (.inl ⟨e, (Host.Outcome.next.inj h).symm⟩)
  · rcases exec_inversion h with hfault | ⟨s', a, heffect, -, ht⟩
    · exact .inr (.inl hfault)
    · exact .inr (.inr ⟨i, s', a, heffect, ht⟩)

/-! ### The invariant -/

section
variable {s : State} (h : CoreInv s)
include h

theorem coreInv_haltError (e : Fault) : CoreInv (haltError s e) :=
  ⟨h.memory, h.zero, by simp⟩

theorem coreInv_effect {i : Instr} {s' : State} (heffect : Effect i s s') : CoreInv s' where
  memory := by
    rcases heffect.mem_cases with hkept | ⟨-, a, v, n, hstore⟩
    · exact hkept ▸ h.memory
    · exact memWrite_wf h.memory hstore
  zero := heffect.x_zero.trans h.zero
  running := by
    rcases heffect.control_cases with ⟨hrunning, hstatus⟩ | ⟨-, hrunning, hstatus⟩ <;> rw [hrunning, hstatus]
    · exact h.running
    · simp

theorem coreInv_retire (a : Word) : CoreInv (retire s a) := ⟨h.memory, h.zero, h.running⟩

/-- The core set Idle and not running, as `stop()` and the ceiling leave it. -/
theorem coreInv_idle : CoreInv { s with running := false, status := .idle } := ⟨h.memory, h.zero, by simp⟩

end

/-- Settles O11: a fault writes control state alone, and every effect keeps each of the three clauses. -/
theorem stepKeepsInvariant : Obligations.StepKeepsInvariant := by
  intro s t hinv hstep
  rcases step_inversion hstep with ⟨-, rfl⟩ | ⟨e, rfl⟩ | ⟨i, s', a, heffect, rfl⟩
  · exact hinv
  · exact coreInv_haltError hinv e
  · exact coreInv_retire (coreInv_effect hinv heffect) a

/-! ### Progress, count, pc and writers -/

/-- Settles O46: no arm of `exec` and no fault answers anything but a next state. -/
theorem everyStepAnswersNext : Obligations.EveryStepAnswersNext := fun s =>
  (step_next_cases s).imp fun _ => And.left

/-- Settles O14: memory changes by stores alone, and a store maps what it writes. -/
theorem stepsNeverUnmap : Obligations.StepsNeverUnmap := by
  intro s t a hstep hmapped
  rcases step_inversion hstep with ⟨-, rfl⟩ | ⟨e, rfl⟩ | ⟨i, s', b, heffect, rfl⟩
  · exact hmapped
  · exact hmapped
  · rcases heffect.mem_cases with hkept | ⟨-, c, v, n, hstore⟩
    · rwa [retire_mem, hkept]
    · exact memWriteFrom_mapped hstore hmapped

/-- Settles O47: a fault keeps the count, no effect moves it, and retiring adds one. -/
theorem countCountsCompletedSteps : Obligations.CountCountsCompletedSteps := by
  intro s t hs hstep
  rcases step_inversion hstep with ⟨hhalted, -⟩ | ⟨e, rfl⟩ | ⟨i, s', a, heffect, rfl⟩
  · exact absurd hhalted hs
  · exact .inr ⟨rfl, e, haltError_faulted s e⟩
  · refine .inl ⟨by rw [retire_instructionCount, heffect.instructionCount], fun e he => ?_⟩
    rcases heffect.status_cases with hkept | hexit
    · exact hs (.inr ⟨e, hkept ▸ he⟩)
    · exact Status.noConfusion (hexit.symm.trans he)

/-- Settles O48: an instruction that retires elsewhere than at `pc + 4` is a jump or a branch. -/
theorem onlyControlInstructionsSignalTargets : Obligations.OnlyControlInstructionsSignalTargets := by
  intro i s t hi hexec
  rcases exec_inversion hexec with ⟨e, rfl⟩ | ⟨s', a, -, hcontrol | ⟨-, ha⟩, rfl⟩
  · exact .inr ⟨e, haltError_faulted s e⟩
  · rw [hi] at hcontrol
    cases hcontrol
  · exact .inl ha

/-- Settles O49: a fault changes control state alone, and each effect names the instructions that have it. -/
theorem whoWritesWhat : Obligations.WhoWritesWhat := by
  intro i s t hexec
  rcases exec_inversion hexec with ⟨e, rfl⟩ | ⟨s', a, heffect, -, rfl⟩
  · exact ⟨absurd rfl, absurd rfl, fun r => absurd (readX_congr rfl r), absurd rfl,
      fun _ => .inr ⟨e, haltError_faulted s e⟩, absurd rfl, rfl⟩
  · refine ⟨fun hne => (heffect.mem_cases.resolve_left hne).1, heffect.f_of_ne, fun r => heffect.readX_of_ne,
      heffect.out_of_ne, fun hne => ?_, heffect.nanDraws_of_ne, heffect.params⟩
    rcases heffect.control_cases with ⟨-, hkept⟩ | ⟨hi, -, hexit⟩
    · exact absurd hkept hne
    · exact .inl ⟨hexit, hi⟩

end Sys2Proof.Machine
end

section
/-! PROOFS. Reset, the loaded program, and whole runs (60_exceptions.md R260 to R268, 70_reset_and_hazards.md R280 to
R282). -/

namespace Sys2Proof.Machine

open Sys2Proof.Safety

/-! ### Reset and load -/

/-- Settles O53: every field of the core is that of reset, and `out` is kept. -/
theorem hostResetClearsCore : Obligations.HostResetClearsCore :=
  fun s => ⟨fun r => by simp [hostReset, readX, State.reset], fun r => by simp [hostReset, readF, State.reset],
    rfl, fun _ => rfl, rfl, rfl, rfl, rfl⟩

/-- Settles O9: the state after reset is what `reset()` makes of it. -/
theorem resetValues : Obligations.ResetValues := by
  obtain ⟨hx, hf, hpc, hmem, hrunning, hcount, hstatus, -⟩ := hostResetClearsCore State.reset
  exact ⟨hx, hf, hpc, hmem, hrunning, hcount, hstatus⟩

theorem coreInv_hostReset (s : State) : CoreInv (hostReset s) := ⟨empty_wf, rfl, by simp [hostReset, State.reset]⟩

/-- Settles O10: the state after reset is what `reset()` makes of it. -/
theorem resetSatisfiesInvariant : Obligations.ResetSatisfiesInvariant := coreInv_hostReset State.reset

/-- A copied image reads at each address as its last entry for it, else as the memory below (R281). -/
theorem readByte_copyImage (image : List (Word × Byte)) (m : Memory) (a : Word) :
    readByte (copyImage image m) a = ((image.reverse.find? (fun c => c.1 == a)).map (·.2)).or (readByte m a) := by
  induction image generalizing m with
  | nil => rfl
  | cons c image ih =>
    have hcopy : copyImage (c :: image) m = copyImage image (writeByte m c.1 c.2) := rfl
    rw [hcopy, ih, readByte_writeByte, List.reverse_cons, List.find?_append]
    cases image.reverse.find? (fun c => c.1 == a) with
    | some d => rfl
    | none =>
      by_cases hc : c.1 = a
      · simp [hc]
      · simp [hc, Ne.symm hc]

/-- Settles O54: the image is copied over no memory at all, and the other fields are those after reset. -/
theorem loadProgramPlacesImage : Obligations.LoadProgramPlacesImage := by
  intro p s
  obtain ⟨hx, hf, -⟩ := hostResetClearsCore s
  exact ⟨fun a => (readByte_copyImage p.memory _ a).trans Option.or_none, rfl, hx, hf, rfl, rfl, rfl⟩

/-- Settles O55: byte 0 of the instruction at 0 is unmapped. -/
theorem resetAloneFetchFaults : Obligations.ResetAloneFetchFaults :=
  unmappedFetchFaults State.reset 0 (by simp [Halted, State.reset]) (by decide) (.inl rfl) (fun _ h => nomatch h) rfl

/-! ### The invariant under host calls -/

/-- The three things an iteration can do (R264). -/
theorem runIteration_cases (maxSteps : Nat) (s : State) :
    (s.running = false ∧ runIteration maxSteps s = .next (.returned s)) ∨
    (maxSteps ≤ s.instructionCount ∧
      runIteration maxSteps s = .next (.maxStepsExceeded { s with running := false, status := .idle })) ∨
    (s.instructionCount < maxSteps ∧ ∃ t, step s = .next t ∧ runIteration maxSteps s = .next (.yielded t)) := by
  cases hrunning : s.running with
  | false => exact .inl ⟨rfl, runIteration_stopped maxSteps hrunning⟩
  | true =>
    rcases Nat.lt_or_ge s.instructionCount maxSteps with hbelow | hceiling
    · obtain ⟨t, hstep⟩ := everyStepAnswersNext s
      exact .inr (.inr ⟨hbelow, t, hstep, runIteration_step maxSteps hrunning hbelow hstep⟩)
    · exact .inr (.inl ⟨hceiling, runIteration_ceiling maxSteps hrunning hceiling⟩)

theorem coreInv_runIteration {maxSteps : Nat} {s : State} (hinv : CoreInv s) :
    ∃ e, runIteration maxSteps s = .next e ∧ CoreInv e.state := by
  rcases runIteration_cases maxSteps s with ⟨-, h⟩ | ⟨-, h⟩ | ⟨-, t, hstep, h⟩
  · exact ⟨_, h, hinv⟩
  · exact ⟨_, h, coreInv_idle hinv⟩
  · exact ⟨_, h, stepKeepsInvariant s t hinv hstep⟩

theorem coreInv_runLoop {maxSteps n : Nat} {s : State} (hinv : CoreInv s) :
    ∃ e, runLoop maxSteps n s = .next e ∧ CoreInv e.state := by
  induction n generalizing s with
  | zero => exact ⟨_, rfl, hinv⟩
  | succ n ih =>
    obtain ⟨e, hiteration, he⟩ := coreInv_runIteration (maxSteps := maxSteps) hinv
    rw [runLoop, hiteration]
    cases e with
    | returned t | maxStepsExceeded t => exact ⟨_, rfl, he⟩
    | yielded t => exact ih he

theorem coreInv_runStart {s : State} (hinv : CoreInv s) : CoreInv (runStart s) := by
  unfold runStart
  split
  · exact hinv
  · exact ⟨hinv.memory, hinv.zero, by simp⟩

theorem coreInv_run {maxSteps : Nat} {s : State} (hinv : CoreInv s) :
    ∃ e, run maxSteps s = .next e ∧ CoreInv e.state := by
  unfold run
  split
  · exact ⟨_, rfl, hinv⟩
  · exact coreInv_runLoop (coreInv_runStart hinv)

theorem coreInv_hostStop {s : State} (hinv : CoreInv s) : CoreInv (hostStop s) := by
  unfold hostStop
  split
  · exact hinv
  · exact coreInv_idle hinv

/-- Settles O12: the calls that end with a step keep the invariant because the step does, the others set a state that
meets it. -/
theorem hostCallsKeepInvariant : Obligations.HostCallsKeepInvariant := by
  intro c s t hinv hcall
  cases c with
  | reset =>
    obtain rfl := Host.Outcome.next.inj hcall
    exact coreInv_hostReset s
  | loadProgram p =>
    obtain rfl := Host.Outcome.next.inj hcall
    exact ⟨copyImage_wf empty_wf, rfl, by simp [loadProgram, hostReset, State.reset]⟩
  | step => exact stepKeepsInvariant s t hinv hcall
  | run maxSteps =>
    obtain ⟨e, hrun, he⟩ := coreInv_run (maxSteps := maxSteps) hinv
    rw [hostCall, hrun] at hcall
    exact Host.Outcome.next.inj hcall ▸ he
  | runStart =>
    obtain rfl := Host.Outcome.next.inj hcall
    exact coreInv_runStart hinv
  | runNext maxSteps =>
    obtain ⟨e, hiteration, he⟩ := coreInv_runIteration (maxSteps := maxSteps) hinv
    rw [hostCall, hiteration] at hcall
    exact Host.Outcome.next.inj hcall ▸ he
  | stop =>
    obtain rfl := Host.Outcome.next.inj hcall
    exact coreInv_hostStop hinv

/-! ### Every run ends -/

/-- A step of a core that is not halted halts it and ends its run, or completes and keeps the control state. -/
theorem step_halts_or_completes {s t : State} (hs : ¬ Halted s) (hstep : step s = .next t) :
    (Halted t ∧ t.running = false) ∨
    (t.running = s.running ∧ t.status = s.status ∧ t.instructionCount = s.instructionCount + 1) := by
  rcases step_inversion hstep with ⟨hhalted, -⟩ | ⟨e, rfl⟩ | ⟨i, s', a, heffect, rfl⟩
  · exact absurd hhalted hs
  · exact .inl ⟨.inr ⟨e, rfl⟩, rfl⟩
  · rcases heffect.control_cases with ⟨hrunning, hstatus⟩ | ⟨-, hrunning, hstatus⟩
    · exact .inr ⟨hrunning, hstatus, congrArg (· + 1) heffect.instructionCount⟩
    · exact .inl ⟨.inl hstatus, hrunning⟩

/-- How a run that began in `s` ends. -/
def RunEnds (maxSteps : Nat) (s : State) (r : Host.Outcome RunEnd Fault Refusal) : Prop :=
  (∃ t, r = .next (.returned t) ∧ Halted t) ∨
  (∃ t, r = .next (.maxStepsExceeded t) ∧ t.status = .idle ∧ t.running = false ∧
    t.instructionCount = max maxSteps s.instructionCount)

/-- With an iteration for each step below the ceiling and one more, the loop ends: each iteration but the last two
completes a step, which brings the count nearer to the ceiling. -/
theorem runLoop_ends {maxSteps n : Nat} {s : State} (hrunning : s.running = true) (hs : ¬ Halted s)
    (hn : maxSteps < n + s.instructionCount) (hpos : 0 < n) : RunEnds maxSteps s (runLoop maxSteps n s) := by
  induction n generalizing s with
  | zero => exact absurd hpos (by decide)
  | succ n ih =>
    rcases runIteration_cases maxSteps s with ⟨hstopped, -⟩ | ⟨hceiling, h⟩ | ⟨hbelow, t, hstep, h⟩
    · rw [hrunning] at hstopped
      cases hstopped
    · rw [runLoop, h]
      exact .inr ⟨_, rfl, rfl, rfl, (max_eq_right hceiling).symm⟩
    · have hn' : 0 < n := by omega
      rw [runLoop, h]
      rcases step_halts_or_completes hs hstep with ⟨hhalted, hstopped⟩ | ⟨hkept, hstatus, hcount⟩
      · obtain ⟨n, rfl⟩ := Nat.exists_eq_succ_of_ne_zero hn'.ne'
        refine .inl ⟨t, ?_, hhalted⟩
        simp only [runLoop, runIteration_stopped maxSteps hstopped]
      · have hends := ih (hkept.trans hrunning) (by rwa [Halted, hstatus]) (by omega) hn'
        rwa [RunEnds, hcount, show max maxSteps (s.instructionCount + 1) = max maxSteps s.instructionCount by omega]
          at hends

theorem runStart_not_halted {s : State} (h : ¬ Halted s) :
    runStart s = { s with running := true, status := .running } :=
  if_neg (mt (isHalted_iff s).1 h)

/-- Settles O58: the fuel of `run` is an iteration for each step below the ceiling and one more. -/
theorem everyRunEnds : Obligations.EveryRunEnds := by
  intro maxSteps s
  by_cases hs : Halted s
  · exact .inl ⟨s, run_halted maxSteps hs, hs⟩
  · have hrun : run maxSteps s = runLoop maxSteps (maxSteps - s.instructionCount + 1) (runStart s) :=
      if_neg (mt (isHalted_iff s).1 hs)
    rw [hrun, runStart_not_halted hs]
    exact runLoop_ends (s := { s with running := true, status := .running }) rfl (by simp [Halted])
      (by simp only; omega) (by omega)

end Sys2Proof.Machine
end

section
/-! PROOFS. What no instruction reads: the output stream and the control state (10_state.md R20, R22, R23). A change of
the state that no operation reads commutes with every step. -/

namespace Sys2Proof.Machine

open Sys2Proof.Safety

/-- The result with a change made to its next state. -/
def mapNext (g : State → State) : Result → Result
  | .next t => .next (g t)
  | .fault r => .fault r
  | .refused r => .refused r

/-- The change `g` is read by no operation: it keeps what they read, and commutes with what they write. -/
structure Unread (g : State → State) : Prop where
  readX : ∀ s r, readX (g s) r = readX s r
  readF : ∀ s r, readF (g s) r = readF s r
  pc : ∀ s, (g s).pc = s.pc
  mem : ∀ s, (g s).mem = s.mem
  params : ∀ s, (g s).params = s.params
  nanDraws : ∀ s, (g s).nanDraws = s.nanDraws
  isHalted : ∀ s, (g s).status.isHalted = s.status.isHalted
  writeX : ∀ s r v, writeX (g s) r v = g (writeX s r v)
  writeF : ∀ s r v, writeF (g s) r v = g (writeF s r v)
  setMem : ∀ s m, setMem (g s) m = g (setMem s m)
  emit : ∀ s e, emit (g s) e = g (emit s e)
  countNan : ∀ s, countNan (g s) = g (countNan s)
  haltExit : ∀ s, haltExit (g s) = g (haltExit s)
  haltError : ∀ s e, haltError (g s) e = g (haltError s e)
  retire : ∀ s a, retire (g s) a = g (retire s a)

namespace Unread

section
variable {g : State → State} (hg : Unread g)
include hg

/-! ### The shared operations -/

theorem raise (s : State) (e : Fault) : raise (g s) e = mapNext g (raise s e) :=
  congrArg Host.Outcome.next (hg.haltError s e)

theorem pcPlus4 (s : State) : pcPlus4 (g s) = pcPlus4 s := by
  simp only [Machine.pcPlus4, hg.params, hg.pc]

theorem completeAt (s s' : State) (target : Except Fault Word) :
    completeAt (g s) (g s') target = mapNext g (completeAt s s' target) := by
  cases target with
  | ok a => exact congrArg Host.Outcome.next (hg.retire s' a)
  | error e => exact hg.raise s e

theorem complete (s s' : State) : complete (g s) (g s') = mapNext g (complete s s') := by
  rw [Machine.complete, hg.pcPlus4, hg.completeAt, ← Machine.complete]

theorem completeX {s : State} {rd : XReg} {v v' : Word} (hv : v' = v) :
    completeX (g s) rd v' = mapNext g (completeX s rd v) := by
  rw [hv, Machine.completeX, hg.writeX, hg.complete, ← Machine.completeX]

theorem completeF {s : State} {rd : FReg} {v v' : Word} (hv : v' = v) :
    completeF (g s) rd v' = mapNext g (completeF s rd v) := by
  rw [hv, Machine.completeF, hg.writeF, hg.complete, ← Machine.completeF]

theorem completeArith {s : State} {rd : FReg} {r r' : Option Word} (hr : r' = r) :
    completeArith (g s) rd r' = mapNext g (completeArith s rd r) := by
  have hwrite : writeArith (g s) rd r = g (writeArith s rd r) := by
    cases r with
    | some v => exact hg.writeF s rd v
    | none => simp only [writeArith, hg.nanDraws, hg.writeF, hg.countNan]
  rw [hr, Machine.completeArith, hwrite, hg.complete, ← Machine.completeArith]

theorem effectiveAddress (s : State) (rs1 : XReg) (imm : BitVec 12) :
    effectiveAddress (g s) rs1 imm = effectiveAddress s rs1 imm := by
  simp only [Machine.effectiveAddress, hg.params, hg.readX]

theorem loadValue (s : State) (rs1 : XReg) (imm : BitVec 12) (n : Nat) :
    loadValue (g s) rs1 imm n = loadValue s rs1 imm n := by
  simp only [Machine.loadValue, hg.effectiveAddress, hg.params, hg.mem]

theorem completeLoad {s : State} {rd rs1 : XReg} {imm : BitVec 12} {n : Nat} {ext : Nat → Word} :
    completeLoad (g s) rd ext (Machine.loadValue (g s) rs1 imm n) =
      mapNext g (completeLoad s rd ext (Machine.loadValue s rs1 imm n)) := by
  rw [hg.loadValue]
  cases Machine.loadValue s rs1 imm n with
  | ok v => exact hg.completeX rfl
  | error e => exact hg.raise s e

theorem storedMemory (s : State) (rs1 rs2 : XReg) (imm : BitVec 12) (n : Nat) :
    storedMemory (g s) rs1 rs2 imm n = storedMemory s rs1 rs2 imm n := by
  simp only [Machine.storedMemory, hg.effectiveAddress, hg.params, hg.mem, hg.readX]

theorem completeStore {s : State} {rs1 rs2 : XReg} {imm : BitVec 12} {n : Nat} :
    completeStore (g s) (Machine.storedMemory (g s) rs1 rs2 imm n) =
      mapNext g (completeStore s (Machine.storedMemory s rs1 rs2 imm n)) := by
  rw [hg.storedMemory]
  cases Machine.storedMemory s rs1 rs2 imm n with
  | ok m => exact (congrArg _ (hg.setMem s m)).trans (hg.complete s _)
  | error e => exact hg.raise s e

theorem completeJump {s : State} {rd : XReg} {target target' : Except Fault Word} (ht : target' = target) :
    completeJump (g s) rd target' = mapNext g (completeJump s rd target) := by
  rw [ht, Machine.completeJump, Machine.completeJump, hg.pcPlus4]
  cases Machine.pcPlus4 s with
  | ok link =>
    exact (congrArg (Machine.completeAt (g s) · target) (hg.writeX s rd link)).trans (hg.completeAt s _ target)
  | error e => exact hg.raise s e

theorem branchIf {s : State} {taken taken' : Bool} {off : BitVec 13} (ht : taken' = taken) :
    branchIf (g s) taken' off = mapNext g (branchIf s taken off) := by
  have htarget : branchTarget (g s) off = branchTarget s off := by simp only [branchTarget, hg.params, hg.pc]
  rw [ht, Machine.branchIf, Machine.branchIf, htarget]
  cases taken with
  | true => exact hg.completeAt s s _
  | false => exact hg.complete s s

/-! ### Every instruction -/

theorem ecall (s : State) : execEcall (g s) = mapNext g (execEcall s) := by
  unfold execEcall
  rw [hg.readX]
  split_ifs with hexit hint hstring hwrite
  · exact (congrArg _ (hg.haltExit s)).trans (hg.complete s _)
  · rw [sysPrintInt, hg.readX, hg.emit, hg.complete, ← sysPrintInt]
  · rw [sysPrintString, sysPrintString, hg.readX, hg.mem, hg.params]
    cases stringBytes s.mem s.params.printStringCap (Machine.readX s regA0) with
    | ok bs => exact (congrArg _ (hg.emit s _)).trans (hg.complete s _)
    | error e => exact hg.raise s e
  · simp only [sysWrite, hg.readX, hg.mem, hg.emit, hg.writeX, hg.complete]
    split <;> rfl
  · rw [sysUnsupported, hg.readX, hg.emit, hg.complete, ← sysUnsupported]

/-- A change that no operation reads commutes with every instruction. -/
theorem exec (i : Instr) (s : State) : exec i (g s) = mapNext g (exec i s) := by
  cases i with
  | jal | jalr => exact hg.completeJump (by simp only [jalTarget, jalrTarget, hg.params, hg.pc, hg.readX])
  | beq | bne | blt | bge | bltu | bgeu => exact hg.branchIf (by simp only [hg.readX])
  | lb | lh | lw | lbu | lhu => exact hg.completeLoad
  | sb | sh | sw => exact hg.completeStore
  | faddS | fsubS | fmulS | fdivS => exact hg.completeArith (by simp only [hg.readF])
  | fcvtSW | fmvWX => exact hg.completeF (by simp only [hg.readX])
  | ecall => exact hg.ecall s
  | ebreak => exact hg.raise s _
  | lui => exact hg.completeX rfl
  | auipc => exact hg.completeX (by simp only [hg.pc])
  | fcvtWS | feqS | fltS | fleS | fmvXW => exact hg.completeX (by simp only [hg.readF, hg.params])
  | _ => exact hg.completeX (by simp only [hg.readX])

theorem fetchDecode (s : State) : fetchDecode (g s) = fetchDecode s := by
  simp only [Machine.fetchDecode, fetchWord, decodeFetched, hg.params, hg.mem, hg.pc]

/-- A change that no operation reads commutes with the step. -/
theorem step (s : State) : step (g s) = mapNext g (step s) := by
  rw [Machine.step, Machine.step, hg.isHalted, hg.fetchDecode]
  split
  · rfl
  · cases Machine.fetchDecode s with
    | ok i => exact hg.exec i s
    | error e => exact hg.raise s e

end

end Unread

/-! ### The output stream -/

/-- The stream with the events `o` before it. -/
def prependOut (o : List OutEvent) (s : State) : State := { s with out := o ++ s.out }

theorem prependOut_unread (o : List OutEvent) : Unread (prependOut o) where
  readX _ _ := rfl
  readF _ _ := rfl
  pc _ := rfl
  mem _ := rfl
  params _ := rfl
  nanDraws _ := rfl
  isHalted _ := rfl
  writeX s r v := by unfold writeX; split <;> rfl
  writeF _ _ _ := rfl
  setMem _ _ := rfl
  emit s e := by simp [prependOut, emit]
  countNan _ := rfl
  haltExit _ := rfl
  haltError _ _ := rfl
  retire _ _ := rfl

/-- Settles O52: the events a step appends are those it emits into an empty stream. -/
theorem outputNeverReadBack : Obligations.OutputNeverReadBack := by
  intro s o
  obtain ⟨t, hstep⟩ := everyStepAnswersNext { s with out := [] }
  have hstream (p : List OutEvent) : step { s with out := p } = .next { t with out := p ++ t.out } := by
    simpa [prependOut, hstep, mapNext] using (prependOut_unread p).step { s with out := [] }
  exact ⟨{ t with out := s.out ++ t.out }, t.out, hstream s.out, rfl, hstream o⟩

/-! ### The control state of a run -/

theorem runStart_unread : Unread runStart where
  readX s r := by unfold runStart; split <;> rfl
  readF s r := by unfold runStart; split <;> rfl
  pc s := by unfold runStart; split <;> rfl
  mem s := by unfold runStart; split <;> rfl
  params s := by unfold runStart; split <;> rfl
  nanDraws s := by unfold runStart; split <;> rfl
  isHalted s := by
    unfold runStart
    split
    · rfl
    · exact (Bool.eq_false_iff.2 ‹_›).symm
  writeX s r v := by
    unfold runStart
    rw [writeX_status]
    split
    · rfl
    · unfold writeX; split <;> rfl
  writeF s r v := by unfold runStart; rw [writeF_status]; split <;> rfl
  setMem s m := by unfold runStart; rw [setMem_status]; split <;> rfl
  emit s e := by unfold runStart; rw [emit_status]; split <;> rfl
  countNan s := by unfold runStart; rw [countNan_status]; split <;> rfl
  haltExit s := by unfold runStart; split <;> rfl
  haltError s e := by unfold runStart; split <;> rfl
  retire s a := by unfold runStart; rw [retire_status]; split <;> rfl

/-- Settles O59: setting a core running commutes with its step, and does nothing where the step halts. -/
theorem runningStepsAreTheSameSteps : Obligations.RunningStepsAreTheSameSteps := by
  intro s hidle hstopped
  obtain ⟨t, hstep⟩ := everyStepAnswersNext s
  have hrunning : step (runStart s) = .next (runStart t) := by rw [runStart_unread.step, hstep, mapNext]
  refine ⟨t, runStart t, hstep, hrunning, ?_⟩
  rcases step_halts_or_completes (by simp [Halted, hidle]) hstep with ⟨hhalted, -⟩ | ⟨hkept, hstatus, -⟩
  · exact .inr ⟨hhalted, runStart_halted hhalted⟩
  · exact .inl ⟨hstatus.trans hidle, hkept.trans hstopped, rfl⟩

end Sys2Proof.Machine
end

section
/-! PROOFS. Address sums that overflow, and that none does while WRAP is true (60_exceptions.md R258). -/

namespace Sys2Proof.Machine

open Sys2Proof.Safety

/-! ### With WRAP false: the sums that leave the range -/

/-- A store fails through an address sum alone (20_memory.md R35). -/
theorem memWriteFrom_error {p : Config.Params} {a : Word} {bs : List Byte} {e : Fault} :
    ∀ {m : Memory} {i : Nat}, memWriteFrom p m a i bs = .error e → e = .addressOverflow := by
  induction bs with
  | nil => intro m i h; cases h
  | cons b bs ih =>
    intro m i h
    rcases addressOf_cases p (unsigned a + i) with ⟨-, hsum⟩ | ⟨-, hsum⟩ <;> simp only [memWriteFrom, hsum] at h
    · exact ih h
    · exact (Except.error.inj h).symm

theorem memWrite_overflows {p : Config.Params} {a : Word} {n : Nat} (m : Memory) (v : Word) (hn : 0 < n)
    (h : ¬ AccessFits p a n) : memWrite p m a n v = .error .addressOverflow := by
  cases hwrite : memWrite p m a n v with
  | ok m' => exact absurd (accessFits_of_memWrite hn hwrite) h
  | error e => rw [memWriteFrom_error hwrite]

section
variable {s : State} {rs1 : XReg} {imm : BitVec 12}

theorem loadValue_overflows (n : Nat) (h : ¬ SumFits s.params (unsigned (readX s rs1) + imm.toInt)) :
    loadValue s rs1 imm n = .error .addressOverflow := by
  simp only [loadValue, effectiveAddress, addressOf_overflows h]

theorem storedMemory_overflows (rs2 : XReg) (n : Nat) (h : ¬ SumFits s.params (unsigned (readX s rs1) + imm.toInt)) :
    storedMemory s rs1 rs2 imm n = .error .addressOverflow := by
  simp only [storedMemory, effectiveAddress, addressOf_overflows h]

theorem jalrTarget_overflows (h : ¬ SumFits s.params (unsigned (readX s rs1) + imm.toInt)) :
    jalrTarget s rs1 imm = .error .addressOverflow := by
  simp only [jalrTarget, addressOf_overflows h]

/-- A jump whose target overflows raises AddressOverflow, whichever of its two sums is looked at first. -/
theorem completeJump_overflows {rd : XReg} {target : Except Fault Word} (h : target = .error .addressOverflow) :
    completeJump s rd target = raise s .addressOverflow := by
  rw [h, completeJump]
  by_cases hpc : PcFits s
  · rw [pcPlus4_fits hpc]; rfl
  · rw [pcPlus4_overflows hpc]

theorem completeLoad_overflows {rd : XReg} {ext : Nat → Word} {r : Except Fault Nat}
    (h : r = .error .addressOverflow) : completeLoad s rd ext r = raise s .addressOverflow := by
  rw [h, completeLoad]

theorem completeStore_overflows {r : Except Fault Memory} (h : r = .error .addressOverflow) :
    completeStore s r = raise s .addressOverflow := by
  rw [h, completeStore]

end

/-- An instruction that raises a fault takes it. -/
theorem exec_faulted {i : Instr} {s : State} {e : Fault} (h : exec i s = raise s e) :
    ∃ t, exec i s = .next t ∧ Faulted s t e := ⟨haltError s e, h, haltError_faulted s e⟩

/-- The plain instructions have no fault but that of `pc + 4`. -/
theorem exec_eq_complete {i : Instr} (s : State) (hcontrol : isControl i = false) (hload : isLoad i = false)
    (hstore : isStore i = false) (hecall : i ≠ .ecall) (hebreak : i ≠ .ebreak) :
    ∃ s', exec i s = complete s s' := by
  cases i with
  | jal | jalr | beq | bne | blt | bge | bltu | bgeu => exact absurd hcontrol (by simp [isControl])
  | lb | lh | lw | lbu | lhu => exact absurd hload (by simp [isLoad])
  | sb | sh | sw => exact absurd hstore (by simp [isStore])
  | ecall => exact absurd rfl hecall
  | ebreak => exact absurd rfl hebreak
  | _ => exact ⟨_, rfl⟩

/-- Settles O51: each kind of sum is one operation, and what ends the step raises the fault of that operation. -/
theorem wrapFalseRaisesOverflow : Obligations.WrapFalseRaisesOverflow := by
  refine ⟨fun i s hcontrol hload hstore hecall hebreak hpc => ?_, fun s r1 r2 imm hsum i hi => exec_faulted ?_,
    fun s rd off hsum => exec_faulted (completeJump_overflows (addressOf_overflows hsum)),
    fun s r off hsum => exec_faulted ?_, fun s rs1 rs2 imm hsum hacc => exec_faulted (completeStore_overflows ?_)⟩
  · obtain ⟨s', h⟩ := exec_eq_complete s hcontrol hload hstore hecall hebreak
    exact exec_faulted (h.trans (complete_overflows s' hpc))
  · simp only [List.mem_cons, List.not_mem_nil, or_false] at hi
    obtain rfl | rfl | rfl | rfl | rfl | rfl | rfl | rfl | rfl := hi
    iterate 5 exact completeLoad_overflows (loadValue_overflows _ hsum)
    iterate 3 exact completeStore_overflows (storedMemory_overflows _ _ hsum)
    exact completeJump_overflows (jalrTarget_overflows hsum)
  · have htarget : branchTarget s off = .error .addressOverflow := addressOf_overflows hsum
    rw [exec, execBeq, branchIf, if_pos (beq_self_eq_true _), htarget, completeAt]
  · rw [storedMemory_eq_memWrite rs2 4 hsum]
    exact memWrite_overflows s.mem _ (by decide) hacc

/-! ### With WRAP true: no sum raises anything -/

theorem memReadFrom_ne_overflow {p : Config.Params} (hw : p.wrap = true) (m : Memory) (a : Word) (n : Nat) :
    ∀ i, memReadFrom p m a i n ≠ .error .addressOverflow := by
  induction n with
  | zero => intro i h; cases h
  | succ n ih =>
    intro i
    have hsum : addressOf p (unsigned a + i) = .ok (wrap32 (unsigned a + i)) := addressOf_fits (.inl hw)
    cases hb : readByte m (wrap32 (unsigned a + i)) with
    | none => simp [memReadFrom, hsum, hb]
    | some b =>
      cases hrest : memReadFrom p m a (i + 1) n with
      | ok v => simp [memReadFrom, hsum, hb, hrest]
      | error e =>
        simp only [memReadFrom, hsum, hb, hrest]
        exact hrest ▸ ih (i + 1)

/-- The fetch renames the fault of an unmapped byte alone. -/
theorem fetchFault_ne_overflow (pc : Word) {e : Fault} (he : e ≠ .addressOverflow) :
    fetchFault pc e ≠ .addressOverflow := by
  cases e with
  | addressOverflow => exact absurd rfl he
  | _ => exact nofun

/-- The result does not record AddressOverflow. -/
def NoOverflow (r : Result) : Prop := ∀ t, r = .next t → t.status ≠ .haltedError .addressOverflow

theorem noOverflow_raise (s : State) {e : Fault} (he : e ≠ .addressOverflow) : NoOverflow (raise s e) := by
  rintro t ht hstatus
  obtain rfl := Host.Outcome.next.inj ht
  exact he (Status.haltedError.inj hstatus)

theorem noOverflow_completeAt (s : State) {s' : State} {target : Except Fault Word}
    (hs' : s'.status ≠ .haltedError .addressOverflow) (htarget : target ≠ .error .addressOverflow) :
    NoOverflow (completeAt s s' target) := by
  cases target with
  | ok a => rintro t ht; exact Host.Outcome.next.inj ht ▸ hs'
  | error e => exact noOverflow_raise s fun he => htarget (he ▸ rfl)

section
variable {s : State} (hw : s.params.wrap = true)
include hw

theorem addressOf_ne_overflow (n : Int) : addressOf s.params n ≠ .error .addressOverflow := by
  rw [addressOf_fits (.inl hw)]
  exact nofun

theorem noOverflow_complete {s' : State} (hs' : s'.status ≠ .haltedError .addressOverflow) :
    NoOverflow (complete s s') := noOverflow_completeAt s hs' (addressOf_ne_overflow hw _)

variable (hs : s.status ≠ .haltedError .addressOverflow)
include hs

theorem noOverflow_completeX (rd : XReg) (v : Word) : NoOverflow (completeX s rd v) :=
  noOverflow_complete hw (by rwa [writeX_status])

theorem noOverflow_completeArith (rd : FReg) (r : Option Word) : NoOverflow (completeArith s rd r) :=
  noOverflow_complete hw (by rwa [writeArith_status])

theorem noOverflow_completeLoad (rd rs1 : XReg) (imm : BitVec 12) (n : Nat) (ext : Nat → Word) :
    NoOverflow (completeLoad s rd ext (loadValue s rs1 imm n)) := by
  have hvalue : loadValue s rs1 imm n = memRead s.params s.mem (ea s rs1 imm) n := by
    simp only [loadValue, effectiveAddress_fits (.inl hw)]
  rw [hvalue]
  cases hread : memRead s.params s.mem (ea s rs1 imm) n with
  | ok v => exact noOverflow_completeX hw hs rd _
  | error e => exact noOverflow_raise s fun he => memReadFrom_ne_overflow hw _ _ n 0 (hread.trans (congrArg _ he))

theorem noOverflow_completeStore (rs1 rs2 : XReg) (imm : BitVec 12) (n : Nat) :
    NoOverflow (completeStore s (storedMemory s rs1 rs2 imm n)) := by
  obtain ⟨m, hm⟩ := memWrite_fits (a := ea s rs1 imm) (n := n) s.mem (readX s rs2) (.inl hw)
  rw [storedMemory_eq_memWrite rs2 n (.inl hw), hm]
  exact noOverflow_complete hw hs

theorem noOverflow_completeJump (rd : XReg) {target : Except Fault Word} (ht : target ≠ .error .addressOverflow) :
    NoOverflow (completeJump s rd target) := by
  rw [completeJump, pcPlus4_fits (.inl hw)]
  exact noOverflow_completeAt s (by rwa [writeX_status]) ht

theorem noOverflow_branchIf (taken : Bool) (off : BitVec 13) : NoOverflow (branchIf s taken off) := by
  cases taken with
  | true => exact noOverflow_completeAt s hs (addressOf_ne_overflow hw _)
  | false => exact noOverflow_complete hw hs

theorem noOverflow_ecall : NoOverflow (execEcall s) := by
  unfold execEcall
  split_ifs with hexit hint hstring hwrite
  · exact noOverflow_complete hw nofun
  · exact noOverflow_complete hw hs
  · obtain ⟨bs, -, -, ⟨-, hbytes⟩ | ⟨-, -, hbytes⟩⟩ :=
      stringBytes_cases s.mem s.params.printStringCap (readX s regA0)
    · rw [sysPrintString, hbytes]
      exact noOverflow_complete hw hs
    · rw [sysPrintString, hbytes]
      exact noOverflow_raise s nofun
  · unfold sysWrite
    split
    · exact noOverflow_complete hw (by rwa [writeX_status])
    · exact noOverflow_completeX hw hs _ _
  · exact noOverflow_complete hw hs

/-- Every instruction ends at sums that fit, or in a fault of another name. -/
theorem noOverflow_exec (i : Instr) : NoOverflow (exec i s) := by
  cases i with
  | jal => exact noOverflow_completeJump hw hs _ (addressOf_ne_overflow hw _)
  | jalr => exact noOverflow_completeJump hw hs _ (by rw [jalrTarget_fits (.inl hw)]; exact nofun)
  | beq | bne | blt | bge | bltu | bgeu => exact noOverflow_branchIf hw hs _ _
  | lb | lh | lw | lbu | lhu => exact noOverflow_completeLoad hw hs _ _ _ _ _
  | sb | sh | sw => exact noOverflow_completeStore hw hs _ _ _ _
  | faddS | fsubS | fmulS | fdivS => exact noOverflow_completeArith hw hs _ _
  | fcvtSW | fmvWX => exact noOverflow_complete hw hs
  | ecall => exact noOverflow_ecall hw hs
  | ebreak => exact noOverflow_raise s nofun
  | _ => exact noOverflow_completeX hw hs _ _

omit hs in
theorem fetchDecode_ne_overflow : fetchDecode s ≠ .error .addressOverflow := by
  cases hread : memRead s.params s.mem s.pc 4 with
  | error e =>
    have he : e ≠ .addressOverflow := fun he => memReadFrom_ne_overflow hw _ _ 4 0 (hread.trans (congrArg _ he))
    rw [fetchDecode_fetchFault (e := fetchFault s.pc e) (by simp only [fetchWord, hread])]
    exact fun h => fetchFault_ne_overflow s.pc he (Except.error.inj h)
  | ok v =>
    rw [fetchDecode_fetched (w := BitVec.ofNat 32 v) (by simp only [fetchWord, hread]), decodeFetched]
    split
    · exact nofun
    · split <;> exact nofun

end

/-- Settles O50: every sum of the fetch and of the instruction fits, and the faults that remain are others. -/
theorem wrapTrueNeverOverflows : Obligations.WrapTrueNeverOverflows := by
  intro s t hw hs hstep
  rcases step_cases s with ⟨-, h⟩ | ⟨-, e, hfetch, h⟩ | ⟨-, i, -, h⟩ <;> rw [h] at hstep
  · exact Host.Outcome.next.inj hstep ▸ hs
  · exact noOverflow_raise s (fun he => fetchDecode_ne_overflow hw (he ▸ hfetch)) t hstep
  · exact noOverflow_exec hw hs i t hstep

end Sys2Proof.Machine
end

section
/-! PROOFS. Results read back: quotient and remainder, a word stored then loaded or fetched, the rm field, and the step
as fetch, decode and execute. -/

namespace Sys2Proof.Machine

open Sys2Proof.Safety

/-! ### Quotient and remainder (41_muldiv.md R147) -/

theorem wrap32_signed (v : Word) : wrap32 (signed v) = v := BitVec.ofInt_toInt

theorem mul_divSigned_add_remSigned (a b : Word) : b * divSigned a b + remSigned a b = a := by
  by_cases hb : b = 0#32
  · simp [divSigned, remSigned, hb]
  · rw [divSigned, remSigned, if_neg hb, if_neg hb, sdiv_eq_wrap32, srem_eq_wrap32]
    generalize Int.tdiv (signed a) (signed b) = q
    calc b * wrap32 q + wrap32 (signed a - signed b * q)
        = wrap32 (signed b) * wrap32 q + wrap32 (signed a - signed b * q) := by rw [wrap32_signed]
      _ = wrap32 (signed b * q + (signed a - signed b * q)) := by simp only [wrap32, BitVec.ofInt_add, BitVec.ofInt_mul]
      _ = a := by rw [add_sub_cancel, wrap32_signed]

theorem mul_divUnsigned_add_remUnsigned (a b : Word) : b * divUnsigned a b + remUnsigned a b = a := by
  by_cases hb : b = 0#32
  · simp [divUnsigned, remUnsigned, hb]
  · rw [divUnsigned, remUnsigned, if_neg hb, if_neg hb]
    apply BitVec.eq_of_toNat_eq
    rw [BitVec.toNat_add, BitVec.toNat_mul, BitVec.toNat_udiv, BitVec.toNat_umod, Nat.mod_add_mod, Nat.div_add_mod,
      Nat.mod_eq_of_lt a.isLt]

/-- What `rd` reads after an instruction whose whole effect is to write it. -/
theorem readX_of_completeX {i : Instr} {s t : State} {rd : XReg} {v : Word} (hexec : exec i s = completeX s rd v)
    (hp : PcFits s) (hrd : rd ≠ 0#5) (ht : exec i s = .next t) : readX t rd = v := by
  obtain ⟨u, hu, honly⟩ := exec_onlyX hexec rfl hp
  obtain rfl : u = t := Host.Outcome.next.inj (hu.symm.trans ht)
  rw [honly.x, if_pos ⟨rfl, hrd⟩]

/-- Settles O19: each pair writes a quotient and the remainder that goes with it. -/
theorem quotientTimesDivisorPlusRemainder : Obligations.QuotientTimesDivisorPlusRemainder := by
  intro s td tr ud ur rd rs1 rs2 hp hrd htd htr hud hur
  rw [readX_of_completeX rfl hp hrd htd, readX_of_completeX rfl hp hrd htr, readX_of_completeX rfl hp hrd hud,
    readX_of_completeX rfl hp hrd hur]
  exact ⟨mul_divSigned_add_remSigned _ _, mul_divUnsigned_add_remUnsigned _ _⟩

/-! ### A word stored, then loaded or fetched (42_load_store.md R163, 20_memory.md R43) -/

/-- What SW leaves, where its three sums fit. -/
theorem exec_sw_retires {s t : State} {rs1 rs2 : XReg} {imm : BitVec 12} (hp : PcFits s)
    (hsum : SumFits s.params (unsigned (readX s rs1) + imm.toInt)) (hacc : AccessFits s.params (ea s rs1 imm) 4)
    (ht : exec (.sw rs1 rs2 imm) s = .next t) :
    ∃ m, memWrite s.params s.mem (ea s rs1 imm) 4 (readX s rs2) = .ok m ∧ t = retire (setMem s m) (nextPc s) := by
  obtain ⟨m, hm⟩ := memWrite_fits s.mem (readX s rs2) hacc
  refine ⟨m, hm, Host.Outcome.next.inj (ht.symm.trans ?_)⟩
  rw [exec, execSw, storedMemory_eq_memWrite rs2 4 hsum, hm]
  exact complete_fits _ hp

/-- The four bytes of a stored word are the word. -/
theorem ofNat_word_mod (v : Word) : BitVec.ofNat 32 (v.toNat % 2 ^ (8 * 4)) = v := by
  rw [Nat.mod_eq_of_lt v.isLt, BitVec.ofNat_toNat, BitVec.setWidth_eq]

/-- Settles O22: the store leaves the base register, so the load reads the four bytes stored. -/
theorem loadReturnsStoredWord : Obligations.LoadReturnsStoredWord := by
  intro s t rs1 rs2 rd imm hw hrd hstore
  obtain ⟨m, hm, rfl⟩ := exec_sw_retires (.inl hw) (.inl hw) (.inl hw) hstore
  have haddress : effectiveAddress (retire (setMem s m) (nextPc s)) rs1 imm = .ok (ea s rs1 imm) :=
    effectiveAddress_fits (s := s) (.inl hw)
  have hvalue : loadValue (retire (setMem s m) (nextPc s)) rs1 imm 4 = .ok ((readX s rs2).toNat % 2 ^ (8 * 4)) := by
    rw [loadValue, haddress]
    exact memRead_memWrite (by decide) (by decide) hm
  have hload : exec (.lw rd rs1 imm) (retire (setMem s m) (nextPc s)) =
      completeX (retire (setMem s m) (nextPc s)) rd (readX s rs2) := by
    rw [exec, execLw, hvalue, completeLoad, zext, ofNat_word_mod]
  obtain ⟨u, hu, -⟩ := exec_onlyX hload rfl (.inl hw)
  exact ⟨u, hu, readX_of_completeX hload (.inl hw) hrd hu⟩

/-- Settles O23: the store takes the pc to where it stored, so the fetch reads the four bytes stored. -/
theorem fetchSeesPrecedingStore : Obligations.FetchSeesPrecedingStore := by
  intro s t rs1 rs2 imm hp hsum hacc hnext hstore
  obtain ⟨m, hm, rfl⟩ := exec_sw_retires hp hsum hacc hstore
  rw [hnext] at hm
  have hread : memRead s.params m (nextPc s) 4 = .ok ((readX s rs2).toNat % 2 ^ (8 * 4)) :=
    memRead_memWrite (by decide) (by decide) hm
  simp only [fetchWord, retire_params, setMem_params, retire_mem, setMem_mem, retire_pc, hread, ofNat_word_mod]

/-! ### The rm field (45_float.md R202) -/

/-- All the modes that do not truncate round alike. -/
theorem floatToInt_of_ne_truncate {rm rm' : BitVec 3} (h : rm ≠ 0b001#3) (h' : rm' ≠ 0b001#3) (p : Config.Params)
    (d : Datum) : floatToInt p rm d = floatToInt p rm' d := by
  cases d with
  | nan | inf => rfl
  | finite neg units => rw [floatToInt, floatToInt, toInteger, toInteger, if_neg h, if_neg h']

/-- Settles O35: five meanings do not look at `rm`, the sixth compares it with 001, and the words are encodings of
well-formed instructions whatever it is. -/
theorem roundingModeField : Obligations.RoundingModeField := by
  refine ⟨fun s rd rs1 rs2 rm rm' => ⟨rfl, rfl, rfl, rfl, rfl⟩, fun s rd rs1 rm rm' h h' => ?_,
    fun rd rs1 rs2 rm => ⟨?_, ?_, ?_, ?_, ?_, ?_⟩⟩
  · rw [exec, exec, execFcvtWS, execFcvtWS, floatToInt_of_ne_truncate h h']
  all_goals exact decodeEncodeRoundTrip _ rfl

/-! ### The step (60_exceptions.md R261) -/

/-- Settles O42: the fetch answers the word of the four bytes, and the decoder of the step is that of the word. -/
theorem stepRunsDecodedInstruction : Obligations.StepRunsDecodedInstruction := by
  intro s b0 b1 b2 b3 i hs hacc hb hdecode
  have hfetch : fetchDecode s = .ok i := by
    rw [fetchDecode_fetched (fetchWord_bytesAt hacc hb), decodeFetched, hdecode]
  rw [step, if_neg (mt (isHalted_iff s).1 hs), hfetch]

end Sys2Proof.Machine
end
